-- ==== Sys2Proof/Word.lean ====
section
/-! DEFINITION. The words of the TOAST CBRNG core: the 64-bit word of every key, counter, state, output and register
(00_scope.md R4, W = 64), the byte a platform may expose, and the two byte orders of OUT (20_memory.md R31). -/

namespace Sys2Proof

/-- A 64-bit word (00_scope.md R4: W = 64, section 5: `W64`). -/
abbrev W64 := BitVec 64

/-- One byte of the output memory (20_memory.md R31: element i occupies bytes 8i to 8i + 7). -/
abbrev Byte := BitVec 8

/-- The OPEN parameter OUT_BYTE_ORDER (00_scope.md R4, 20_memory.md R31). -/
inductive ByteOrder where
  | little
  | big
deriving DecidableEq, Repr

end Sys2Proof
end

