-- ==== Sys2Proof/Syntax.lean ====
section
/-! DEFINITION. The four commands (30_encoding.md R46, spec/opcode_table.json) and the textual command line of
30_encoding.md R53. A command word has no operand field (R45), so no constructor has an argument. -/

namespace Sys2Proof

/-- The four commands of the opcode table (30_encoding.md R46). -/
inductive Instr where
  /-- DIST_UINT64, DIST = 0 (42_driver.md R101). -/
  | distUint64
  /-- DIST_UNIFORM_01, DIST = 1 (42_driver.md R102). -/
  | distUniform01
  /-- DIST_UNIFORM_11, DIST = 2 (42_driver.md R103). -/
  | distUniform11
  /-- DIST_NORMAL, DIST = 3 (42_driver.md R104). -/
  | distNormal
deriving DecidableEq, Repr

/-- A command line of 30_encoding.md R53: the mnemonic and the five scalar operands as they are written in a program,
before they are known to fit in a register. The output operand is the bound OUT and is not written. -/
structure CommandLine where
  command  : Instr
  size     : Nat
  key0     : Nat
  key1     : Nat
  counter0 : Nat
  counter1 : Nat
deriving DecidableEq, Repr

end Sys2Proof
end

