-- ==== Sys2Proof/WellFormed.lean ====
section
/-! DEFINITION. Which command words and which command lines are well formed (30_encoding.md R44, R48, R53). -/

namespace Sys2Proof

/-- A command word is well formed when its reserved field RSVZ, bits[63:2], is zero (30_encoding.md R44, R48). -/
def CommandWord.wellFormed (w : W64) : Bool := w.extractLsb' 2 62 == 0

/-- Every command is well formed: a command word carries no operand that could be out of range (30_encoding.md R45,
R46: all four values of DIST are used). -/
def Instr.wellFormed (i : Instr) : Bool :=
  match i with
  | .distUint64 => true
  | .distUniform01 => true
  | .distUniform11 => true
  | .distNormal => true

/-- A command line is well formed when each of its five scalars is an unsigned 64-bit value (30_encoding.md R45, R53). -/
def CommandLine.wellFormed (l : CommandLine) : Bool :=
  l.command.wellFormed && decide (l.size < 2 ^ 64) && decide (l.key0 < 2 ^ 64) && decide (l.key1 < 2 ^ 64) &&
    decide (l.counter0 < 2 ^ 64) && decide (l.counter1 < 2 ^ 64)

end Sys2Proof
end

