-- ==== Sys2Proof/Decode.lean ====
section
/-! DEFINITION. The decoder and the encoder of the command word (30_encoding.md R44, R46, R48, R51). -/

namespace Sys2Proof

/-- Why a word is no command (30_encoding.md R48). -/
inductive DecodeError where
  /-- RSVZ, bits[63:2], is not zero. -/
  | reservedCommand
deriving DecidableEq, Repr

/-- The field DIST, bits[1:0] of a command word (30_encoding.md R44). -/
def distField (w : W64) : BitVec 2 := w.extractLsb' 0 2

/-- The field RSVZ, bits[63:2] of a command word (30_encoding.md R44). -/
def reservedField (w : W64) : BitVec 62 := w.extractLsb' 2 62

/-- The command a DIST value selects (30_encoding.md R46): every value of the field is used. -/
def commandOfDist (d : BitVec 2) : Instr :=
  if d = 0#2 then .distUint64
  else if d = 1#2 then .distUniform01
  else if d = 2#2 then .distUniform11
  else .distNormal

/-- The total decoder of 30_encoding.md R51. -/
def decode (w : W64) : Except DecodeError Instr :=
  if reservedField w = 0#62 then .ok (commandOfDist (distField w)) else .error .reservedCommand

/-- The DIST value of a command (30_encoding.md R46). -/
def distCode (i : Instr) : BitVec 2 :=
  match i with
  | .distUint64 => 0#2
  | .distUniform01 => 1#2
  | .distUniform11 => 2#2
  | .distNormal => 3#2

/-- The encoder: DIST in bits[1:0], RSVZ zero (30_encoding.md R44, R51). -/
def encode (i : Instr) : W64 := 0#62 ++ distCode i

/-- What the decoder reads from an instruction of the table whose bits are `w`, `nbits` of them listed: a command word
is 64 bits (30_encoding.md R43), the bits above `nbits` zero; a longer one is no command word. -/
def decodeTableWord (nbits w : Nat) : Option Instr :=
  if nbits ≤ 64 then
    match decode (BitVec.ofNat 64 (w % 2 ^ nbits)) with
    | .ok i => some i
    | .error _ => none
  else none

end Sys2Proof
end

