-- ==== Sys2Proof/Config.lean ====
section
/-! DEFINITION. The constants of the core (40_mixer.md R57, 00_scope.md R4, 10_state.md R26: parameters of the step
relation, not state) and the free values: opaque constants with no body, of which nothing in Lean can prove a value. The
constants of R57 are marked by the spec as general knowledge (log 20). -/

namespace Sys2Proof

/-- ROUNDS = 20 (40_mixer.md R57). -/
def Config.rounds : Nat := 20

/-- INJECT_PERIOD = 4 (40_mixer.md R57). -/
def Config.injectPeriod : Nat := 4

/-- KS_PARITY (40_mixer.md R57), an even number: 90_conflicts.md C3. -/
def Config.ksParity : W64 := 0x1BD11BDAA9FC1A22#64

/-- The rotation table ROT[0..7] (40_mixer.md R57). -/
def Config.rotTable : List Nat := [16, 42, 12, 31, 16, 32, 24, 21]

/-- ALG_VERSION = 1, what register VERSION reads (00_scope.md R3, 10_state.md R18). -/
def Config.algVersion : W64 := 1#64

/-- The default of OUT_BYTE_ORDER (20_memory.md R31). -/
def Config.defaultByteOrder : ByteOrder := .little

/-- FREE VALUE (log 7). How precise the bounds are from which NORMAL_FN's result for a pair (ka, kb) is taken
(41_distributions.md R86). A function of the pair alone, so clause (a) of R86 holds by its type. -/
opaque Config.normalPrecision : BitVec 53 → BitVec 53 → Nat

/-- FREE VALUE (log 7). Of the two binary64 numbers next to the ideal value Z of a pair, whether NORMAL_FN returns the
larger one in size (41_distributions.md R86 (d)). -/
opaque Config.normalUp : BitVec 53 → BitVec 53 → Bool

/-- FREE VALUE (log 8). What a host read of an element that a running command has not written yet returns: any value
(20_memory.md R39(c), 70_reset_and_hazards.md R136). The argument is the model's draw counter, so no two draws are
known to agree. -/
opaque Config.unspecifiedRead : Nat → W64

/-- FREE VALUE (log 9). The contents, at the first byte's address, of an element of OUT that nobody has written in this
model: the host's buffer holds whatever the host left in it (20_memory.md R33, 30_encoding.md R54). -/
opaque Config.initialElement : Nat → W64

/-- FREE VALUE (log 6). Which BUSY driver steps next when several are and the host schedules nothing (00_scope.md R8,
70_reset_and_hazards.md R142 fix no order). The argument is the model's draw counter. -/
opaque Config.pickDriver : Nat → Nat

end Sys2Proof
end

