-- ==== Sys2Proof/Machine/State.lean ====
section
/-! DEFINITION. The state of the machine as plain data (10_state.md, 20_memory.md, 60_exceptions.md R125): the core
instances with their registers, the output memory, the host's pending actions, and the reasons a step can stop. -/

namespace Sys2Proof.Machine

/-- The hardware raises no exception and has no trap, so a model's fault type for this core is empty (60_exceptions.md
R113, R114; log 17). -/
inductive Fault where
deriving DecidableEq, Repr

/-- The reasons a step is refused. A refused action changes no state (60_exceptions.md R128). The first ten after
`notModelled` are the closed list of 60_exceptions.md R116; the last three are the model's own (log 17). -/
inductive Refusal where
  /-- An instruction of the table without a meaning; raised by an arm of exec only, and no arm does. Safe. -/
  | notModelled (mnemonic : String)
  /-- A host write of register 0 to 5 while STATUS.BUSY = 1 (R116); raised by the register write and by a command that
  finds another one running. Safe. -/
  | writeWhileBusy
  /-- A host write of CMD with bits[63:2] not zero (R116, 30_encoding.md R48); raised by the CMD write. Safe. -/
  | reservedCommand
  /-- A command started while some operand register holds no value (R116, 42_driver.md R93 (3), 10_state.md R23: "A model
  must not substitute zero"; 93_implementation_defined.md U10); raised by the start of a command. Safe. -/
  | operandUnwritten
  /-- A command started with no buffer bound or with SIZE > OUT_CAP (R116, R117). Safe. -/
  | bufferTooSmall
  /-- A command started while another BUSY core is bound to an overlapping window (R116, 20_memory.md R41). Safe. -/
  | overlappingBuffers
  /-- A host read of a register 0 to 5 that holds no value (R116, 42_driver.md R94, 10_state.md R23;
  93_implementation_defined.md U10); raised by the register read. Safe. -/
  | readUnwritten
  /-- A host access to register number 9 to 15 (R116, 10_state.md R19). Safe. -/
  | reservedRegister
  /-- A host write of register 6, 7 or 8 (R116, 10_state.md R19). Safe. -/
  | writeReadOnly
  /-- A host write to OUT, or a rebinding of it, while a core bound to it is BUSY (R116, 42_driver.md R95). Safe. -/
  | bufferTouchedWhileBusy
  /-- A host access to OUT[i] with i >= OUT_CAP, or with no buffer bound (R116). Safe. -/
  | outOfRange
  /-- A turn of a core number that is no core of the system (NUM_INSTANCES, R125); the model's own reason. Safe. -/
  | noSuchCore
  /-- An element store outside OUT, which no run reaches (42_driver.md R97: the store is admitted because
  i < SIZE <= OUT_CAP); the model's own reason. Safe. -/
  | storeNotAdmitted
  /-- A BUSY core with INDEX > SIZE, which no run reaches: neither driver step is enabled (42_driver.md R97, R98); the
  model's own reason. Safe. -/
  | noEnabledStep
deriving DecidableEq, Repr

/-- A host-writable register: its 64 bits, and whether it holds a value at all (10_state.md R23). -/
structure Reg where
  val  : W64
  held : Bool
deriving DecidableEq, Repr

/-- A window (b, cap) of an array of the host: element i of OUT is A[b + i], 0 <= i < cap = OUT_CAP (20_memory.md R41). -/
structure Window where
  array : Nat
  base  : W64
  cap   : W64
deriving DecidableEq, Repr

/-- One core instance (10_state.md R10, R16, R20, R27) and the output buffer bound to it (20_memory.md R28). -/
structure CoreState where
  /-- Register 0, N (10_state.md R11). -/
  size  : Reg
  /-- Register 1 (10_state.md R12). -/
  key0  : Reg
  /-- Register 2 (10_state.md R12). -/
  key1  : Reg
  /-- Register 3 (10_state.md R13). -/
  ctr0  : Reg
  /-- Register 4 (10_state.md R13). -/
  ctr1  : Reg
  /-- Register 5, the last accepted command word (10_state.md R14). -/
  cmd   : Reg
  /-- STATUS bit 0 (10_state.md R16). -/
  busy  : Bool
  /-- STATUS bit 1 (10_state.md R16). -/
  done  : Bool
  /-- Register 7, the sequencing state (10_state.md R15). -/
  index : W64
  /-- The running value of the second counter word (10_state.md R20, R21). -/
  cctr  : W64
  /-- The bound output buffer, if one is bound (20_memory.md R28, 42_driver.md R93 (4)). -/
  out   : Option Window
deriving DecidableEq, Repr

/-- What an agent does in one turn: the host operations of 30_encoding.md R54 and 42_driver.md R92 to R95, or the
driver's turn (00_scope.md R8). -/
inductive Action where
  /-- `WR r, v`. -/
  | wr (r : BitVec 4) (v : W64)
  /-- `RD r`. -/
  | rd (r : BitVec 4)
  /-- `WAIT`: repeat `RD STATUS` until DONE = 1. -/
  | wait
  /-- `RDOUT i`. -/
  | rdOut (i : Nat)
  /-- A host write of element i of OUT (42_driver.md R95). -/
  | wrOut (i : Nat) (v : W64)
  /-- `BIND cap AT A[b]`, and `BIND cap` with an array of its own. -/
  | bind (w : Window)
  /-- `RESET`. -/
  | reset
  /-- The core's driver takes its turn. -/
  | drive
deriving DecidableEq, Repr

/-- An action at a core (30_encoding.md R54: a line is prefixed by the instance). -/
structure Turn where
  core : Nat
  act  : Action
deriving DecidableEq, Repr

/-- The output memory: (byte address, byte) pairs, addresses strictly rising, an address listed exactly when a byte has
been stored there (log 9). -/
abbrev Memory := List Host.Cell

/-- The machine. -/
structure State where
  /-- The core instances, NUM_INSTANCES of them (60_exceptions.md R125; log 11). -/
  cores     : List CoreState
  /-- The host's arrays, of which each OUT is a window (20_memory.md R28, R41). -/
  mem       : Memory
  /-- OUT_BYTE_ORDER, fixed for the machine (20_memory.md R31; log 11). -/
  byteOrder : ByteOrder
  /-- The turns still to be taken, the first one first: the host's pending actions and the schedule of the drivers
  (logs 3, 12, 15). -/
  inbox     : List Turn
  /-- The core whose turn it is (log 15). -/
  sel       : Nat
  /-- What the last host read returned (log 15). -/
  reply     : Option W64
  /-- The draw counter of the free values (log 15). -/
  draws     : Nat
deriving DecidableEq, Repr

/-- A register that holds no value (10_state.md R23, R25); its bits read zero by log 1 and no rule reads them. -/
def Reg.unwritten : Reg := ⟨0#64, false⟩

/-- A register that holds `v`. -/
def Reg.of (v : W64) : Reg := ⟨v, true⟩

/-- A core after reset (10_state.md R25), no buffer bound. CCTR is unspecified there: log 2. -/
def CoreState.reset : CoreState where
  size := Reg.unwritten
  key0 := Reg.unwritten
  key1 := Reg.unwritten
  ctr0 := Reg.unwritten
  ctr1 := Reg.unwritten
  cmd := Reg.unwritten
  busy := false
  done := false
  index := 0#64
  cctr := 0#64
  out := none

/-- A system of `n` cores after reset (60_exceptions.md R125: NUM_INSTANCES is a parameter). -/
def State.resetSystem (n : Nat) : State where
  cores := List.replicate n CoreState.reset
  mem := []
  byteOrder := Config.defaultByteOrder
  inbox := []
  sel := 0
  reply := none
  draws := 0

/-- The machine right after reset, with the default NUM_INSTANCES = 1 (10_state.md R25, 00_scope.md R4; log 16). -/
def State.reset : State := State.resetSystem 1

/-- What the step has to run next: a phase of a command, or an outcome that no command is needed for. -/
inductive Fetched where
  | run (i : Instr) (s : State)
  | done (o : Host.Outcome State Fault Refusal)

end Sys2Proof.Machine
end

