-- ==== Sys2Proof/Machine/Ops.lean ====
section
/-! DEFINITION. The named operations over the output memory, the windows and the state: bytes, whole elements, the
selected core. The core has no exception to take (60_exceptions.md R113, R119, R120), so there is no such operation. -/

namespace Sys2Proof.Machine

/-! ## Bytes of the output memory -/

/-- The byte stored at an address, if one has been stored there. -/
def Memory.read? : Memory → Nat → Option Byte
  | [], _ => none
  | (a, b) :: m, x => if a = x then some b else Memory.read? m x

/-- Store one byte, keeping the addresses strictly rising. -/
def Memory.write : Memory → Nat → Byte → Memory
  | [], a, b => [(a, b)]
  | (x, c) :: m, a, b =>
    if a < x then (a, b) :: (x, c) :: m
    else if a = x then (a, b) :: m
    else (x, c) :: Memory.write m a b

/-- The canonical form: addresses strictly rising. -/
def Memory.wf : Memory → Bool
  | [] => true
  | [_] => true
  | (a, _) :: (b, c) :: m => decide (a < b) && Memory.wf ((b, c) :: m)

/-- Store bytes at consecutive addresses. -/
def Memory.writeBytes : Memory → Nat → List Byte → Memory
  | m, _, [] => m
  | m, a, b :: bs => Memory.writeBytes (Memory.write m a b) (a + 1) bs

/-- The bytes at `n` consecutive addresses, if all have been stored. -/
def Memory.readBytes? (m : Memory) : Nat → Nat → Option (List Byte)
  | _, 0 => some []
  | a, n + 1 =>
    match Memory.read? m a, Memory.readBytes? m (a + 1) n with
    | some b, some bs => some (b :: bs)
    | _, _ => none

/-! ## Elements: 64 bits in the machine's byte order (20_memory.md R31, R33) -/

/-- The eight bytes of a word, bits[7:0] first. -/
def bytesOfWord (v : W64) : List Byte :=
  [v.extractLsb' 0 8, v.extractLsb' 8 8, v.extractLsb' 16 8, v.extractLsb' 24 8,
   v.extractLsb' 32 8, v.extractLsb' 40 8, v.extractLsb' 48 8, v.extractLsb' 56 8]

/-- The word whose bytes are given, bits[7:0] first. -/
def wordOfBytes : List Byte → W64
  | [] => 0#64
  | b :: bs => (wordOfBytes bs <<< 8) ||| b.setWidth 64

/-- The bytes of an element in the order of their addresses (20_memory.md R31). -/
def elementBytes (o : ByteOrder) (v : W64) : List Byte :=
  match o with
  | .little => bytesOfWord v
  | .big => (bytesOfWord v).reverse

/-- The element whose bytes are given in the order of their addresses (20_memory.md R31). -/
def elementOfBytes (o : ByteOrder) (bs : List Byte) : W64 :=
  match o with
  | .little => wordOfBytes bs
  | .big => wordOfBytes bs.reverse

/-- `MemWrite` of the element at a byte address: 64 bits, whole (20_memory.md R28, R33, R34). -/
def Memory.writeElement (m : Memory) (o : ByteOrder) (a : Nat) (v : W64) : Memory :=
  Memory.writeBytes m a (elementBytes o v)

/-- `MemRead` of the element at a byte address, if it has been written. -/
def Memory.readElement? (m : Memory) (o : ByteOrder) (a : Nat) : Option W64 :=
  (Memory.readBytes? m a 8).map (elementOfBytes o)

/-! ## Windows (20_memory.md R28, R32, R41) -/

/-- The byte address of element `i` of a window: array A starts at byte A * 2^68 (log 5), and element e of it takes
bytes 8e to 8e + 7 (20_memory.md R31, R32). -/
def Window.address (w : Window) (i : Nat) : Nat := w.array * 2 ^ 68 + 8 * (w.base.toNat + i)

/-- The byte address of `OUT[i]`, if a buffer is bound and i < OUT_CAP (20_memory.md R28). -/
def outAddress? (out : Option Window) (i : Nat) : Option Nat :=
  match out with
  | none => none
  | some w => if i < w.cap.toNat then some (w.address i) else none

/-- The element number that a window gives the element at a byte address, if that element is one of its own. -/
def Window.indexOf? (w : Window) (a : Nat) : Option Nat :=
  if w.address 0 ≤ a ∧ a < w.address w.cap.toNat then some ((a - w.address 0) / 8) else none

/-- Two windows of one array share an element (20_memory.md R41). -/
def Window.overlaps (v w : Window) : Bool :=
  decide (v.array = w.array) && decide (0 < v.cap.toNat) && decide (0 < w.cap.toNat) &&
    decide (v.base.toNat < w.base.toNat + w.cap.toNat) && decide (w.base.toNat < v.base.toNat + v.cap.toNat)

/-! ## Cores of the system (60_exceptions.md R125) -/

/-- The core whose turn it is. -/
def State.current? (s : State) : Option CoreState := s.cores[s.sel]?

/-- Put a core back at the place of the one whose turn it is. -/
def State.setCurrent (s : State) (c : CoreState) : State := { s with cores := s.cores.set s.sel c }

/-- Replace the output memory. -/
def State.withMem (s : State) (m : Memory) : State := { s with mem := m }

/-- Replace the turns still to be taken. -/
def State.withInbox (s : State) (ts : List Turn) : State := { s with inbox := ts }

/-- Give the turn to core `k`. -/
def State.withSel (s : State) (k : Nat) : State := { s with sel := k }

/-- Answer a host read. -/
def State.withReply (s : State) (v : W64) : State := { s with reply := some v }

/-- Advance the draw counter, after a free value has been taken. -/
def State.drawn (s : State) : State := { s with draws := s.draws + 1 }

/-- Some core other than number `k`, with a property. -/
def anyOtherCore (cores : List CoreState) (k : Nat) (p : CoreState → Bool) : Bool :=
  (List.range cores.length).any fun j =>
    decide (j ≠ k) && (match cores[j]? with
      | some c => p c
      | none => false)

/-- A core is BUSY on a window that overlaps `w` (42_driver.md R93 (5)). -/
def CoreState.busyOver (w : Window) (c : CoreState) : Bool :=
  c.busy && (match c.out with
    | some v => v.overlaps w
    | none => false)

/-- A core is BUSY and the element at byte address `a` is one of its OUT (42_driver.md R95). -/
def CoreState.owns (a : Nat) (c : CoreState) : Bool :=
  c.busy && (match c.out with
    | some w => (w.indexOf? a).isSome
    | none => false)

/-- A core is BUSY and has not written the element at byte address `a` of its OUT yet (20_memory.md R39(c)). -/
def CoreState.awaits (a : Nat) (c : CoreState) : Bool :=
  c.busy && (match c.out with
    | some w =>
      match w.indexOf? a with
      | some j => decide (c.index.toNat ≤ j)
      | none => false
    | none => false)

/-- What a host read of the element at byte address `a` returns, and the state after it: a draw while a command that
has not written it yet runs over it, else its contents (20_memory.md R39, 42_driver.md R95). -/
def State.readOut (s : State) (a : Nat) : State :=
  if s.cores.any (CoreState.awaits a) then (s.withReply (Config.unspecifiedRead s.draws)).drawn
  else s.withReply ((s.mem.readElement? s.byteOrder a).getD (Config.initialElement a))

end Sys2Proof.Machine
end

