-- ==== Sys2Proof/Machine/Mixer.lean ====
section
/-! DEFINITION. The block mixer: KS_INIT, INJECT, ROUND and MIX (40_mixer.md R57 to R62). -/

namespace Sys2Proof.Machine

/-- Rotate left (00_scope.md section 5). -/
def rotl64 (v : W64) (n : Nat) : W64 := v.rotateLeft n

/-- ROT[d mod 8] (40_mixer.md R57, R60). -/
def rotAmount (d : Nat) : Nat := Config.rotTable.getD (d % 8) 0

/-- The key schedule KS0, KS1, KS2 (40_mixer.md R58). -/
structure KeySchedule where
  ks0 : W64
  ks1 : W64
  ks2 : W64
deriving DecidableEq, Repr

/-- The two mixer state words X0, X1, values inside an element step only (10_state.md R20; log 19). -/
structure MixWords where
  x0 : W64
  x1 : W64
deriving DecidableEq, Repr

/-- KS_INIT (40_mixer.md R58). -/
def ksInit (key0 key1 : W64) : KeySchedule := ⟨key0, key1, Config.ksParity ^^^ key0 ^^^ key1⟩

/-- KS indexed modulo 3 (40_mixer.md R59). -/
def KeySchedule.word (k : KeySchedule) (s : Nat) : W64 :=
  match s % 3 with
  | 0 => k.ks0
  | 1 => k.ks1
  | _ => k.ks2

/-- INJECT(s) (40_mixer.md R59). -/
def inject (k : KeySchedule) (s : Nat) (x : MixWords) : MixWords :=
  ⟨x.x0 + k.word s, x.x1 + k.word (s + 1) + BitVec.ofNat 64 s⟩

/-- ROUND(d) (40_mixer.md R60): the xor lands in the rotated word, 90_conflicts.md C2. -/
def round (d : Nat) (x : MixWords) : MixWords :=
  ⟨x.x0 + x.x1, rotl64 x.x1 (rotAmount d) ^^^ (x.x0 + x.x1)⟩

/-- One turn of MIX's loop: ROUND(d), and after every fourth round the injection (d + 1) / 4 (40_mixer.md R61). -/
def mixRound (k : KeySchedule) (x : MixWords) (d : Nat) : MixWords :=
  if d % Config.injectPeriod = Config.injectPeriod - 1 then
    inject k ((d + 1) / Config.injectPeriod) (round d x)
  else round d x

/-- MIX (40_mixer.md R61): out0 is the final X0, out1 the final X1. -/
def mix (key0 key1 counter0 counter1 : W64) : W64 × W64 :=
  let k := ksInit key0 key1
  let x := (List.range Config.rounds).foldl (mixRound k) (inject k 0 ⟨counter0, counter1⟩)
  (x.x0, x.x1)

end Sys2Proof.Machine
end

