-- ==== Sys2Proof/Machine/Flags.lean ====
section
/-! DEFINITION. The flags: BUSY and DONE of STATUS, how a host reads them, and the transitions of 10_state.md R17. There
are no condition codes (10_state.md R16). -/

namespace Sys2Proof.Machine

/-- STATUS as the host reads it: BUSY in bit 0, DONE in bit 1, bits[63:2] zero (10_state.md R16, 42_driver.md R94). -/
def statusWord (busy done : Bool) : W64 := 0#62 ++ (BitVec.ofBool done ++ BitVec.ofBool busy)

/-- An accepted CMD write: (BUSY, DONE) becomes (1, 0) (10_state.md R17, 42_driver.md R93). -/
def CoreState.flagStart (c : CoreState) : CoreState := { c with busy := true, done := false }

/-- The completion step: (BUSY, DONE) becomes (0, 1) (10_state.md R17, 42_driver.md R98). -/
def CoreState.flagComplete (c : CoreState) : CoreState := { c with busy := false, done := true }

/-- (BUSY, DONE) takes only the values (0,0), (1,0) and (0,1) (10_state.md R17). -/
def CoreState.flagsLegal (c : CoreState) : Bool := !(c.busy && c.done)

end Sys2Proof.Machine
end

