-- ==== Sys2Proof/Machine/Operands.lean ====
section
/-! DEFINITION. The operands: the implicit ones of a command (30_encoding.md R45) and the register numbers of a host
transaction (30_encoding.md R47, 10_state.md R10). -/

namespace Sys2Proof.Machine

/-- Each of SIZE, KEY0, KEY1, CTR0, CTR1 holds a value (42_driver.md R93 (3)). -/
def CoreState.operandsHeld (c : CoreState) : Bool :=
  c.size.held && c.key0.held && c.key1.held && c.ctr0.held && c.ctr1.held

/-- A host read of a register that may hold no value (10_state.md R23). -/
def Reg.read (r : Reg) : Except Refusal W64 := if r.held then .ok r.val else .error .readUnwritten

/-- `RD r` (42_driver.md R94): the value of register number `r`, or the refusal. VERSION is a constant (10_state.md
R18). -/
def CoreState.readRegister (c : CoreState) (r : BitVec 4) : Except Refusal W64 :=
  if r = 0#4 then c.size.read
  else if r = 1#4 then c.key0.read
  else if r = 2#4 then c.key1.read
  else if r = 3#4 then c.ctr0.read
  else if r = 4#4 then c.ctr1.read
  else if r = 5#4 then c.cmd.read
  else if r = 6#4 then .ok (statusWord c.busy c.done)
  else if r = 7#4 then .ok c.index
  else if r = 8#4 then .ok Config.algVersion
  else .error .reservedRegister

/-- The operand register of number `r` set to `v`, with no check (42_driver.md R92); other numbers change nothing. -/
def CoreState.setOperand (c : CoreState) (r : BitVec 4) (v : W64) : CoreState :=
  if r = 0#4 then { c with size := Reg.of v }
  else if r = 1#4 then { c with key0 := Reg.of v }
  else if r = 2#4 then { c with key1 := Reg.of v }
  else if r = 3#4 then { c with ctr0 := Reg.of v }
  else if r = 4#4 then { c with ctr1 := Reg.of v }
  else c

/-- `WR r, v` for every register number but CMD's (42_driver.md R92), the refusals in the order of 60_exceptions.md
R118: ReservedRegister, WriteReadOnly, WriteWhileBusy. -/
def CoreState.writeRegister (c : CoreState) (r : BitVec 4) (v : W64) : Except Refusal CoreState :=
  if 8#4 < r then .error .reservedRegister
  else if 5#4 < r then .error .writeReadOnly
  else if c.busy then .error .writeWhileBusy
  else .ok (c.setOperand r v)

/-- The byte address the element step stores to: the one addressing mode, element INDEX of OUT (42_driver.md R111). -/
def CoreState.storeAddress? (c : CoreState) : Option Nat := outAddress? c.out c.index.toNat

end Sys2Proof.Machine
end

