-- ==== Sys2Proof/Machine/Driver.lean ====
section
/-! DEFINITION. The driver: starting a command (42_driver.md R93), the element step (R97), the completion step (R98), and
the one operation every command's meaning is an application of. -/

namespace Sys2Proof.Machine

/-- A transform of a block's two words (41_distributions.md R70). -/
abbrev Transform := W64 → W64 → W64

/-- CTR_INC: modulo 2^64, no carry into counter0 (42_driver.md R96). -/
def ctrInc (c : W64) : W64 := c + 1#64

/-- The block at the core's running counter (42_driver.md R97, 40_mixer.md R68). -/
def CoreState.block (c : CoreState) : W64 × W64 := mix c.key0.val c.key1.val c.ctr0.val c.cctr

/-- The core after an accepted CMD write of the word `w` (42_driver.md R93). -/
def CoreState.started (c : CoreState) (w : W64) : CoreState :=
  { c with cmd := Reg.of w, index := 0#64, cctr := c.ctr1.val }.flagStart

/-- The core after an element step (42_driver.md R97). -/
def CoreState.advanced (c : CoreState) : CoreState := { c with index := c.index + 1#64, cctr := ctrInc c.cctr }

/-- The core after the completion step (42_driver.md R98). -/
def CoreState.completed (c : CoreState) : CoreState := c.flagComplete

/-- Start a command whose word `w` has been decoded, at a core that is not BUSY: preconditions (3), (4) and (5) of
42_driver.md R93 in that order, then the effect. -/
def startCommand (w : W64) (c : CoreState) (s : State) : Host.Outcome State Fault Refusal :=
  if c.operandsHeld = false then .refused .operandUnwritten
  else
    match c.out with
    | none => .refused .bufferTooSmall
    | some win =>
      if win.cap.toNat < c.size.val.toNat then .refused .bufferTooSmall
      else if anyOtherCore s.cores s.sel (CoreState.busyOver win) then .refused .overlappingBuffers
      else .next (s.setCurrent (c.started w))

/-- ELEMENT, the element step, one atomic transition (42_driver.md R97). -/
def elementStep (xf : Transform) (c : CoreState) (s : State) : Host.Outcome State Fault Refusal :=
  match c.storeAddress? with
  | none => .refused .storeNotAdmitted
  | some a =>
    .next ((s.withMem (s.mem.writeElement s.byteOrder a (xf c.block.1 c.block.2))).setCurrent c.advanced)

/-- COMPLETE, the completion step (42_driver.md R98). -/
def completeStep (c : CoreState) (s : State) : Host.Outcome State Fault Refusal := .next (s.setCurrent c.completed)

/-- The one step the driver of a BUSY core has enabled (42_driver.md R97, R98, R110). -/
def driverStep (xf : Transform) (c : CoreState) (s : State) : Host.Outcome State Fault Refusal :=
  if c.index.toNat < c.size.val.toNat then elementStep xf c s
  else if c.index = c.size.val then completeStep c s
  else .refused .noEnabledStep

/-- The next phase of command `i` with transform `xf` at the core whose turn it is: its start when the core is not BUSY,
its next driver step when the core is running it; another command cannot start meanwhile (60_exceptions.md R116; log
10). -/
def runCommand (i : Instr) (xf : Transform) (s : State) : Host.Outcome State Fault Refusal :=
  match s.current? with
  | none => .refused .noSuchCore
  | some c =>
    if c.busy = false then startCommand (encode i) c s
    else if c.cmd.val = encode i then driverStep xf c s
    else .refused .writeWhileBusy

end Sys2Proof.Machine
end

