-- ==== Sys2Proof/Machine/Transforms.lean ====
section
/-! DEFINITION. The one-word transforms and the two integer-to-double converters (41_distributions.md R69 to R80), and the
real number a binary64 pattern denotes (R72). -/

namespace Sys2Proof.Machine

/-- TOP53: the top 53 bits of a word (41_distributions.md R73). -/
def top53 (x : W64) : BitVec 53 := x.extractLsb' 11 53

/-- A binary64 pattern from its sign, biased exponent and fraction (41_distributions.md R72). -/
def binary64 (sgn : Bool) (e f : Nat) : W64 :=
  BitVec.ofBool sgn ++ (BitVec.ofNat 11 e ++ BitVec.ofNat 52 f)

/-- The fraction of m > 0: the bits below its leading one, left-justified in 52 bits (41_distributions.md R76, R79). -/
def fractionOf (m : Nat) : Nat := (m * 2 ^ (52 - Nat.log2 m)) % 2 ^ 52

/-- U53_TO_F64 (41_distributions.md R76): the pattern of k x 2^-53. -/
def u53ToF64 (k : BitVec 53) : W64 :=
  if k = 0#53 then 0#64 else binary64 false (Nat.log2 k.toNat + 970) (fractionOf k.toNat)

/-- S53_TO_F64 (41_distributions.md R79): the pattern of t x 2^-52, t the 53-bit argument read as signed. -/
def s53ToF64 (t : BitVec 53) : W64 :=
  if t = 0#53 then 0#64
  else binary64 (decide (t.toInt < 0)) (Nat.log2 t.toInt.natAbs + 971) (fractionOf t.toInt.natAbs)

/-- AS_UINT64: the identity (41_distributions.md R74). -/
def asUint64 (out0 : W64) : W64 := out0

/-- AS_UNIFORM_01 (41_distributions.md R75). -/
def asUniform01 (out0 : W64) : W64 := u53ToF64 (top53 out0)

/-- AS_UNIFORM_11 (41_distributions.md R78): the 53 bits read as signed, 90_conflicts.md C1. -/
def asUniform11 (out0 : W64) : W64 := s53ToF64 (top53 out0)

/-- The sign, biased exponent and fraction fields of a binary64 pattern (41_distributions.md R72). -/
def f64Sign (b : W64) : Bool := b.getLsbD 63

def f64Exponent (b : W64) : Nat := (b.extractLsb' 52 11).toNat

def f64Fraction (b : W64) : Nat := (b.extractLsb' 0 52).toNat

/-- `f64(b)` for a normal number or a zero (41_distributions.md R72); the core produces no other pattern (R88). -/
def f64 (b : W64) : ℚ :=
  if f64Exponent b = 0 then 0
  else (if f64Sign b then -1 else 1) * 2 ^ ((f64Exponent b : ℤ) - 1023) * (1 + (f64Fraction b : ℚ) / 2 ^ 52)

end Sys2Proof.Machine
end

