-- ==== Sys2Proof/Machine/Normal.lean ====
section
/-! DEFINITION. AS_GAUSSIAN and NORMAL_FN (41_distributions.md R81 to R87). NORMAL_FN is the spec's OPEN configuration
function under the contract of R86: the model computes exact rational bounds of the ideal value
Z = sqrt(-2 ln ua) cos(2 pi ub) (R82, R83), at a precision that is free, and answers a binary64 number that these bounds
show to be a faithful rounding; where they leave two, the direction is free too (log 7). -/

namespace Sys2Proof.Machine

/-- A non-negative fraction, not reduced. -/
structure Frac where
  num : Nat
  den : Nat
deriving DecidableEq, Repr

/-- `a` times a fraction over `b` times it. -/
def Frac.scale (a b : Nat) (q : Frac) : Frac := ⟨a * q.num, b * q.den⟩

/-- The sum of two fractions. -/
def Frac.add (q r : Frac) : Frac := ⟨q.num * r.den + r.num * q.den, q.den * r.den⟩

/-- The product of two fractions. -/
def Frac.mul (q r : Frac) : Frac := ⟨q.num * r.num, q.den * r.den⟩

/-- `n` terms of 1/(2k+1) + w^2/(2k+3) + w^4/(2k+5) + ..., w = a/b. -/
def atanhTail (a b : Nat) : Nat → Nat → Frac
  | 0, _ => ⟨0, 1⟩
  | n + 1, k =>
    let r := atanhTail a b n (k + 1)
    ⟨b ^ 2 * r.den + (2 * k + 1) * (a ^ 2 * r.num), (2 * k + 1) * (b ^ 2 * r.den)⟩

/-- A lower bound of atanh(a/b), 0 <= a/b <= 1/3: 30 + n terms of its series. -/
def atanhLow (n a b : Nat) : Frac := (atanhTail a b (30 + n) 0).scale a b

/-- `n` steps of 1 - x^2/((2k+2)(2k+3)) (1 - x^2/((2k+4)(2k+5)) (...)), x = a/b. -/
def sinTail (a b : Nat) : Nat → Nat → Frac
  | 0, _ => ⟨1, 1⟩
  | n + 1, k =>
    let r := sinTail a b n (k + 1)
    let d := b ^ 2 * ((2 * k + 2) * (2 * k + 3)) * r.den
    ⟨d - a ^ 2 * r.num, d⟩

/-- A lower bound of sin(a/b), 0 <= a/b <= pi/2: 14 + 2n terms of its series. -/
def sinLow (n a b : Nat) : Frac := (sinTail a b (13 + 2 * n) 0).scale a b

/-- `n` steps of 1/(2k+1) - w^2 (1/(2k+3) - w^2 (1/(2k+5) - ...)), w = 1/b. -/
def atanTail (b : Nat) : Nat → Nat → Frac
  | 0, k => ⟨1, 2 * k + 1⟩
  | n + 1, k =>
    let r := atanTail b n (k + 1)
    ⟨b ^ 2 * r.den - (2 * k + 1) * r.num, (2 * k + 1) * (b ^ 2 * r.den)⟩

/-- A lower bound of atan(1/b), b >= 3: 24 + 2n terms of its series. -/
def atanLow (n b : Nat) : Frac := (atanTail b (23 + 2 * n) 0).scale 1 b

/-- A lower bound of pi = 8 atan(1/3) + 4 atan(1/7). -/
def piLow (n : Nat) : Frac := ((atanLow n 3).scale 8 1).add ((atanLow n 7).scale 4 1)

/-- How often n = ka + 1 is doubled to bring it into (2^52, 2^53]. -/
def lnShift (ka : Nat) : Nat := if ka = 0 then 53 else 52 - Nat.log2 ka

/-- A lower bound of -ln(ua) / 2, ua = (ka + 1) x 2^-53 (41_distributions.md R82): with m = (ka + 1) 2^j in
(2^52, 2^53], it is j atanh(1/3) + atanh((2^53 - m)/(2^53 + m)). -/
def halfNegLnLow (n ka : Nat) : Frac :=
  let m := (ka + 1) * 2 ^ lnShift ka
  ((atanhLow n 1 3).scale (lnShift ka) 1).add (atanhLow n (2 ^ 53 - m) (2 ^ 53 + m))

/-- The distance, in steps of 2^-53, of ub = kb x 2^-53 from the nearer of 1/4 and 3/4, where the cosine is zero. -/
def quarterDistance (kb : Nat) : Nat :=
  if kb ≤ 2 ^ 52 then (if kb ≤ 2 ^ 51 then 2 ^ 51 - kb else kb - 2 ^ 51)
  else (if kb ≤ 3 * 2 ^ 51 then 3 * 2 ^ 51 - kb else kb - 3 * 2 ^ 51)

/-- A lower bound of |cos(2 pi ub)| = sin(pi d / 2^52), d the distance above, from a lower bound of pi. -/
def absCosLow (n kb : Nat) : Frac := sinLow n ((piLow n).num * quarterDistance kb) ((piLow n).den * 2 ^ 52)

/-- A lower bound of Z^2 = 4 (-ln ua / 2) cos(2 pi ub)^2. -/
def idealSquareLow (n ka kb : Nat) : Frac :=
  ((halfNegLnLow n ka).mul ((absCosLow n kb).mul (absCosLow n kb))).scale 4 1

/-- The upper bound that belongs to a lower bound of Z^2: 1 + 2^-(64 + 2n) times as much. -/
def Frac.widen (n : Nat) (q : Frac) : Frac := q.scale (2 ^ (64 + 2 * n) + 1) (2 ^ (64 + 2 * n))

/-- The integer square root of n < 4^b, from its highest bit down. -/
def isqrtFrom (n : Nat) : Nat → Nat → Nat
  | 0, r => r
  | b + 1, r => if (r + 2 ^ b) ^ 2 ≤ n then isqrtFrom n b (r + 2 ^ b) else isqrtFrom n b r

/-- The pattern of the largest binary64 number not above sqrt q, for 2^-154 <= q < 2^8: the root to 140 binary places,
its leading 53 bits. -/
def sqrtPattern (q : Frac) : Nat :=
  let r := isqrtFrom (q.num * 4 ^ 140 / q.den) 150 0
  (Nat.log2 r + 883) * 2 ^ 52 + (r / 2 ^ (Nat.log2 r - 52) - 2 ^ 52)

/-- Z(ka, kb) = 0 exactly here (41_distributions.md R84): ua = 1, or ub = 1/4 or 3/4. -/
def idealIsZero (ka kb : BitVec 53) : Bool :=
  decide (ka.toNat = 2 ^ 53 - 1) || decide (kb.toNat = 2 ^ 51) || decide (kb.toNat = 3 * 2 ^ 51)

/-- Z(ka, kb) < 0 where it is not zero: cos(2 pi ub) < 0, 1/4 < ub < 3/4 (41_distributions.md R83). -/
def idealIsNegative (kb : BitVec 53) : Bool := decide (2 ^ 51 < kb.toNat) && decide (kb.toNat < 3 * 2 ^ 51)

/-- The largest binary64 magnitude known at precision `n` to be below |Z(ka, kb)|, as a pattern. -/
def normalLow (n : Nat) (ka kb : BitVec 53) : Nat := sqrtPattern (idealSquareLow n ka.toNat kb.toNat)

/-- The smallest binary64 magnitude known at precision `n` to be above |Z(ka, kb)|, as a pattern: the one after the lower
one, or the one after that where the bounds of |Z| have a binary64 number between them. -/
def normalHigh (n : Nat) (ka kb : BitVec 53) : Nat := sqrtPattern ((idealSquareLow n ka.toNat kb.toNat).widen n) + 1

/-- The magnitude of a faithful rounding of Z(ka, kb) where Z is not zero (41_distributions.md R86 (d)): of two neighbours
that enclose |Z| the upper one or the lower one, as `up` says; of three the one in the middle, which is |Z| itself or next
to it. -/
def normalMagnitude (n : Nat) (up : Bool) (ka kb : BitVec 53) : Nat :=
  if up = false ∧ normalHigh n ka kb = normalLow n ka kb + 1 then normalLow n ka kb else normalLow n ka kb + 1

/-- A result that 41_distributions.md R86 (b), (c), (d) allow for a pair, by a precision and a direction: +0.0 where
Z = 0, else the sign of Z and the magnitude of a faithful rounding. -/
def normalCandidate (n : Nat) (up : Bool) (ka kb : BitVec 53) : W64 :=
  if idealIsZero ka kb then 0#64
  else BitVec.ofBool (idealIsNegative kb) ++ BitVec.ofNat 63 (normalMagnitude n up ka kb)

/-- NORMAL_FN (41_distributions.md R86): the candidate that the free values say. -/
def normalFn (ka kb : BitVec 53) : W64 :=
  normalCandidate (Config.normalPrecision ka kb) (Config.normalUp ka kb) ka kb

/-- AS_GAUSSIAN (41_distributions.md R81, R82, R86): both words of one block. -/
def asGaussian (out0 out1 : W64) : W64 := normalFn (top53 out0) (top53 out1)

end Sys2Proof.Machine
end

