-- ==== Sys2Proof/Machine/Commands.lean ====
section
/-! DEFINITION. The meanings of the four commands (42_driver.md R101 to R104): the phases of R93, R97 and R98 with the
command's own word and transform (41_distributions.md R70). -/

namespace Sys2Proof.Machine

/-- XFORM: the transform of each command (41_distributions.md R70, R71). -/
def transformOf (i : Instr) : Transform :=
  match i with
  | .distUint64 => fun o0 _ => asUint64 o0
  | .distUniform01 => fun o0 _ => asUniform01 o0
  | .distUniform11 => fun o0 _ => asUniform11 o0
  | .distNormal => fun o0 o1 => asGaussian o0 o1

/-- DIST_UINT64 (42_driver.md R101): elements AS_UINT64(out0). -/
def execDistUint64 (s : State) : Host.Outcome State Fault Refusal :=
  runCommand .distUint64 (transformOf .distUint64) s

/-- DIST_UNIFORM_01 (42_driver.md R102): elements AS_UNIFORM_01(out0). -/
def execDistUniform01 (s : State) : Host.Outcome State Fault Refusal :=
  runCommand .distUniform01 (transformOf .distUniform01) s

/-- DIST_UNIFORM_11 (42_driver.md R103): elements AS_UNIFORM_11(out0). -/
def execDistUniform11 (s : State) : Host.Outcome State Fault Refusal :=
  runCommand .distUniform11 (transformOf .distUniform11) s

/-- DIST_NORMAL (42_driver.md R104): elements AS_GAUSSIAN(out0, out1). -/
def execDistNormal (s : State) : Host.Outcome State Fault Refusal :=
  runCommand .distNormal (transformOf .distNormal) s

end Sys2Proof.Machine
end

