-- ==== Sys2Proof/Machine/Dispatch.lean ====
section
/-! DEFINITION. exec: one arm per command of the opcode table (30_encoding.md R46). -/

namespace Sys2Proof.Machine

def exec (i : Instr) (s : State) : Host.Outcome State Fault Refusal :=
  match i with
  | .distUint64 => Sys2Proof.Machine.execDistUint64 s
  | .distUniform01 => Sys2Proof.Machine.execDistUniform01 s
  | .distUniform11 => Sys2Proof.Machine.execDistUniform11 s
  | .distNormal => Sys2Proof.Machine.execDistNormal s

end Sys2Proof.Machine
end

