-- ==== Sys2Proof/Machine/HostActions.lean ====
section
/-! DEFINITION. The host's actions (42_driver.md R92 to R95, 70_reset_and_hazards.md R129) and whose turn comes next
(00_scope.md R8): what the step has to run is fetched here. -/

namespace Sys2Proof.Machine

/-- A host access that only writes registers or answers: the refusal, or the next state. -/
def outcomeOf (r : Except Refusal State) : Host.Outcome State Fault Refusal :=
  match r with
  | .ok s => .next s
  | .error e => .refused e

/-- A BUSY core's driver takes its turn: the command it runs is the one in CMD (42_driver.md R97). A core that is not
BUSY has no enabled step (70_reset_and_hazards.md R129, 60_exceptions.md R127). -/
def driverTurn (c : CoreState) (s : State) : Fetched :=
  if c.busy = false then .done (.next s)
  else
    match decode c.cmd.val with
    | .ok i => .run i s
    | .error _ => .done (.refused .reservedCommand)

/-- `WR CMD, w` (42_driver.md R93): preconditions (1) and (2); the command's start checks the others. -/
def commandWrite (c : CoreState) (w : W64) (s : State) : Fetched :=
  if c.busy then .done (.refused .writeWhileBusy)
  else
    match decode w with
    | .ok i => .run i s
    | .error _ => .done (.refused .reservedCommand)

/-- A host write to OUT[i] (42_driver.md R95, 60_exceptions.md R116; the order of the refusals: log 13). -/
def writeOut (c : CoreState) (i : Nat) (v : W64) (s : State) : Except Refusal State :=
  if c.busy then .error .bufferTouchedWhileBusy
  else
    match outAddress? c.out i with
    | none => .error .outOfRange
    | some a =>
      if s.cores.any (CoreState.owns a) then .error .bufferTouchedWhileBusy
      else .ok (s.withMem (s.mem.writeElement s.byteOrder a v))

/-- `RDOUT i` (42_driver.md R95). -/
def readOutAt (c : CoreState) (i : Nat) (s : State) : Except Refusal State :=
  match outAddress? c.out i with
  | none => .error .outOfRange
  | some a => .ok (s.readOut a)

/-- Binding an output buffer (20_memory.md R28, 60_exceptions.md R116; logs 13, 14). -/
def bindOut (c : CoreState) (w : Window) (s : State) : Except Refusal State :=
  if c.busy then .error .bufferTouchedWhileBusy else .ok (s.setCurrent { c with out := some w })

/-- A core after its RESET: the reset values, and its binding (70_reset_and_hazards.md R129; log 4). -/
def CoreState.afterReset (c : CoreState) : CoreState := { CoreState.reset with out := c.out }

/-- RESET (70_reset_and_hazards.md R129, R130): OUT and its binding are not touched (log 4). -/
def resetCore (c : CoreState) (s : State) : State := s.setCurrent c.afterReset

/-- `RD r` (42_driver.md R94). -/
def readRegisterAt (c : CoreState) (r : BitVec 4) (s : State) : Except Refusal State :=
  match c.readRegister r with
  | .ok v => .ok (s.withReply v)
  | .error e => .error e

/-- `WR r, v` for a register other than CMD (42_driver.md R92). -/
def writeRegisterAt (c : CoreState) (r : BitVec 4) (v : W64) (s : State) : Except Refusal State :=
  match c.writeRegister r v with
  | .ok c' => .ok (s.setCurrent c')
  | .error e => .error e

/-- The numbers of the BUSY cores. -/
def busyCores (cores : List CoreState) : List Nat :=
  (List.range cores.length).filter fun j =>
    match cores[j]? with
    | some c => c.busy
    | none => false

/-- The core whose driver steps when the host leaves it the next turn, and the state after the choice: which of several
BUSY cores it is is free (log 6); with none BUSY no driver has a step. -/
def nextDriver? (s : State) : Option (Nat × State) :=
  match busyCores s.cores with
  | [] => none
  | [k] => some (k, s)
  | k :: ks => some ((k :: ks).getD (Config.pickDriver s.draws % (ks.length + 1)) k, s.drawn)

/-- One poll of `WAIT` (30_encoding.md R54): STATUS is read; with DONE = 0 the host leaves a BUSY core's driver, of
whichever core, one turn and polls again (70_reset_and_hazards.md R142; log 12). -/
def waitPoll (c : CoreState) (s : State) : State :=
  let t := s.withReply (statusWord c.busy c.done)
  if c.done then t
  else
    match nextDriver? t with
    | none => t.withInbox (⟨s.sel, .wait⟩ :: t.inbox)
    | some (k, t') => t'.withInbox (⟨k, .drive⟩ :: ⟨s.sel, .wait⟩ :: t'.inbox)

/-- What an action at the core whose turn it is has to run. -/
def fetchAction (act : Action) (c : CoreState) (s : State) : Fetched :=
  match act with
  | .wr r v => if r = 5#4 then commandWrite c v s else .done (outcomeOf (writeRegisterAt c r v s))
  | .rd r => .done (outcomeOf (readRegisterAt c r s))
  | .wait => .done (.next (waitPoll c s))
  | .rdOut i => .done (outcomeOf (readOutAt c i s))
  | .wrOut i v => .done (outcomeOf (writeOut c i v s))
  | .bind w => .done (outcomeOf (bindOut c w s))
  | .reset => .done (.next (resetCore c s))
  | .drive => driverTurn c s

/-- Give the turn to a core and fetch what its action has to run. -/
def fetchTurn (t : Turn) (s : State) : Fetched :=
  match (s.withSel t.core).current? with
  | none => .done (.refused .noSuchCore)
  | some c => fetchAction t.act c (s.withSel t.core)

/-- The turn a step takes, and the state it leaves it in: the first of the host's turns; with none left, a BUSY core's
driver; with none BUSY no turn, the machine waits for the host (log 12). -/
def nextTurn? (s : State) : Option (Turn × State) :=
  match s.inbox with
  | t :: ts => some (t, s.withInbox ts)
  | [] => (nextDriver? s).map fun d => (⟨d.1, .drive⟩, d.2)

/-- The turn a step takes. -/
def State.turn? (s : State) : Option Turn := (nextTurn? s).map Prod.fst

/-- What the step has to run. -/
def fetch (s : State) : Fetched :=
  match nextTurn? s with
  | none => .done (.next s)
  | some (t, s') => fetchTurn t s'

/-- The command line `M n, k0, k1, c0, c1` as a macro over host actions at core `k` (30_encoding.md R55 (a)). -/
def commandTurns (k : Nat) (l : CommandLine) : List Turn :=
  [⟨k, .wr 0#4 (BitVec.ofNat 64 l.size)⟩, ⟨k, .wr 1#4 (BitVec.ofNat 64 l.key0)⟩,
   ⟨k, .wr 2#4 (BitVec.ofNat 64 l.key1)⟩, ⟨k, .wr 3#4 (BitVec.ofNat 64 l.counter0)⟩,
   ⟨k, .wr 4#4 (BitVec.ofNat 64 l.counter1)⟩, ⟨k, .wr 5#4 (encode l.command)⟩, ⟨k, .wait⟩]

/-! ## Making a command the next thing to run (log 3) -/

/-- An array number that no core's window uses. -/
def freshArray (cores : List CoreState) : Nat :=
  (cores.map fun c =>
    match c.out with
    | some w => w.array + 1
    | none => 0).foldl Nat.max 0

/-- The window a command of the core can start on: the bound one if it will do, else one of SIZE elements of an array of
its own. -/
def bootWindow (s : State) (c : CoreState) : Window :=
  let fresh : Window := ⟨freshArray s.cores, 0#64, c.size.val⟩
  match c.out with
  | none => fresh
  | some w =>
    if w.cap.toNat < c.size.val.toNat || anyOtherCore s.cores s.sel (CoreState.busyOver w) then fresh else w

/-- The core made ready for a command (70_reset_and_hazards.md R132): not BUSY, its operand registers holding the values
they have, a buffer bound. -/
def bootCore (s : State) (c : CoreState) : CoreState :=
  { c with
    size := Reg.of c.size.val
    key0 := Reg.of c.key0.val
    key1 := Reg.of c.key1.val
    ctr0 := Reg.of c.ctr0.val
    ctr1 := Reg.of c.ctr1.val
    busy := false
    out := some (bootWindow s c) }

/-- The host's write of a command word placed first among the turns, at the core whose turn it is, made ready. -/
def placeCommand (w : W64) (s : State) : State :=
  match s.current? with
  | none => s
  | some c => (s.setCurrent (bootCore s c)).withInbox (⟨s.sel, .wr 5#4 w⟩ :: s.inbox)

end Sys2Proof.Machine
end

