-- ==== Sys2Proof/Machine/Step.lean ====
section
/-! DEFINITION. One step: fetch whose turn it is and what it runs; a phase of a command runs through exec. -/

namespace Sys2Proof.Machine

/-- One step of the machine (00_scope.md R8): a host action, a start of a command, an element step or a completion step. -/
def step (s : State) : Host.Outcome State Fault Refusal :=
  match fetch s with
  | .run i t => exec i t
  | .done o => o

/-- `s` with the command word `w` (its `nbits` listed bits, the others zero) placed where the next step fetches it: the
host's pending write of CMD, at the core whose turn it is, made ready as 70_reset_and_hazards.md R132 says (log 3). -/
def State.withFetchWord (s : State) (nbits w : Nat) : State :=
  placeCommand (BitVec.ofNat 64 (w % 2 ^ nbits)) s

end Sys2Proof.Machine
end

