-- ==== Sys2Proof/Safety.lean ====
section
/-! DEFINITION. The terms claims are stated in: the invariant of the machine, runs and their fairness, and the ideal value
and the contract of the normal transform over the real numbers (41_distributions.md R83, R86). Nothing here is part of a
step. -/

namespace Sys2Proof.Machine

/-- What holds of a core in every state a run reaches: the flags are legal (10_state.md R17); a held CMD is well formed
(10_state.md R14); a core that is BUSY or DONE holds a CMD; a BUSY core holds its operands, has INDEX <= SIZE <= OUT_CAP of
a bound buffer (10_state.md R15, 42_driver.md R93) and CCTR = CTR1 + INDEX (10_state.md R21). -/
def CoreState.Ok (c : CoreState) : Prop :=
  c.flagsLegal = true ∧
  (c.cmd.held = true → CommandWord.wellFormed c.cmd.val = true) ∧
  (c.busy = true ∨ c.done = true → c.cmd.held = true) ∧
  (c.busy = true →
    c.operandsHeld = true ∧ c.index.toNat ≤ c.size.val.toNat ∧ c.cctr = c.ctr1.val + c.index ∧
      ∃ w, c.out = some w ∧ c.size.val.toNat ≤ w.cap.toNat)

/-- No two BUSY cores are bound to overlapping windows (20_memory.md R41). -/
def State.BusyWindowsDisjoint (s : State) : Prop :=
  ∀ (j k : Nat) (cj ck : CoreState) (v w : Window), j ≠ k → s.cores[j]? = some cj → s.cores[k]? = some ck → cj.busy = true → ck.busy = true →
    cj.out = some v → ck.out = some w → v.overlaps w = false

/-- The invariant of the machine: the memory is canonical, every core is as it should be, BUSY windows are disjoint. -/
def State.Inv (s : State) : Prop :=
  Memory.wf s.mem = true ∧ (∀ (k : Nat) (c : CoreState), s.cores[k]? = some c → c.Ok) ∧ s.BusyWindowsDisjoint

/-- Core `k` is BUSY and no other core is: a state in which the driver of `k` is the one agent with a step. -/
def State.OnlyBusy (s : State) (k : Nat) : Prop :=
  ∀ (j : Nat) (c : CoreState), s.cores[j]? = some c → (c.busy = true ↔ j = k)

/-- The host is about to write the word of command `i` to CMD of core `k` and has nothing else queued, no core is BUSY, and
the core is ready for it: its operands hold values and it is bound to a window `w` of at least SIZE elements
(70_reset_and_hazards.md R132). -/
def State.ReadyFor (s : State) (k : Nat) (i : Instr) (c : CoreState) (w : Window) : Prop :=
  s.inbox = [⟨k, .wr 5#4 (encode i)⟩] ∧ s.cores[k]? = some c ∧
    (∀ (j : Nat) (cj : CoreState), s.cores[j]? = some cj → cj.busy = false) ∧
    c.operandsHeld = true ∧ c.out = some w ∧ c.size.val.toNat ≤ w.cap.toNat

/-! ## Runs and fairness (70_reset_and_hazards.md R142) -/

/-- A run that goes on for ever: each state is the step of the one before. -/
def IsRun (run : Nat → State) : Prop := ∀ n, step (run n) = .next (run (n + 1))

/-- Core `k` of the state is BUSY. -/
def State.IsBusy (s : State) (k : Nat) : Prop := ∃ c : CoreState, s.cores[k]? = some c ∧ c.busy = true

/-- Weak fairness of the driver of core `k` (70_reset_and_hazards.md R142, 92_eei_decisions.md D21): whenever the core is
BUSY, which is when its driver has a step, the driver's turn comes, unless the core ceases to be BUSY first. -/
def WeaklyFair (run : Nat → State) (k : Nat) : Prop :=
  ∀ n, (run n).IsBusy k → ∃ m, n ≤ m ∧ ((run m).turn? = some ⟨k, .drive⟩ ∨ ¬(run m).IsBusy k)

/-- How many of the first `n` steps of a run are turns of the driver of core `k`. -/
def driverTurns (run : Nat → State) (k n : Nat) : Nat :=
  (List.range n).countP fun m => decide ((run m).turn? = some ⟨k, .drive⟩)

/-- Every byte outside the `n` bytes from address `a` reads in `m'` as it did in `m`. -/
def Memory.SameOutside (m m' : Memory) (a n : Nat) : Prop :=
  ∀ x, x < a ∨ a + n ≤ x → Memory.read? m' x = Memory.read? m x

/-! ## The normal transform over the real numbers -/

/-- Z(ka, kb) = sqrt(-2 ln ua) cos(2 pi ub) (41_distributions.md R82, R83). -/
noncomputable def idealZ (ka kb : BitVec 53) : ℝ :=
  Real.sqrt (-2 * Real.log (((ka.toNat : ℝ) + 1) / 2 ^ 53)) * Real.cos (2 * Real.pi * ((kb.toNat : ℝ) / 2 ^ 53))

/-- A pattern of a normal number or of +0.0 (41_distributions.md R72). -/
def IsNormalOrZero (b : W64) : Prop := b = 0#64 ∨ (1 ≤ f64Exponent b ∧ f64Exponent b ≤ 2046)

/-- `b` is a faithful rounding of `z`: a number that binary64 has, equal to `z`, or with no number of binary64 strictly
between it and `z` where `z` is none itself (41_distributions.md R86 (d)). -/
def IsFaithful (b : W64) (z : ℝ) : Prop :=
  IsNormalOrZero b ∧
    (((f64 b : ℚ) : ℝ) = z ∨
      (∀ c, IsNormalOrZero c → ((f64 c : ℚ) : ℝ) ≠ z) ∧
        (((f64 b : ℚ) : ℝ) < z ∧ (∀ c, IsNormalOrZero c → ((f64 c : ℚ) : ℝ) < z → f64 c ≤ f64 b) ∨
          z < ((f64 b : ℚ) : ℝ) ∧ (∀ c, IsNormalOrZero c → z < ((f64 c : ℚ) : ℝ) → f64 b ≤ f64 c)))

/-- The contract of NORMAL_FN (41_distributions.md R86): (a) is in the type, (b) the result is finite, (c) it is +0.0 where
Z = 0, (d) elsewhere it is a faithful rounding of Z. -/
def NormalContract (f : BitVec 53 → BitVec 53 → W64) : Prop :=
  ∀ ka kb, f64Exponent (f ka kb) ≠ 2047 ∧ (idealZ ka kb = 0 → f ka kb = 0#64) ∧
    (idealZ ka kb ≠ 0 → IsFaithful (f ka kb) (idealZ ka kb))

end Sys2Proof.Machine
end

