-- ==== Sys2Proof/Certificates/Slice0/Obligations.lean ====
section
/-! DEFINITION. The statements for the provers, one `def Obligations.<Name> : Prop` each, in the spec's order: encoding,
commands, mixer, transforms, memory, host actions, whole-machine rules, fairness. -/

open Sys2Proof Sys2Proof.Machine

/-! ## Encoding -/

/-- 30_encoding.md R51: the decoder is total and the encoder is its inverse on the four commands. -/
def Obligations.DecodeIffEncode : Prop :=
  ∀ w : W64,
    (∀ i, decode w = .ok i ↔ w = encode i) ∧
    (decode w = .error .reservedCommand ↔ w.extractLsb' 2 62 ≠ 0#62) ∧
    (∀ i, decode w = .ok i → distCode i = w.extractLsb' 0 2) ∧
    encode .distUint64 = 0#64 ∧ encode .distUniform01 = 1#64 ∧ encode .distUniform11 = 2#64 ∧ encode .distNormal = 3#64

/-- The words of the opcode table, and two reserved ones of 95_test_vectors.md 6.4. -/
def Obligations.TableWordsDecode : Prop :=
  decode 0x0000000000000000#64 = .ok .distUint64 ∧ decode 0x0000000000000001#64 = .ok .distUniform01 ∧
  decode 0x0000000000000002#64 = .ok .distUniform11 ∧ decode 0x0000000000000003#64 = .ok .distNormal ∧
  decode 4#64 = .error .reservedCommand ∧ decode 0x8000000000000001#64 = .error .reservedCommand

/-! ## A step runs the decoded command -/

/-- The host's write of a word that decodes to `i`, at a core that is not BUSY, runs `i` there. -/
def Obligations.StepRunsWrittenCommand : Prop :=
  ∀ (s : State) (ts : List Turn) (k : Nat) (c : CoreState) (w : W64) (i : Instr),
    s.inbox = ⟨k, .wr 5#4 w⟩ :: ts → s.cores[k]? = some c → c.busy = false → decode w = .ok i →
    step s = exec i ((s.withInbox ts).withSel k)

/-- A scheduled turn of a BUSY core's driver runs the command that its CMD decodes to. -/
def Obligations.StepRunsScheduledDriver : Prop :=
  ∀ (s : State) (ts : List Turn) (k : Nat) (c : CoreState) (i : Instr),
    s.inbox = ⟨k, .drive⟩ :: ts → s.cores[k]? = some c → c.busy = true → decode c.cmd.val = .ok i →
    step s = exec i ((s.withInbox ts).withSel k)

/-- With nothing queued and one core BUSY, the step runs the command that its CMD decodes to. -/
def Obligations.StepRunsLoneDriver : Prop :=
  ∀ (s : State) (k : Nat) (c : CoreState) (i : Instr),
    s.inbox = [] → s.OnlyBusy k → s.cores[k]? = some c → decode c.cmd.val = .ok i →
    step s = exec i (s.withSel k)

/-- With nothing queued and no core BUSY, the machine waits for the host. -/
def Obligations.IdleMachineWaits : Prop :=
  ∀ s : State, s.inbox = [] → (∀ (k : Nat) (c : CoreState), s.cores[k]? = some c → c.busy = false) → step s = .next s

/-! ## Starting a command -/

/-- 42_driver.md R93: the host write of CMD, its preconditions in order and its effect. -/
def Obligations.CommandWriteStartsOrRefuses : Prop :=
  ∀ (s : State) (ts : List Turn) (k : Nat) (c : CoreState) (w : W64),
    s.inbox = ⟨k, .wr 5#4 w⟩ :: ts → s.cores[k]? = some c →
    step s =
      if c.busy = true then .refused .writeWhileBusy
      else if w.extractLsb' 2 62 ≠ 0#62 then .refused .reservedCommand
      else if ¬(c.size.held = true ∧ c.key0.held = true ∧ c.key1.held = true ∧ c.ctr0.held = true ∧ c.ctr1.held = true) then
        .refused .operandUnwritten
      else
        match c.out with
        | none => .refused .bufferTooSmall
        | some win =>
          if win.cap.toNat < c.size.val.toNat then .refused .bufferTooSmall
          else if anyOtherCore s.cores k (CoreState.busyOver win) = true then .refused .overlappingBuffers
          else .next (((s.withInbox ts).withSel k).setCurrent
            { c with cmd := Reg.of w, index := 0#64, cctr := c.ctr1.val, done := false, busy := true })

/-- Every command that may start does: exec answers the state of an accepted CMD write of its word. -/
def Obligations.CommandStarts : Prop :=
  ∀ (i : Instr) (s : State) (c : CoreState) (w : Window),
    s.current? = some c → c.busy = false → c.operandsHeld = true → c.out = some w →
    c.size.val.toNat ≤ w.cap.toNat →
    (∀ (j : Nat) (d : CoreState) (v : Window), j ≠ s.sel → s.cores[j]? = some d → d.busy = true → d.out = some v →
      v.overlaps w = false) →
    exec i s = .next (s.setCurrent
      { c with cmd := Reg.of (encode i), index := 0#64, cctr := c.ctr1.val, done := false, busy := true })

/-! ## The element step -/

/-- 42_driver.md R101: DIST_UINT64 stores the first word of the block. -/
def Obligations.Uint64ElementStep : Prop :=
  ∀ (s : State) (c : CoreState) (w : Window),
    s.current? = some c → c.busy = true → c.cmd.val = 0#64 → c.index.toNat < c.size.val.toNat →
    c.out = some w → c.index.toNat < w.cap.toNat →
    exec .distUint64 s = .next ((s.withMem (s.mem.writeElement s.byteOrder (w.address c.index.toNat)
      (mix c.key0.val c.key1.val c.ctr0.val c.cctr).1)).setCurrent
        { c with index := c.index + 1#64, cctr := c.cctr + 1#64 })

/-- 42_driver.md R102: DIST_UNIFORM_01 stores U53_TO_F64(o0 >> 11). -/
def Obligations.Uniform01ElementStep : Prop :=
  ∀ (s : State) (c : CoreState) (w : Window),
    s.current? = some c → c.busy = true → c.cmd.val = 1#64 → c.index.toNat < c.size.val.toNat →
    c.out = some w → c.index.toNat < w.cap.toNat →
    exec .distUniform01 s = .next ((s.withMem (s.mem.writeElement s.byteOrder (w.address c.index.toNat)
      (u53ToF64 ((mix c.key0.val c.key1.val c.ctr0.val c.cctr).1.extractLsb' 11 53)))).setCurrent
        { c with index := c.index + 1#64, cctr := c.cctr + 1#64 })

/-- 42_driver.md R103: DIST_UNIFORM_11 stores S53_TO_F64(sint_53(o0 >> 11)). -/
def Obligations.Uniform11ElementStep : Prop :=
  ∀ (s : State) (c : CoreState) (w : Window),
    s.current? = some c → c.busy = true → c.cmd.val = 2#64 → c.index.toNat < c.size.val.toNat →
    c.out = some w → c.index.toNat < w.cap.toNat →
    exec .distUniform11 s = .next ((s.withMem (s.mem.writeElement s.byteOrder (w.address c.index.toNat)
      (s53ToF64 ((mix c.key0.val c.key1.val c.ctr0.val c.cctr).1.extractLsb' 11 53)))).setCurrent
        { c with index := c.index + 1#64, cctr := c.cctr + 1#64 })

/-- 42_driver.md R104: DIST_NORMAL stores NORMAL_FN(o0 >> 11, o1 >> 11), both words of one block. -/
def Obligations.NormalElementStep : Prop :=
  ∀ (s : State) (c : CoreState) (w : Window),
    s.current? = some c → c.busy = true → c.cmd.val = 3#64 → c.index.toNat < c.size.val.toNat →
    c.out = some w → c.index.toNat < w.cap.toNat →
    exec .distNormal s = .next ((s.withMem (s.mem.writeElement s.byteOrder (w.address c.index.toNat)
      (normalFn ((mix c.key0.val c.key1.val c.ctr0.val c.cctr).1.extractLsb' 11 53)
        ((mix c.key0.val c.key1.val c.ctr0.val c.cctr).2.extractLsb' 11 53)))).setCurrent
          { c with index := c.index + 1#64, cctr := c.cctr + 1#64 })

/-! ## Completion, frame, the whole command -/

/-- 42_driver.md R98: with INDEX = SIZE the running command completes, and nothing else changes. -/
def Obligations.CommandCompletes : Prop :=
  ∀ (i : Instr) (s : State) (c : CoreState),
    s.current? = some c → c.busy = true → c.cmd.val = encode i → c.index = c.size.val →
    exec i s = .next (s.setCurrent { c with busy := false, done := true })

/-- What a phase of a command leaves unchanged, for all four commands: every operand register, the binding and every
other core; CMD but at the start; every byte of memory but the eight of the element it stores. -/
def Obligations.CommandFrame : Prop :=
  ∀ (i : Instr) (s t : State) (c : CoreState), s.current? = some c → exec i s = .next t →
    (∃ d, t.current? = some d ∧ d.size = c.size ∧ d.key0 = c.key0 ∧ d.key1 = c.key1 ∧ d.ctr0 = c.ctr0 ∧
      d.ctr1 = c.ctr1 ∧ d.out = c.out ∧ (c.busy = true → d.cmd = c.cmd) ∧
      (c.index.toNat < c.size.val.toNat → c.busy = true → d.busy = c.busy ∧ d.done = c.done) ∧
      (c.busy = true → c.index = c.size.val → d.index = c.index ∧ d.cctr = c.cctr)) ∧
    (∀ j : Nat, j ≠ s.sel → t.cores[j]? = s.cores[j]?) ∧
    t.cores.length = s.cores.length ∧ t.byteOrder = s.byteOrder ∧ t.inbox = s.inbox ∧ t.sel = s.sel ∧
    t.reply = s.reply ∧ t.draws = s.draws ∧
    (∀ a, c.busy = true → c.index.toNat < c.size.val.toNat → outAddress? c.out c.index.toNat = some a →
      Memory.SameOutside s.mem t.mem a 8) ∧
    (c.busy = false ∨ c.index = c.size.val → ∀ x, Memory.read? t.mem x = Memory.read? s.mem x)

/-- 42_driver.md R99: N = 0 writes nothing; the write of CMD and the completion are the only steps. -/
def Obligations.EmptyRequestWritesNothing : Prop :=
  ∀ (i : Instr) (s : State) (k : Nat) (c : CoreState) (w : Window),
    s.ReadyFor k i c w → c.size.val = 0#64 →
    Host.Core.run Sys2Proof.core 2 s = .next (((s.withInbox []).withSel k).setCurrent
      { c with cmd := Reg.of (encode i), index := 0#64, cctr := c.ctr1.val, done := true, busy := false })

/-- 42_driver.md R100: the whole command. After the CMD write, SIZE element steps and the completion step, OUT holds
XFORM(MIX(k0, k1, c0, (c1 + j) mod 2^64)) for every j < SIZE and nothing else has changed. -/
def Obligations.WholeCommandFillsOut : Prop :=
  ∀ (i : Instr) (s : State) (k : Nat) (c : CoreState) (w : Window), s.ReadyFor k i c w →
    ∃ (t : State) (d : CoreState),
      Host.Core.run Sys2Proof.core (c.size.val.toNat + 2) s = .next t ∧ t.cores[k]? = some d ∧
      (∀ j, j < c.size.val.toNat → Memory.readElement? t.mem t.byteOrder (w.address j) =
        some (transformOf i (mix c.key0.val c.key1.val c.ctr0.val (c.ctr1.val + BitVec.ofNat 64 j)).1
          (mix c.key0.val c.key1.val c.ctr0.val (c.ctr1.val + BitVec.ofNat 64 j)).2)) ∧
      Memory.SameOutside s.mem t.mem (w.address 0) (8 * c.size.val.toNat) ∧
      d.index = c.size.val ∧ d.busy = false ∧ d.done = true ∧ d.cmd = Reg.of (encode i) ∧
      d.size = c.size ∧ d.key0 = c.key0 ∧ d.key1 = c.key1 ∧ d.ctr0 = c.ctr0 ∧ d.ctr1 = c.ctr1 ∧
      ∀ j : Nat, j ≠ k → t.cores[j]? = s.cores[j]?

/-- 42_driver.md R106: one command of N + M elements stores what a command of N elements and one of M elements that
starts at counter (c1 + N) mod 2^64 store, one after the other. -/
def Obligations.SplittingLaw : Prop :=
  ∀ (i : Instr) (s₁ s₂ s₃ t₁ t₂ t₃ : State) (k₁ k₂ k₃ : Nat) (c₁ c₂ c₃ : CoreState) (w₁ w₂ w₃ : Window),
    s₁.ReadyFor k₁ i c₁ w₁ → s₂.ReadyFor k₂ i c₂ w₂ → s₃.ReadyFor k₃ i c₃ w₃ →
    c₁.size.val.toNat = c₂.size.val.toNat + c₃.size.val.toNat →
    c₂.key0.val = c₁.key0.val → c₂.key1.val = c₁.key1.val → c₂.ctr0.val = c₁.ctr0.val → c₂.ctr1.val = c₁.ctr1.val →
    c₃.key0.val = c₁.key0.val → c₃.key1.val = c₁.key1.val → c₃.ctr0.val = c₁.ctr0.val →
    c₃.ctr1.val = c₁.ctr1.val + c₂.size.val →
    Host.Core.run Sys2Proof.core (c₁.size.val.toNat + 2) s₁ = .next t₁ →
    Host.Core.run Sys2Proof.core (c₂.size.val.toNat + 2) s₂ = .next t₂ →
    Host.Core.run Sys2Proof.core (c₃.size.val.toNat + 2) s₃ = .next t₃ →
    (∀ j, j < c₂.size.val.toNat → Memory.readElement? t₁.mem t₁.byteOrder (w₁.address j) =
      Memory.readElement? t₂.mem t₂.byteOrder (w₂.address j)) ∧
    (∀ j, j < c₃.size.val.toNat → Memory.readElement? t₁.mem t₁.byteOrder (w₁.address (c₂.size.val.toNat + j)) =
      Memory.readElement? t₃.mem t₃.byteOrder (w₃.address j))

/-- 42_driver.md R107: two commands with the same DIST and the same five operand values leave the same elements, whatever
ran before and on whatever core. For DIST_NORMAL this is clause (a) of 41_distributions.md R86. -/
def Obligations.RepeatedCommandsAgree : Prop :=
  ∀ (i : Instr) (s s' t t' : State) (k k' : Nat) (c c' : CoreState) (w w' : Window),
    s.ReadyFor k i c w → s'.ReadyFor k' i c' w' →
    c'.size.val = c.size.val → c'.key0.val = c.key0.val → c'.key1.val = c.key1.val → c'.ctr0.val = c.ctr0.val →
    c'.ctr1.val = c.ctr1.val →
    Host.Core.run Sys2Proof.core (c.size.val.toNat + 2) s = .next t →
    Host.Core.run Sys2Proof.core (c.size.val.toNat + 2) s' = .next t' →
    ∀ j, j < c.size.val.toNat → Memory.readElement? t.mem t.byteOrder (w.address j) =
      Memory.readElement? t'.mem t'.byteOrder (w'.address j)

/-- 30_encoding.md R55 (a): the command line as a macro over host actions. Its five operand writes, its CMD write and its
WAIT, which ends when DONE = 1, leave OUT filled; each poll of WAIT before that gives the driver one step (log 12). -/
def Obligations.CommandLineFillsOut : Prop :=
  ∀ (l : CommandLine) (s : State) (k : Nat) (c : CoreState) (w : Window), l.wellFormed = true →
    s.inbox = commandTurns k l → s.cores[k]? = some c →
    (∀ (j : Nat) (cj : CoreState), s.cores[j]? = some cj → cj.busy = false) → c.out = some w → l.size ≤ w.cap.toNat →
    ∃ (t : State) (d : CoreState),
      Host.Core.run Sys2Proof.core (2 * l.size + 9) s = .next t ∧ t.inbox = [] ∧ t.reply = some 2#64 ∧
      t.cores[k]? = some d ∧ d.busy = false ∧ d.done = true ∧ d.index.toNat = l.size ∧ d.size.val.toNat = l.size ∧
      d.key0.val.toNat = l.key0 ∧ d.key1.val.toNat = l.key1 ∧ d.ctr0.val.toNat = l.counter0 ∧
      d.ctr1.val.toNat = l.counter1 ∧ d.cmd = Reg.of (encode l.command) ∧
      (∀ j, j < l.size → Memory.readElement? t.mem t.byteOrder (w.address j) =
        some (transformOf l.command
          (mix d.key0.val d.key1.val d.ctr0.val (d.ctr1.val + BitVec.ofNat 64 j)).1
          (mix d.key0.val d.key1.val d.ctr0.val (d.ctr1.val + BitVec.ofNat 64 j)).2)) ∧
      Memory.SameOutside s.mem t.mem (w.address 0) (8 * l.size)

/-- 42_driver.md R105: element j of a longer command is element 0 of the command that starts at counter c1 + j. -/
def Obligations.ElementsAreAddressable : Prop :=
  ∀ (i : Instr) (s s' t t' : State) (c c' : CoreState) (a a' : Nat),
    s.current? = some c → s'.current? = some c' → c.Ok → c'.Ok → c.busy = true → c'.busy = true →
    c.cmd.val = encode i → c'.cmd.val = encode i →
    c'.key0.val = c.key0.val → c'.key1.val = c.key1.val → c'.ctr0.val = c.ctr0.val →
    c'.index = 0#64 → c'.ctr1.val = c.ctr1.val + c.index →
    c.index.toNat < c.size.val.toNat → c'.index.toNat < c'.size.val.toNat →
    outAddress? c.out c.index.toNat = some a → outAddress? c'.out 0 = some a' →
    exec i s = .next t → exec i s' = .next t' →
    Memory.readElement? t.mem t.byteOrder a = Memory.readElement? t'.mem t'.byteOrder a'

/-! ## The mixer -/

/-- 40_mixer.md R58, R59, R60: the key schedule, the six injections and the twenty rounds, written out. -/
def Obligations.MixerOperations : Prop :=
  ∀ (k0 k1 : W64) (x : MixWords),
    let p : W64 := 0x1BD11BDAA9FC1A22#64 ^^^ k0 ^^^ k1
    ksInit k0 k1 = ⟨k0, k1, p⟩ ∧
    inject (ksInit k0 k1) 0 x = ⟨x.x0 + k0, x.x1 + k1 + 0#64⟩ ∧
    inject (ksInit k0 k1) 1 x = ⟨x.x0 + k1, x.x1 + p + 1#64⟩ ∧
    inject (ksInit k0 k1) 2 x = ⟨x.x0 + p, x.x1 + k0 + 2#64⟩ ∧
    inject (ksInit k0 k1) 3 x = ⟨x.x0 + k0, x.x1 + k1 + 3#64⟩ ∧
    inject (ksInit k0 k1) 4 x = ⟨x.x0 + k1, x.x1 + p + 4#64⟩ ∧
    inject (ksInit k0 k1) 5 x = ⟨x.x0 + p, x.x1 + k0 + 5#64⟩ ∧
    ∀ d, d < 20 → round d x =
      ⟨x.x0 + x.x1, x.x1.rotateLeft ([16, 42, 12, 31, 16, 32, 24, 21].getD (d % 8) 0) ^^^ (x.x0 + x.x1)⟩

/-- 40_mixer.md R62: MIX unrolled, the amount of each round written out. -/
def Obligations.MixUnrolled : Prop :=
  ∀ k0 k1 c0 c1 : W64,
    let rnd : Nat → MixWords → MixWords := fun r x => ⟨x.x0 + x.x1, x.x1.rotateLeft r ^^^ (x.x0 + x.x1)⟩
    let inj := inject (ksInit k0 k1)
    let x0 := inj 0 ⟨c0, c1⟩
    let x1 := inj 1 (rnd 31 (rnd 12 (rnd 42 (rnd 16 x0))))
    let x2 := inj 2 (rnd 21 (rnd 24 (rnd 32 (rnd 16 x1))))
    let x3 := inj 3 (rnd 31 (rnd 12 (rnd 42 (rnd 16 x2))))
    let x4 := inj 4 (rnd 21 (rnd 24 (rnd 32 (rnd 16 x3))))
    let x5 := inj 5 (rnd 31 (rnd 12 (rnd 42 (rnd 16 x4))))
    mix k0 k1 c0 c1 = (x5.x0, x5.x1)

/-- 40_mixer.md R63: for each key MIX is a bijection of the counters, each step having the stated inverse. -/
def Obligations.MixIsBijective : Prop :=
  (∀ k0 k1 : W64, Function.Bijective fun c : W64 × W64 => mix k0 k1 c.1 c.2) ∧
  (∀ (k : KeySchedule) (s : Nat) (x : MixWords),
    let y := inject k s x
    x = ⟨y.x0 - k.word s, y.x1 - k.word (s + 1) - BitVec.ofNat 64 s⟩) ∧
  (∀ (d : Nat) (x : MixWords),
    let y := round d x
    x = ⟨y.x0 - (y.x1 ^^^ y.x0).rotateRight (rotAmount d), (y.x1 ^^^ y.x0).rotateRight (rotAmount d)⟩)

/-! ## The transforms -/

/-- 41_distributions.md R70, R71, R74, R86: which transform each command applies, and to which of the block's words. -/
def Obligations.TransformSelection : Prop :=
  ∀ o0 o1 : W64,
    transformOf .distUint64 o0 o1 = o0 ∧
    transformOf .distUniform01 o0 o1 = asUniform01 o0 ∧
    transformOf .distUniform11 o0 o1 = asUniform11 o0 ∧
    transformOf .distNormal o0 o1 = normalFn (o0.extractLsb' 11 53) (o1.extractLsb' 11 53)

/-- 41_distributions.md R76, R79: the two converters are exact, with the stated fields. -/
def Obligations.ConvertersAreExact : Prop :=
  (∀ k : BitVec 53,
    f64 (u53ToF64 k) = (k.toNat : ℚ) / 2 ^ 53 ∧
    (k = 0#53 → u53ToF64 k = 0#64) ∧
    (k ≠ 0#53 → f64Sign (u53ToF64 k) = false ∧ f64Exponent (u53ToF64 k) = Nat.log2 k.toNat + 970 ∧
      f64Fraction (u53ToF64 k) = (k.toNat * 2 ^ (52 - Nat.log2 k.toNat)) % 2 ^ 52)) ∧
  (∀ t : BitVec 53,
    f64 (s53ToF64 t) = (t.toInt : ℚ) / 2 ^ 52 ∧
    (t = 0#53 → s53ToF64 t = 0#64) ∧
    (t ≠ 0#53 → f64Sign (s53ToF64 t) = decide (t.toInt < 0) ∧
      f64Exponent (s53ToF64 t) = Nat.log2 t.toInt.natAbs + 971 ∧
      f64Fraction (s53ToF64 t) = (t.toInt.natAbs * 2 ^ (52 - Nat.log2 t.toInt.natAbs)) % 2 ^ 52))

/-- 41_distributions.md R77: AS_UNIFORM_01 lies in [0, 1), is never -0.0, and each value j x 2^-53 comes from exactly the
2048 words from 2048 j on. -/
def Obligations.Uniform01Range : Prop :=
  (∀ x : W64, f64 (asUniform01 x) = ((x.toNat / 2 ^ 11 : ℕ) : ℚ) / 2 ^ 53 ∧
    0 ≤ f64 (asUniform01 x) ∧ f64 (asUniform01 x) < 1 ∧ f64Sign (asUniform01 x) = false) ∧
  (∀ (j : Nat) (x : W64), j < 2 ^ 53 →
    (f64 (asUniform01 x) = (j : ℚ) / 2 ^ 53 ↔ 2048 * j ≤ x.toNat ∧ x.toNat < 2048 * (j + 1)))

/-- 41_distributions.md R78, R80: AS_UNIFORM_11 is the word read as signed, lies in [-1, 1 - 2^-52], takes -1.0, is never
-0.0, and is twice the [0, 1) value, less 2 where bit 63 is set. -/
def Obligations.Uniform11Range : Prop :=
  (∀ x : W64, f64 (asUniform11 x) = ((x.extractLsb' 11 53).toInt : ℚ) / 2 ^ 52 ∧
    -1 ≤ f64 (asUniform11 x) ∧ f64 (asUniform11 x) ≤ 1 - 1 / 2 ^ 52 ∧ asUniform11 x ≠ 0x8000000000000000#64 ∧
    f64 (asUniform11 x) = 2 * f64 (asUniform01 x) - (if x.getLsbD 63 then 2 else 0)) ∧
  asUniform11 0x8000000000000000#64 = 0xBFF0000000000000#64 ∧
  (∀ j : Int, -2 ^ 52 ≤ j → j < 2 ^ 52 → ∃ x : W64, f64 (asUniform11 x) = (j : ℚ) / 2 ^ 52)

/-- 41_distributions.md R84 and clause (c) of R86: where Z is exactly zero, and that the result is +0.0 there. -/
def Obligations.NormalZeroCases : Prop :=
  ∀ ka kb : BitVec 53,
    (idealZ ka kb = 0 ↔ ka.toNat = 2 ^ 53 - 1 ∨ kb.toNat = 2 ^ 51 ∨ kb.toNat = 3 * 2 ^ 51) ∧
    (idealZ ka kb = 0 → normalFn ka kb = 0#64)

/-- 41_distributions.md R85: the bounds of |Z|, the largest value reached at ka = 0 with kb = 0 or kb = 2^52. -/
def Obligations.IdealValueBounds : Prop :=
  (∀ ka kb : BitVec 53, |idealZ ka kb| ≤ Real.sqrt (106 * Real.log 2) ∧
    (idealZ ka kb ≠ 0 → Real.sqrt (-2 * Real.log (1 - 1 / 2 ^ 53)) * Real.sin (2 * Real.pi / 2 ^ 53) ≤ |idealZ ka kb|)) ∧
  idealZ 0#53 0#53 = Real.sqrt (106 * Real.log 2) ∧
  idealZ 0#53 4503599627370496#53 = -Real.sqrt (106 * Real.log 2)

/-- 41_distributions.md R86, consequences of its clauses (b) and (d): elsewhere the result is a normal number with the
sign of Z, below 8.58 in size. -/
def Obligations.NormalIsFiniteWithSignOfZ : Prop :=
  ∀ ka kb : BitVec 53, idealZ ka kb ≠ 0 →
    1 ≤ f64Exponent (normalFn ka kb) ∧ f64Exponent (normalFn ka kb) ≤ 2046 ∧
    (f64Sign (normalFn ka kb) = true ↔ idealZ ka kb < 0) ∧ |f64 (normalFn ka kb)| < 858 / 100

/-- NORMAL_FN is within one part in 2^52 of Z (41_distributions.md R86 (d), whatever the free values are, log 7). -/
def Obligations.NormalIsCloseToZ : Prop :=
  ∀ ka kb : BitVec 53, |((f64 (normalFn ka kb) : ℚ) : ℝ) - idealZ ka kb| ≤ 1 / 2 ^ 52 * |idealZ ka kb|

/-- The model leaves nothing out that 41_distributions.md R86 allows: every function under the contract is what the free
values, for some precision and direction at each pair, make of NORMAL_FN (log 7). -/
def Obligations.NormalAdmitsEveryContract : Prop :=
  ∀ f : BitVec 53 → BitVec 53 → W64, NormalContract f → ∀ ka kb, ∃ n up, f ka kb = normalCandidate n up ka kb

/-- 41_distributions.md R88: no floating-point transform gives a NaN, an infinity, a subnormal number or -0.0. -/
def Obligations.TransformsGiveNormalOrZero : Prop :=
  ∀ (i : Instr) (o0 o1 : W64), i ≠ .distUint64 → IsNormalOrZero (transformOf i o0 o1)

/-! ## The output memory -/

/-- 20_memory.md R28, R33, R35: an element store is read back whole and leaves every other element alone, in either byte
order. -/
def Obligations.ElementStoreIsReadBack : Prop :=
  ∀ (m : Memory) (o : ByteOrder) (v w : Window) (i j : Nat) (x : W64), i < v.cap.toNat → j < w.cap.toNat →
    Memory.readElement? (Memory.writeElement m o (v.address i) x) o (v.address i) = some x ∧
    (v.address i ≠ w.address j →
      Memory.readElement? (Memory.writeElement m o (v.address i) x) o (w.address j) =
        Memory.readElement? m o (w.address j))

/-- 20_memory.md R31: which byte of an element lies where, for each value of OUT_BYTE_ORDER. -/
def Obligations.ElementByteLayout : Prop :=
  ∀ (m : Memory) (a : Nat) (x : W64) (j : Nat), j < 8 →
    Memory.read? (Memory.writeElement m .little a x) (a + j) = some (x.extractLsb' (8 * j) 8) ∧
    Memory.read? (Memory.writeElement m .big a x) (a + j) = some (x.extractLsb' (8 * (7 - j)) 8)

/-! ## Host actions -/

/-- 42_driver.md R92: the host write of an operand register. -/
def Obligations.OperandWrite : Prop :=
  ∀ (s : State) (ts : List Turn) (k : Nat) (c : CoreState) (r : BitVec 4) (v : W64),
    s.inbox = ⟨k, .wr r v⟩ :: ts → s.cores[k]? = some c → r.toNat ≤ 4 →
    step s =
      if c.busy = true then .refused .writeWhileBusy
      else .next (((s.withInbox ts).withSel k).setCurrent
        { c with
          size := if r = 0#4 then ⟨v, true⟩ else c.size
          key0 := if r = 1#4 then ⟨v, true⟩ else c.key0
          key1 := if r = 2#4 then ⟨v, true⟩ else c.key1
          ctr0 := if r = 3#4 then ⟨v, true⟩ else c.ctr0
          ctr1 := if r = 4#4 then ⟨v, true⟩ else c.ctr1 })

/-- 42_driver.md R94: the host read of a register, at any time. -/
def Obligations.RegisterRead : Prop :=
  ∀ (s : State) (ts : List Turn) (k : Nat) (c : CoreState) (r : BitVec 4),
    s.inbox = ⟨k, .rd r⟩ :: ts → s.cores[k]? = some c →
    let answer : Reg → Host.Outcome State Fault Refusal := fun x =>
      if x.held = true then .next (((s.withInbox ts).withSel k).withReply x.val) else .refused .readUnwritten
    step s =
      if r.toNat = 0 then answer c.size
      else if r.toNat = 1 then answer c.key0
      else if r.toNat = 2 then answer c.key1
      else if r.toNat = 3 then answer c.ctr0
      else if r.toNat = 4 then answer c.ctr1
      else if r.toNat = 5 then answer c.cmd
      else if r.toNat = 6 then answer ⟨(if c.done then 2#64 else 0#64) ||| (if c.busy then 1#64 else 0#64), true⟩
      else if r.toNat = 7 then answer ⟨c.index, true⟩
      else if r.toNat = 8 then answer ⟨1#64, true⟩
      else .refused .reservedRegister

/-- 30_encoding.md R49: register numbers 9 to 15, and writes of registers 6, 7 and 8, are refused, BUSY or not. -/
def Obligations.ReservedTransactions : Prop :=
  ∀ (s : State) (ts : List Turn) (k : Nat) (c : CoreState) (r : BitVec 4) (v : W64), s.cores[k]? = some c →
    (9 ≤ r.toNat → s.inbox = ⟨k, .rd r⟩ :: ts → step s = .refused .reservedRegister) ∧
    (9 ≤ r.toNat → s.inbox = ⟨k, .wr r v⟩ :: ts → step s = .refused .reservedRegister) ∧
    (6 ≤ r.toNat → r.toNat ≤ 8 → s.inbox = ⟨k, .wr r v⟩ :: ts → step s = .refused .writeReadOnly)

/-- 70_reset_and_hazards.md R129, R130: RESET of a core, BUSY or not. OUT and its binding are not touched (log 4). -/
def Obligations.ResetOfCore : Prop :=
  ∀ (s : State) (ts : List Turn) (k : Nat) (c : CoreState), s.inbox = ⟨k, .reset⟩ :: ts → s.cores[k]? = some c →
    ∃ (t : State) (d : CoreState), step s = .next t ∧ t.cores[k]? = some d ∧
      d.busy = false ∧ d.done = false ∧ d.index = 0#64 ∧ d.size.held = false ∧ d.key0.held = false ∧
      d.key1.held = false ∧ d.ctr0.held = false ∧ d.ctr1.held = false ∧ d.cmd.held = false ∧ d.out = c.out ∧
      d.readRegister 6#4 = .ok 0#64 ∧ d.readRegister 8#4 = .ok 1#64 ∧
      t.mem = s.mem ∧ t.byteOrder = s.byteOrder ∧ t.inbox = ts ∧
      ∀ j : Nat, j ≠ k → t.cores[j]? = s.cores[j]?

/-- 10_state.md R25: the machine right after reset. That no buffer is bound (log 16) and that memory lists nothing, so that
every element reads as a free value (log 9), is the model's choice; that waiting is a step, its form (log 12). -/
def Obligations.ResetState : Prop :=
  ∃ c : CoreState, State.reset.cores = [c] ∧ c.busy = false ∧ c.done = false ∧ c.index = 0#64 ∧
    c.size.held = false ∧ c.key0.held = false ∧ c.key1.held = false ∧ c.ctr0.held = false ∧ c.ctr1.held = false ∧
    c.cmd.held = false ∧ c.out = none ∧ State.reset.mem = [] ∧ step State.reset = .next State.reset

/-- 42_driver.md R95, the host read of OUT[i]: refused outside the buffer (with no buffer bound: log 13, the model's
choice); final contents where no command that runs over the element has still to write it (of an element nobody has
written: log 9); elsewhere a draw (log 8). -/
def Obligations.HostReadOfOut : Prop :=
  ∀ (s : State) (ts : List Turn) (k : Nat) (c : CoreState) (i : Nat),
    s.inbox = ⟨k, .rdOut i⟩ :: ts → s.cores[k]? = some c →
    step s =
      match c.out with
      | none => .refused .outOfRange
      | some w =>
        if w.cap.toNat ≤ i then .refused .outOfRange
        else if s.cores.any (CoreState.awaits (w.address i)) = true then
          .next ((((s.withInbox ts).withSel k).withReply (Config.unspecifiedRead s.draws)).drawn)
        else
          .next (((s.withInbox ts).withSel k).withReply
            ((Memory.readElement? s.mem s.byteOrder (w.address i)).getD (Config.initialElement (w.address i))))

/-- 20_memory.md R39 (a), (c): of a BUSY core whose window no other BUSY core overlaps, the elements from INDEX on are
the ones still awaited, and no others. -/
def Obligations.AwaitedElements : Prop :=
  ∀ (s : State) (k : Nat) (c : CoreState) (w : Window) (i : Nat),
    s.Inv → s.cores[k]? = some c → c.busy = true → c.out = some w → i < w.cap.toNat →
    (s.cores.any (CoreState.awaits (w.address i)) = true ↔ c.index.toNat ≤ i)

/-- 42_driver.md R95, 60_exceptions.md R116: the host write of OUT[i]. The order of the refusals, OutOfRange where no buffer
is bound, and the refusal for an element of another BUSY core's window are the model's choice (log 13). -/
def Obligations.HostWriteOfOut : Prop :=
  ∀ (s : State) (ts : List Turn) (k : Nat) (c : CoreState) (i : Nat) (v : W64),
    s.inbox = ⟨k, .wrOut i v⟩ :: ts → s.cores[k]? = some c →
    step s =
      if c.busy = true then .refused .bufferTouchedWhileBusy
      else
        match c.out with
        | none => .refused .outOfRange
        | some w =>
          if w.cap.toNat ≤ i then .refused .outOfRange
          else if s.cores.any (CoreState.owns (w.address i)) = true then .refused .bufferTouchedWhileBusy
          else .next (((s.withInbox ts).withSel k).withMem (s.mem.writeElement s.byteOrder (w.address i) v))

/-- 20_memory.md R28, 60_exceptions.md R116: binding an output buffer. That a binding changes no contents (log 14) and that a
core that is not BUSY may be bound to a window overlapping a BUSY core's (log 13) are the model's choice. -/
def Obligations.BindingOfOut : Prop :=
  ∀ (s : State) (ts : List Turn) (k : Nat) (c : CoreState) (w : Window),
    s.inbox = ⟨k, .bind w⟩ :: ts → s.cores[k]? = some c →
    step s =
      if c.busy = true then .refused .bufferTouchedWhileBusy
      else .next (((s.withInbox ts).withSel k).setCurrent { c with out := some w })

/-- 30_encoding.md R54: WAIT reads STATUS and goes on when DONE = 1; else a BUSY core's driver, the lone one or any of
several, is given a turn, and WAIT reads again (that a poll leaves the drivers one turn is the model's schedule, log 12). -/
def Obligations.WaitPollsStatus : Prop :=
  ∀ (s : State) (ts : List Turn) (k : Nat) (c : CoreState), s.inbox = ⟨k, .wait⟩ :: ts → s.cores[k]? = some c →
    let t : State := ((s.withInbox ts).withSel k).withReply
      ((if c.done then 2#64 else 0#64) ||| (if c.busy then 1#64 else 0#64))
    (c.done = true → step s = .next t) ∧
    (c.done = false → (∀ j, ¬s.IsBusy j) → step s = .next (t.withInbox (⟨k, .wait⟩ :: ts))) ∧
    (∀ j, c.done = false → s.OnlyBusy j → s.IsBusy j →
      step s = .next (t.withInbox (⟨j, .drive⟩ :: ⟨k, .wait⟩ :: ts))) ∧
    (∀ i j, c.done = false → i ≠ j → s.IsBusy i → s.IsBusy j →
      ∃ m, s.IsBusy m ∧ step s = .next (t.drawn.withInbox (⟨m, .drive⟩ :: ⟨k, .wait⟩ :: ts)))

/-- 20_memory.md R35: a host read changes no register, no flag and no element. -/
def Obligations.HostReadsHaveNoEffect : Prop :=
  ∀ (s t : State) (ts : List Turn) (k : Nat) (act : Action),
    s.inbox = ⟨k, act⟩ :: ts → (∃ r, act = .rd r) ∨ (∃ i, act = .rdOut i) → step s = .next t →
    t.cores = s.cores ∧ t.mem = s.mem ∧ t.byteOrder = s.byteOrder ∧ t.inbox = ts

/-! ## Rules about every step -/

/-- The invariant of the machine, kept by every step from every state that has it. -/
def Obligations.InvariantKept : Prop := ∀ s t : State, s.Inv → step s = .next t → t.Inv

/-- The invariant holds after reset, of any number of cores. -/
def Obligations.InvariantAtReset : Prop := State.reset.Inv ∧ ∀ n, (State.resetSystem n).Inv

/-- With nothing queued the machine always has a next state. Where some core is BUSY this is 42_driver.md R110 and
70_reset_and_hazards.md R142: no driver waits on the host, and none gets stuck. That a machine with no core BUSY has a next
state, its own, is the model's choice (log 12); so is the form in which one of several BUSY drivers is taken (log 6). -/
def Obligations.DriverAlwaysProceeds : Prop := ∀ s : State, s.Inv → s.inbox = [] → ∃ t, step s = .next t

/-- No state with the invariant reaches a reason that is not the spec's: a step stops, if it does, for a reason of
60_exceptions.md R116 or for a core number that names no core; and it never faults (R113, R114). That there are reasons
that are not the spec's is the model's choice (log 17). -/
def Obligations.OnlyListedRefusals : Prop :=
  ∀ s : State, s.Inv → (∀ f, step s ≠ .fault f) ∧
    ∀ r, step s = .refused r → r ≠ .noEnabledStep ∧ r ≠ .storeNotAdmitted ∧ ∀ m, r ≠ .notModelled m

/-- 10_state.md R17: how BUSY and DONE of a core change in a step. -/
def Obligations.FlagTransitions : Prop :=
  ∀ (s t : State) (k : Nat) (c d : CoreState), step s = .next t → s.cores[k]? = some c → t.cores[k]? = some d →
    (d.busy = c.busy ∧ d.done = c.done) ∨
    ((∃ ts, s.inbox = ⟨k, .reset⟩ :: ts) ∧ d.busy = false ∧ d.done = false) ∨
    ((∃ w ts, s.inbox = ⟨k, .wr 5#4 w⟩ :: ts) ∧ c.busy = false ∧ d.busy = true ∧ d.done = false) ∨
    (c.busy = true ∧ c.index = c.size.val ∧ d.busy = false ∧ d.done = true)

/-- 10_state.md R12, 70_reset_and_hazards.md R135: while a core is BUSY, no step but its RESET changes its operands, its
CMD or its binding, and INDEX does not fall. -/
def Obligations.OperandsImmutableWhileBusy : Prop :=
  ∀ (s t : State) (k : Nat) (c d : CoreState), s.Inv → step s = .next t → s.cores[k]? = some c → c.busy = true →
    t.cores[k]? = some d → (∀ ts, s.inbox ≠ ⟨k, .reset⟩ :: ts) →
    d.size = c.size ∧ d.key0 = c.key0 ∧ d.key1 = c.key1 ∧ d.ctr0 = c.ctr0 ∧ d.ctr1 = c.ctr1 ∧ d.cmd = c.cmd ∧
    d.out = c.out ∧ (d.index = c.index ∨ (d.index.toNat = c.index.toNat + 1 ∧ c.index.toNat < c.size.val.toNat))

/-- 20_memory.md R39 (a): the elements a BUSY core has written stay as they are, whatever step any agent takes. -/
def Obligations.WrittenElementsAreFinal : Prop :=
  ∀ (s t : State) (k : Nat) (c : CoreState) (w : Window) (j : Nat),
    s.Inv → step s = .next t → s.cores[k]? = some c → c.busy = true → c.out = some w → j < c.index.toNat →
    Memory.readElement? t.mem t.byteOrder (w.address j) = Memory.readElement? s.mem s.byteOrder (w.address j)

/-- 10_state.md R26, R27: a step changes at most the core whose turn it is; the number of cores and the byte order are
fixed. -/
def Obligations.OtherCoresUntouched : Prop :=
  ∀ s t : State, step s = .next t →
    (∀ j : Nat, j ≠ t.sel → t.cores[j]? = s.cores[j]?) ∧ t.cores.length = s.cores.length ∧ t.byteOrder = s.byteOrder

/-- 20_memory.md R41: another core's driver leaves every element of a BUSY core's window alone. -/
def Obligations.DriversKeepToTheirWindows : Prop :=
  ∀ (s t : State) (ts : List Turn) (j k : Nat) (c : CoreState) (w : Window) (i : Nat),
    s.Inv → s.inbox = ⟨j, .drive⟩ :: ts → j ≠ k → step s = .next t → s.cores[k]? = some c → c.busy = true →
    c.out = some w → i < w.cap.toNat →
    Memory.readElement? t.mem t.byteOrder (w.address i) = Memory.readElement? s.mem s.byteOrder (w.address i)

/-- 60_exceptions.md R125, 20_memory.md R41: the driver steps of two BUSY cores commute. -/
def Obligations.DriversCommute : Prop :=
  ∀ (s : State) (j k : Nat) (c d : CoreState), s.Inv → j ≠ k → s.cores[j]? = some c → s.cores[k]? = some d →
    c.busy = true → d.busy = true →
    ∃ t t' : State,
      Host.Core.run Sys2Proof.core 2 (s.withInbox [⟨j, .drive⟩, ⟨k, .drive⟩]) = .next t ∧
      Host.Core.run Sys2Proof.core 2 (s.withInbox [⟨k, .drive⟩, ⟨j, .drive⟩]) = .next t' ∧
      t.cores = t'.cores ∧ t.mem = t'.mem

/-! ## Fairness, and the contract of NORMAL_FN -/

/-- 70_reset_and_hazards.md R142, 42_driver.md R100: under the fairness premise every running command ends. In a run that
goes on for ever and is weakly fair to a BUSY core, and that does not reset it, the core completes, and the turns its driver
takes until then are the SIZE - INDEX element steps left and the completion step. -/
def Obligations.FairRunsComplete : Prop :=
  ∀ (run : Nat → State) (k : Nat) (c : CoreState),
    IsRun run → (run 0).Inv → (run 0).cores[k]? = some c → c.busy = true → WeaklyFair run k →
    (∀ n, (run n).turn? ≠ some ⟨k, .reset⟩) →
    ∃ (n : Nat) (d : CoreState), (run n).cores[k]? = some d ∧ d.busy = false ∧ d.done = true ∧
      d.index = c.size.val ∧ d.size = c.size ∧ d.cmd = c.cmd ∧ (∀ m, m < n → (run m).IsBusy k) ∧
      driverTurns run k n = c.size.val.toNat - c.index.toNat + 1

/-- Where no other core is ever BUSY, every run that goes on for ever is weakly fair to the core, whatever the host has
queued, a WAIT at any core among it. This is the model's choice, not the spec's: 70_reset_and_hazards.md R142 gives fairness
as a premise; here it holds of itself because the host's queue is finite (log 3) and a poll of WAIT leaves the drivers one
turn (log 12). -/
def Obligations.LoneDriverIsServed : Prop :=
  ∀ (run : Nat → State) (k : Nat), IsRun run → (∀ n j, (run n).IsBusy j → j = k) → WeaklyFair run k

/-- 41_distributions.md R86: NORMAL_FN is under its contract, clauses (b), (c) and (d), whatever the free values are (log 7);
clause (a) is in its type. -/
def Obligations.NormalMeetsContract : Prop := NormalContract normalFn
end

