-- ==== Sys2Proof/Laws/State.lean ====
section
/-! SUPPORT. One lemma per field per update of the state and of a core, each true by rfl, so that no proof unfolds a record
update. -/

namespace Sys2Proof.Machine

/-! ## Updates of the state -/

@[simp] theorem State.setCurrent_cores (s : State) (c : CoreState) : (s.setCurrent c).cores = s.cores.set s.sel c := rfl
@[simp] theorem State.setCurrent_mem (s : State) (c : CoreState) : (s.setCurrent c).mem = s.mem := rfl
@[simp] theorem State.setCurrent_byteOrder (s : State) (c : CoreState) : (s.setCurrent c).byteOrder = s.byteOrder := rfl
@[simp] theorem State.setCurrent_inbox (s : State) (c : CoreState) : (s.setCurrent c).inbox = s.inbox := rfl
@[simp] theorem State.setCurrent_sel (s : State) (c : CoreState) : (s.setCurrent c).sel = s.sel := rfl
@[simp] theorem State.setCurrent_reply (s : State) (c : CoreState) : (s.setCurrent c).reply = s.reply := rfl
@[simp] theorem State.setCurrent_draws (s : State) (c : CoreState) : (s.setCurrent c).draws = s.draws := rfl

@[simp] theorem State.withMem_cores (s : State) (m : Memory) : (s.withMem m).cores = s.cores := rfl
@[simp] theorem State.withMem_mem (s : State) (m : Memory) : (s.withMem m).mem = m := rfl
@[simp] theorem State.withMem_byteOrder (s : State) (m : Memory) : (s.withMem m).byteOrder = s.byteOrder := rfl
@[simp] theorem State.withMem_inbox (s : State) (m : Memory) : (s.withMem m).inbox = s.inbox := rfl
@[simp] theorem State.withMem_sel (s : State) (m : Memory) : (s.withMem m).sel = s.sel := rfl
@[simp] theorem State.withMem_reply (s : State) (m : Memory) : (s.withMem m).reply = s.reply := rfl
@[simp] theorem State.withMem_draws (s : State) (m : Memory) : (s.withMem m).draws = s.draws := rfl

@[simp] theorem State.withInbox_cores (s : State) (ts : List Turn) : (s.withInbox ts).cores = s.cores := rfl
@[simp] theorem State.withInbox_mem (s : State) (ts : List Turn) : (s.withInbox ts).mem = s.mem := rfl
@[simp] theorem State.withInbox_byteOrder (s : State) (ts : List Turn) : (s.withInbox ts).byteOrder = s.byteOrder := rfl
@[simp] theorem State.withInbox_inbox (s : State) (ts : List Turn) : (s.withInbox ts).inbox = ts := rfl
@[simp] theorem State.withInbox_sel (s : State) (ts : List Turn) : (s.withInbox ts).sel = s.sel := rfl
@[simp] theorem State.withInbox_reply (s : State) (ts : List Turn) : (s.withInbox ts).reply = s.reply := rfl
@[simp] theorem State.withInbox_draws (s : State) (ts : List Turn) : (s.withInbox ts).draws = s.draws := rfl

@[simp] theorem State.withSel_cores (s : State) (k : Nat) : (s.withSel k).cores = s.cores := rfl
@[simp] theorem State.withSel_mem (s : State) (k : Nat) : (s.withSel k).mem = s.mem := rfl
@[simp] theorem State.withSel_byteOrder (s : State) (k : Nat) : (s.withSel k).byteOrder = s.byteOrder := rfl
@[simp] theorem State.withSel_inbox (s : State) (k : Nat) : (s.withSel k).inbox = s.inbox := rfl
@[simp] theorem State.withSel_sel (s : State) (k : Nat) : (s.withSel k).sel = k := rfl
@[simp] theorem State.withSel_reply (s : State) (k : Nat) : (s.withSel k).reply = s.reply := rfl
@[simp] theorem State.withSel_draws (s : State) (k : Nat) : (s.withSel k).draws = s.draws := rfl

@[simp] theorem State.withReply_cores (s : State) (v : W64) : (s.withReply v).cores = s.cores := rfl
@[simp] theorem State.withReply_mem (s : State) (v : W64) : (s.withReply v).mem = s.mem := rfl
@[simp] theorem State.withReply_byteOrder (s : State) (v : W64) : (s.withReply v).byteOrder = s.byteOrder := rfl
@[simp] theorem State.withReply_inbox (s : State) (v : W64) : (s.withReply v).inbox = s.inbox := rfl
@[simp] theorem State.withReply_sel (s : State) (v : W64) : (s.withReply v).sel = s.sel := rfl
@[simp] theorem State.withReply_reply (s : State) (v : W64) : (s.withReply v).reply = some v := rfl
@[simp] theorem State.withReply_draws (s : State) (v : W64) : (s.withReply v).draws = s.draws := rfl

@[simp] theorem State.drawn_cores (s : State) : (s.drawn).cores = s.cores := rfl
@[simp] theorem State.drawn_mem (s : State) : (s.drawn).mem = s.mem := rfl
@[simp] theorem State.drawn_byteOrder (s : State) : (s.drawn).byteOrder = s.byteOrder := rfl
@[simp] theorem State.drawn_inbox (s : State) : (s.drawn).inbox = s.inbox := rfl
@[simp] theorem State.drawn_sel (s : State) : (s.drawn).sel = s.sel := rfl
@[simp] theorem State.drawn_reply (s : State) : (s.drawn).reply = s.reply := rfl
@[simp] theorem State.drawn_draws (s : State) : (s.drawn).draws = s.draws + 1 := rfl

/-! ## Updates of a core -/

@[simp] theorem CoreState.started_size (c : CoreState) (w : W64) : (c.started w).size = c.size := rfl
@[simp] theorem CoreState.started_key0 (c : CoreState) (w : W64) : (c.started w).key0 = c.key0 := rfl
@[simp] theorem CoreState.started_key1 (c : CoreState) (w : W64) : (c.started w).key1 = c.key1 := rfl
@[simp] theorem CoreState.started_ctr0 (c : CoreState) (w : W64) : (c.started w).ctr0 = c.ctr0 := rfl
@[simp] theorem CoreState.started_ctr1 (c : CoreState) (w : W64) : (c.started w).ctr1 = c.ctr1 := rfl
@[simp] theorem CoreState.started_cmd (c : CoreState) (w : W64) : (c.started w).cmd = Reg.of w := rfl
@[simp] theorem CoreState.started_busy (c : CoreState) (w : W64) : (c.started w).busy = true := rfl
@[simp] theorem CoreState.started_done (c : CoreState) (w : W64) : (c.started w).done = false := rfl
@[simp] theorem CoreState.started_index (c : CoreState) (w : W64) : (c.started w).index = 0#64 := rfl
@[simp] theorem CoreState.started_cctr (c : CoreState) (w : W64) : (c.started w).cctr = c.ctr1.val := rfl
@[simp] theorem CoreState.started_out (c : CoreState) (w : W64) : (c.started w).out = c.out := rfl

@[simp] theorem CoreState.advanced_size (c : CoreState) : (c.advanced).size = c.size := rfl
@[simp] theorem CoreState.advanced_key0 (c : CoreState) : (c.advanced).key0 = c.key0 := rfl
@[simp] theorem CoreState.advanced_key1 (c : CoreState) : (c.advanced).key1 = c.key1 := rfl
@[simp] theorem CoreState.advanced_ctr0 (c : CoreState) : (c.advanced).ctr0 = c.ctr0 := rfl
@[simp] theorem CoreState.advanced_ctr1 (c : CoreState) : (c.advanced).ctr1 = c.ctr1 := rfl
@[simp] theorem CoreState.advanced_cmd (c : CoreState) : (c.advanced).cmd = c.cmd := rfl
@[simp] theorem CoreState.advanced_busy (c : CoreState) : (c.advanced).busy = c.busy := rfl
@[simp] theorem CoreState.advanced_done (c : CoreState) : (c.advanced).done = c.done := rfl
@[simp] theorem CoreState.advanced_index (c : CoreState) : (c.advanced).index = c.index + 1#64 := rfl
@[simp] theorem CoreState.advanced_cctr (c : CoreState) : (c.advanced).cctr = ctrInc c.cctr := rfl
@[simp] theorem CoreState.advanced_out (c : CoreState) : (c.advanced).out = c.out := rfl

@[simp] theorem CoreState.completed_size (c : CoreState) : (c.completed).size = c.size := rfl
@[simp] theorem CoreState.completed_key0 (c : CoreState) : (c.completed).key0 = c.key0 := rfl
@[simp] theorem CoreState.completed_key1 (c : CoreState) : (c.completed).key1 = c.key1 := rfl
@[simp] theorem CoreState.completed_ctr0 (c : CoreState) : (c.completed).ctr0 = c.ctr0 := rfl
@[simp] theorem CoreState.completed_ctr1 (c : CoreState) : (c.completed).ctr1 = c.ctr1 := rfl
@[simp] theorem CoreState.completed_cmd (c : CoreState) : (c.completed).cmd = c.cmd := rfl
@[simp] theorem CoreState.completed_busy (c : CoreState) : (c.completed).busy = false := rfl
@[simp] theorem CoreState.completed_done (c : CoreState) : (c.completed).done = true := rfl
@[simp] theorem CoreState.completed_index (c : CoreState) : (c.completed).index = c.index := rfl
@[simp] theorem CoreState.completed_cctr (c : CoreState) : (c.completed).cctr = c.cctr := rfl
@[simp] theorem CoreState.completed_out (c : CoreState) : (c.completed).out = c.out := rfl

/-! ## Registers -/

@[simp] theorem Reg.of_val (v : W64) : (Reg.of v).val = v := rfl
@[simp] theorem Reg.of_held (v : W64) : (Reg.of v).held = true := rfl
@[simp] theorem Reg.unwritten_held : Reg.unwritten.held = false := rfl
@[simp] theorem Reg.read_of (v : W64) : (Reg.of v).read = .ok v := rfl
@[simp] theorem Reg.read_unwritten : Reg.unwritten.read = .error .readUnwritten := rfl

/-! ## The core whose turn it is -/

theorem State.current?_eq (s : State) : s.current? = s.cores[s.sel]? := rfl

/-- Putting a core back at its own place leaves it there. -/
theorem State.setCurrent_current? (s : State) (c d : CoreState) (h : s.current? = some d) :
    (s.setCurrent c).current? = some c := by
  have hlt : s.sel < s.cores.length := (List.getElem?_eq_some_iff.mp h).1
  simp [State.current?, hlt]

/-- Every other core stays as it was. -/
theorem State.setCurrent_other (s : State) (c : CoreState) (j : Nat) (h : j ≠ s.sel) :
    (s.setCurrent c).cores[j]? = s.cores[j]? := by
  simp [List.getElem?_set_ne (Ne.symm h)]

/-- A core of the new state is the one put back, or an old one. -/
theorem State.setCurrent_getElem? (s : State) (c : CoreState) (j : Nat) (d : CoreState)
    (h : (s.setCurrent c).cores[j]? = some d) : (j = s.sel ∧ d = c) ∨ (j ≠ s.sel ∧ s.cores[j]? = some d) := by
  by_cases hj : j = s.sel
  · subst hj
    simp only [State.setCurrent_cores, List.getElem?_set_self'] at h
    cases hc : s.cores[s.sel]? with
    | none => simp [hc] at h
    | some e => simp [hc] at h; exact .inl ⟨rfl, h.symm⟩
  · exact .inr ⟨hj, by rwa [State.setCurrent_other s c j hj] at h⟩

/-! ## The other cores -/

/-- What `anyOtherCore` says. -/
theorem anyOtherCore_eq_true (cores : List CoreState) (k : Nat) (p : CoreState → Bool) :
    anyOtherCore cores k p = true ↔ ∃ j c, j ≠ k ∧ cores[j]? = some c ∧ p c = true := by
  unfold anyOtherCore
  rw [List.any_eq_true]
  constructor
  · rintro ⟨j, -, h⟩
    cases hc : cores[j]? with
    | none => simp [hc] at h
    | some c => simp [hc] at h; exact ⟨j, c, h.1, hc, h.2⟩
  · rintro ⟨j, c, hj, hc, hp⟩
    refine ⟨j, List.mem_range.mpr (List.getElem?_eq_some_iff.mp hc).1, ?_⟩
    simp [hc, hj, hp]

/-- A core BUSY on a window overlapping `w`. -/
theorem CoreState.busyOver_eq_true (w : Window) (c : CoreState) :
    c.busyOver w = true ↔ c.busy = true ∧ ∃ v, c.out = some v ∧ v.overlaps w = true := by
  unfold CoreState.busyOver
  cases h : c.out <;> simp

/-- Sharing an element is symmetric (20_memory.md R41). -/
theorem Window.overlaps_comm (v w : Window) : v.overlaps w = w.overlaps v := by
  unfold Window.overlaps
  rw [Bool.eq_iff_iff]
  simp only [Bool.and_eq_true, decide_eq_true_eq]
  constructor <;> rintro ⟨⟨⟨⟨h1, h2⟩, h3⟩, h4⟩, h5⟩ <;> exact ⟨⟨⟨⟨h1.symm, h3⟩, h2⟩, h5⟩, h4⟩

end Sys2Proof.Machine
end

