-- ==== Sys2Proof/Laws/Driver.lean ====
section
/-! SUPPORT. What a phase of a command can do, said once: the three ways runCommand answers a next state, each with its
conditions, and the same read the other way (42_driver.md R93, R97, R98). -/

namespace Sys2Proof.Machine

/-- Every command is the one shared operation with its own word and transform. -/
theorem exec_eq_runCommand (i : Instr) (s : State) : exec i s = runCommand i (transformOf i) s := by
  cases i <;> rfl

/-- The start of a command (42_driver.md R93). -/
theorem runCommand_start (i : Instr) (xf : Transform) (s : State) (c : CoreState) (w : Window)
    (hc : s.current? = some c) (hb : c.busy = false) (hh : c.operandsHeld = true) (ho : c.out = some w)
    (hs : c.size.val.toNat ≤ w.cap.toNat) (hn : anyOtherCore s.cores s.sel (CoreState.busyOver w) = false) :
    runCommand i xf s = .next (s.setCurrent (c.started (encode i))) := by
  simp [runCommand, hc, hb, startCommand, hh, ho, Nat.not_lt.mpr hs, hn]

/-- The element step (42_driver.md R97). -/
theorem runCommand_element (i : Instr) (xf : Transform) (s : State) (c : CoreState) (a : Nat)
    (hc : s.current? = some c) (hb : c.busy = true) (hi : c.cmd.val = encode i)
    (hlt : c.index.toNat < c.size.val.toNat) (ha : c.storeAddress? = some a) :
    runCommand i xf s =
      .next ((s.withMem (s.mem.writeElement s.byteOrder a (xf c.block.1 c.block.2))).setCurrent c.advanced) := by
  simp [runCommand, hc, hb, hi, driverStep, hlt, elementStep, ha]

/-- The completion step (42_driver.md R98). -/
theorem runCommand_complete (i : Instr) (xf : Transform) (s : State) (c : CoreState)
    (hc : s.current? = some c) (hb : c.busy = true) (hi : c.cmd.val = encode i) (he : c.index = c.size.val) :
    runCommand i xf s = .next (s.setCurrent c.completed) := by
  simp [runCommand, hc, hb, hi, driverStep, he, completeStep]

/-- A command that answers a next state has started, stored an element, or completed. -/
theorem runCommand_cases (i : Instr) (xf : Transform) (s t : State) (h : runCommand i xf s = .next t) :
    ∃ c, s.current? = some c ∧
      ((c.busy = false ∧ c.operandsHeld = true ∧
          (∃ w, c.out = some w ∧ c.size.val.toNat ≤ w.cap.toNat ∧
            anyOtherCore s.cores s.sel (CoreState.busyOver w) = false) ∧
          t = s.setCurrent (c.started (encode i))) ∨
        (c.busy = true ∧ c.cmd.val = encode i ∧ c.index.toNat < c.size.val.toNat ∧
          ∃ a, c.storeAddress? = some a ∧
            t = (s.withMem (s.mem.writeElement s.byteOrder a (xf c.block.1 c.block.2))).setCurrent c.advanced) ∨
        (c.busy = true ∧ c.cmd.val = encode i ∧ c.index = c.size.val ∧ t = s.setCurrent c.completed)) := by
  unfold runCommand at h
  cases hc : s.current? with
  | none => simp [hc] at h
  | some c =>
    refine ⟨c, rfl, ?_⟩
    simp only [hc] at h
    by_cases hb : c.busy = false
    · rw [if_pos hb] at h
      unfold startCommand at h
      split at h
      · simp at h
      · rename_i hh
        cases ho : c.out with
        | none => simp [ho] at h
        | some w =>
          simp only [ho] at h
          split at h
          · simp at h
          · rename_i hs
            split at h
            · simp at h
            · rename_i hn
              exact .inl ⟨hb, by simpa using hh, ⟨w, rfl, Nat.not_lt.mp hs, by simpa using hn⟩, by simpa using h.symm⟩
    · rw [if_neg hb] at h
      have hb' : c.busy = true := by simpa using hb
      split at h
      · rename_i hi
        unfold driverStep at h
        split at h
        · rename_i hlt
          unfold elementStep at h
          cases ha : c.storeAddress? with
          | none => simp [ha] at h
          | some a =>
            simp only [ha] at h
            exact .inr (.inl ⟨hb', hi, hlt, a, rfl, by simpa using h.symm⟩)
        · split at h
          · rename_i he
            exact .inr (.inr ⟨hb', hi, he, by simpa [completeStep] using h.symm⟩)
          · simp at h
      · simp at h

end Sys2Proof.Machine
end

