-- ==== Sys2Proof/Laws/Memory.lean ====
section
/-! SUPPORT. The laws of the output memory: a read after a write, other places untouched, the canonical form kept; the same
for runs of bytes and for whole elements; and the addresses of a window (20_memory.md R28, R31, R33). -/

namespace Sys2Proof.Machine

/-! ## Bytes -/

theorem Memory.read?_write_self (m : Memory) (a : Nat) (b : Byte) : Memory.read? (Memory.write m a b) a = some b := by
  induction m with
  | nil => simp [Memory.write, Memory.read?]
  | cons c m ih =>
    obtain ⟨x, d⟩ := c
    simp only [Memory.write]
    split_ifs with h1 h2
    · simp [Memory.read?]
    · simp [Memory.read?]
    · simp [Memory.read?, Ne.symm h2, ih]

theorem Memory.read?_write_of_ne (m : Memory) (a x : Nat) (b : Byte) (h : x ≠ a) :
    Memory.read? (Memory.write m a b) x = Memory.read? m x := by
  induction m with
  | nil => simp [Memory.write, Memory.read?, Ne.symm h]
  | cons c m ih =>
    obtain ⟨y, d⟩ := c
    simp only [Memory.write]
    split_ifs with h1 h2
    · simp [Memory.read?, Ne.symm h]
    · subst h2; simp [Memory.read?, Ne.symm h]
    · simp only [Memory.read?, ih]

/-- A write of one byte, read anywhere. -/
theorem Memory.read?_write (m : Memory) (a x : Nat) (b : Byte) :
    Memory.read? (Memory.write m a b) x = if x = a then some b else Memory.read? m x := by
  split_ifs with h
  · rw [h, Memory.read?_write_self]
  · exact Memory.read?_write_of_ne m a x b h

/-! ## The canonical form -/

/-- The canonical form as a statement about the addresses. -/
theorem Memory.wf_iff (m : Memory) : Memory.wf m = true ↔ m.Pairwise fun p q => p.1 < q.1 := by
  induction m with
  | nil => simp [Memory.wf]
  | cons c m ih =>
    obtain ⟨a, b⟩ := c
    cases m with
    | nil => simp [Memory.wf]
    | cons d m =>
      obtain ⟨x, y⟩ := d
      simp only [Memory.wf, Bool.and_eq_true, decide_eq_true_eq, ih]
      constructor
      · rintro ⟨h1, h2⟩
        refine List.Pairwise.cons ?_ h2
        intro q hq
        rcases List.mem_cons.mp hq with rfl | hq
        · exact h1
        · exact h1.trans ((List.pairwise_cons.mp h2).1 q hq)
      · intro h
        exact ⟨(List.pairwise_cons.mp h).1 _ List.mem_cons_self, (List.pairwise_cons.mp h).2⟩

theorem Memory.mem_write (m : Memory) (a : Nat) (b : Byte) (p : Host.Cell) (h : p ∈ Memory.write m a b) :
    p = (a, b) ∨ p ∈ m := by
  induction m with
  | nil => simpa [Memory.write] using h
  | cons c m ih =>
    obtain ⟨x, d⟩ := c
    simp only [Memory.write] at h
    split_ifs at h with h1 h2
    · simpa using h
    · rcases List.mem_cons.mp h with h | h
      · exact .inl h
      · exact .inr (List.mem_cons_of_mem _ h)
    · rcases List.mem_cons.mp h with h | h
      · exact .inr (h ▸ List.mem_cons_self)
      · exact (ih h).imp_right (List.mem_cons_of_mem _)

/-- A write keeps the canonical form. -/
theorem Memory.wf_write (m : Memory) (a : Nat) (b : Byte) (h : Memory.wf m = true) :
    Memory.wf (Memory.write m a b) = true := by
  rw [Memory.wf_iff] at h ⊢
  induction m with
  | nil => simp [Memory.write]
  | cons c m ih =>
    obtain ⟨x, d⟩ := c
    obtain ⟨hx, hm⟩ := List.pairwise_cons.mp h
    simp only [Memory.write]
    split_ifs with h1 h2
    · refine List.Pairwise.cons (fun q hq => ?_) h
      rcases List.mem_cons.mp hq with rfl | hq
      · exact h1
      · exact h1.trans (hx q hq)
    · subst h2
      exact List.Pairwise.cons hx hm
    · refine List.Pairwise.cons (fun q hq => ?_) (ih hm)
      rcases Memory.mem_write m a b q hq with rfl | hq
      · show x < a
        omega
      · exact hx q hq

theorem Memory.read?_eq_none_of_lt (m : Memory) (x : Nat) (h : ∀ p ∈ m, x < p.1) : Memory.read? m x = none := by
  induction m with
  | nil => rfl
  | cons c m ih =>
    obtain ⟨a, b⟩ := c
    have ha : x < a := h _ List.mem_cons_self
    have : a ≠ x := by omega
    simp only [Memory.read?, if_neg this]
    exact ih fun p hp => h p (List.mem_cons_of_mem _ hp)

/-- Canonical memories that read alike everywhere are the same list. -/
theorem Memory.ext_of_wf (m n : Memory) (hm : Memory.wf m = true) (hn : Memory.wf n = true)
    (h : ∀ x, Memory.read? m x = Memory.read? n x) : m = n := by
  rw [Memory.wf_iff] at hm hn
  induction m generalizing n with
  | nil =>
    cases n with
    | nil => rfl
    | cons d n => have := h d.1; simp [Memory.read?] at this
  | cons c m ih =>
    obtain ⟨a, b⟩ := c
    obtain ⟨ha, hm'⟩ := List.pairwise_cons.mp hm
    cases n with
    | nil => have := h a; simp [Memory.read?] at this
    | cons d n =>
      obtain ⟨x, y⟩ := d
      obtain ⟨hx, hn'⟩ := List.pairwise_cons.mp hn
      have hax : a = x := by
        by_contra hne
        rcases Nat.lt_or_gt_of_ne hne with hlt | hlt
        · have h1 := h a
          rw [Memory.read?_eq_none_of_lt ((x, y) :: n) a] at h1
          · simp [Memory.read?] at h1
          · intro p hp
            rcases List.mem_cons.mp hp with rfl | hp
            · exact hlt
            · exact hlt.trans (hx p hp)
        · have h1 := h x
          rw [Memory.read?_eq_none_of_lt ((a, b) :: m) x] at h1
          · simp [Memory.read?] at h1
          · intro p hp
            rcases List.mem_cons.mp hp with rfl | hp
            · exact hlt
            · exact hlt.trans (ha p hp)
      subst hax
      have hby : b = y := by have := h a; simpa [Memory.read?] using this
      subst hby
      congr 1
      refine ih n hm' hn' fun z => ?_
      by_cases hz : a = z
      · subst hz
        rw [Memory.read?_eq_none_of_lt m a ha, Memory.read?_eq_none_of_lt n a hx]
      · have := h z
        simpa [Memory.read?, hz] using this

/-! ## Runs of bytes -/

theorem Memory.read?_writeBytes (m : Memory) (a : Nat) (bs : List Byte) (x : Nat) :
    Memory.read? (Memory.writeBytes m a bs) x =
      if a ≤ x ∧ x < a + bs.length then bs[x - a]? else Memory.read? m x := by
  induction bs generalizing m a with
  | nil => simp [Memory.writeBytes]
  | cons b bs ih =>
    simp only [Memory.writeBytes, ih, Memory.read?_write, List.length_cons]
    by_cases h1 : x = a
    · subst h1; simp
    · by_cases h2 : a + 1 ≤ x ∧ x < a + 1 + bs.length
      · rw [if_pos h2, if_pos (by omega), show x - a = (x - (a + 1)) + 1 by omega, List.getElem?_cons_succ]
      · rw [if_neg h2, if_neg h1, if_neg (by omega)]

theorem Memory.wf_writeBytes (m : Memory) (a : Nat) (bs : List Byte) (h : Memory.wf m = true) :
    Memory.wf (Memory.writeBytes m a bs) = true := by
  induction bs generalizing m a with
  | nil => exact h
  | cons b bs ih => exact ih _ _ (Memory.wf_write m a b h)

theorem Memory.readBytes?_congr (m n : Memory) (a k : Nat)
    (h : ∀ x, a ≤ x → x < a + k → Memory.read? m x = Memory.read? n x) :
    Memory.readBytes? m a k = Memory.readBytes? n a k := by
  induction k generalizing a with
  | zero => rfl
  | succ k ih =>
    simp only [Memory.readBytes?]
    rw [h a le_rfl (by omega), ih (a + 1) fun x h1 h2 => h x (by omega) (by omega)]

theorem Memory.readBytes?_of_bytes (m : Memory) (a : Nat) (bs : List Byte)
    (h : ∀ i, i < bs.length → Memory.read? m (a + i) = bs[i]?) : Memory.readBytes? m a bs.length = some bs := by
  induction bs generalizing a with
  | nil => rfl
  | cons b bs ih =>
    have h0 : Memory.read? m a = some b := by simpa using h 0 (by simp)
    have h1 := ih (a + 1) fun i hi => by
      have := h (i + 1) (by simpa using hi)
      rw [show a + 1 + i = a + (i + 1) by omega, this, List.getElem?_cons_succ]
    simp only [List.length_cons, Memory.readBytes?, h0, h1]

/-! ## Elements -/

@[simp] theorem elementBytes_length (o : ByteOrder) (v : W64) : (elementBytes o v).length = 8 := by
  cases o <;> rfl

theorem wordOfBytes_bytesOfWord (v : W64) : wordOfBytes (bytesOfWord v) = v := by
  apply BitVec.eq_of_getLsbD_eq
  intro i hi
  simp only [bytesOfWord, wordOfBytes, BitVec.getLsbD_or, BitVec.getLsbD_shiftLeft, BitVec.getLsbD_setWidth,
    BitVec.getLsbD_extractLsb']
  interval_cases i <;> simp

/-- An element's bytes give the element back, in either byte order (20_memory.md R31). -/
theorem elementOfBytes_elementBytes (o : ByteOrder) (v : W64) : elementOfBytes o (elementBytes o v) = v := by
  cases o
  · exact wordOfBytes_bytesOfWord v
  · simp only [elementOfBytes, elementBytes, List.reverse_reverse]
    exact wordOfBytes_bytesOfWord v

/-- An element store, read back (20_memory.md R28). -/
theorem Memory.readElement?_writeElement_self (m : Memory) (o : ByteOrder) (a : Nat) (v : W64) :
    Memory.readElement? (Memory.writeElement m o a v) o a = some v := by
  have h := Memory.readBytes?_of_bytes (Memory.writeElement m o a v) a (elementBytes o v) fun i hi => by
    unfold Memory.writeElement
    rw [Memory.read?_writeBytes, if_pos (by omega), show a + i - a = i by omega]
  rw [elementBytes_length] at h
  unfold Memory.readElement?
  rw [h]
  exact congrArg some (elementOfBytes_elementBytes o v)

/-- An element store leaves every byte outside its eight alone (20_memory.md R35). -/
theorem Memory.read?_writeElement_outside (m : Memory) (o : ByteOrder) (a : Nat) (v : W64) (x : Nat)
    (h : x < a ∨ a + 8 ≤ x) : Memory.read? (Memory.writeElement m o a v) x = Memory.read? m x := by
  unfold Memory.writeElement
  rw [Memory.read?_writeBytes, if_neg (by rw [elementBytes_length]; omega)]

/-- An element store leaves an element that shares no byte with it alone. -/
theorem Memory.readElement?_writeElement_of_disjoint (m : Memory) (o : ByteOrder) (a x : Nat) (v : W64)
    (h : x + 8 ≤ a ∨ a + 8 ≤ x) :
    Memory.readElement? (Memory.writeElement m o a v) o x = Memory.readElement? m o x := by
  unfold Memory.readElement?
  rw [Memory.readBytes?_congr _ m x 8 fun y h1 h2 =>
    Memory.read?_writeElement_outside m o a v y (by omega)]

theorem Memory.wf_writeElement (m : Memory) (o : ByteOrder) (a : Nat) (v : W64) (h : Memory.wf m = true) :
    Memory.wf (Memory.writeElement m o a v) = true :=
  Memory.wf_writeBytes m a _ h

/-! ## Windows -/

theorem Window.address_add (w : Window) (i : Nat) : w.address i = w.address 0 + 8 * i := by
  unfold Window.address; omega

/-- The bytes of OUT lie inside the window. -/
theorem outAddress?_eq_some (out : Option Window) (i a : Nat) :
    outAddress? out i = some a ↔ ∃ w, out = some w ∧ i < w.cap.toNat ∧ a = w.address i := by
  unfold outAddress?
  cases out with
  | none => simp
  | some w =>
    simp only [Option.some.injEq]
    constructor
    · intro h
      split_ifs at h with hi
      exact ⟨w, rfl, hi, (Option.some.inj h).symm⟩
    · rintro ⟨v, rfl, hi, rfl⟩
      simp [hi]

/-- Elements of windows that do not overlap share no byte (20_memory.md R41). -/
theorem Window.address_disjoint (v w : Window) (h : v.overlaps w = false) (i j : Nat) (hi : i < v.cap.toNat)
    (hj : j < w.cap.toNat) : v.address i + 8 ≤ w.address j ∨ w.address j + 8 ≤ v.address i := by
  have hv := v.base.isLt
  have hw := w.base.isLt
  have hcv := v.cap.isLt
  have hcw := w.cap.isLt
  unfold Window.address
  by_cases ha : v.array = w.array
  · have : ¬(v.base.toNat < w.base.toNat + w.cap.toNat ∧ w.base.toNat < v.base.toNat + v.cap.toNat) := by
      rintro ⟨h1, h2⟩
      have : v.overlaps w = true := by
        simp only [Window.overlaps, Bool.and_eq_true, decide_eq_true_eq]
        exact ⟨⟨⟨⟨ha, by omega⟩, by omega⟩, h1⟩, h2⟩
      rw [this] at h
      exact absurd h (by simp)
    rw [ha]
    omega
  · have step : ∀ a b : Nat, a < b → a * 2 ^ 68 + 2 ^ 68 ≤ b * 2 ^ 68 := fun a b h => by
      calc a * 2 ^ 68 + 2 ^ 68 = (a + 1) * 2 ^ 68 := by ring
        _ ≤ b * 2 ^ 68 := Nat.mul_le_mul_right _ h
    have apart : ∀ p q x y z : Nat, p + z ≤ q → x + 8 ≤ z → p + x + 8 ≤ q + y := fun p q x y z h1 h2 => by omega
    rcases Nat.lt_or_gt_of_ne ha with hlt | hlt
    · exact .inl (apart _ _ _ _ _ (step _ _ hlt) (by omega))
    · exact .inr (apart _ _ _ _ _ (step _ _ hlt) (by omega))

end Sys2Proof.Machine
end

