-- ==== Sys2Proof/Laws/Normal.lean ====
section
/-! SUPPORT. The series of the inverse hyperbolic tangent, the sine and the inverse tangent that NORMAL_FN sums bound their
functions from below, and the relative error shrinks by `slack n` with the precision (41_distributions.md R82 to R86). -/

namespace Sys2Proof.Machine

/-! ## Fractions as real numbers -/

/-- The value of a fraction. -/
noncomputable def Frac.val (q : Frac) : ℝ := (q.num : ℝ) / q.den

theorem Frac.val_scale (a b : Nat) (q : Frac) : (q.scale a b).val = (a : ℝ) / b * q.val := by
  simp only [Frac.val, Frac.scale]
  push_cast
  rw [mul_div_mul_comm]

theorem Frac.val_mul (q r : Frac) : (q.mul r).val = q.val * r.val := by
  simp only [Frac.val, Frac.mul]
  push_cast
  rw [mul_div_mul_comm]

theorem Frac.val_add (q r : Frac) (hq : 0 < q.den) (hr : 0 < r.den) : (q.add r).val = q.val + r.val := by
  have h1 : (q.den : ℝ) ≠ 0 := by positivity
  have h2 : (r.den : ℝ) ≠ 0 := by positivity
  simp only [Frac.val, Frac.add]
  push_cast
  field_simp

/-! ## Precision -/

/-- What a precision of `n` leaves of the relative error of every bound. -/
noncomputable def slack (n : ℕ) : ℝ := 1 / 2 ^ (2 * n)

theorem slack_pos (n : ℕ) : 0 < slack n := by unfold slack; positivity

theorem slack_le_one (n : ℕ) : slack n ≤ 1 := by
  unfold slack
  rw [div_le_one (by positivity)]
  exact one_le_pow₀ (by norm_num)

/-- Powers of anything up to a quarter are within the precision. -/
theorem pow_le_slack (r : ℝ) (n : ℕ) (h0 : 0 ≤ r) (h1 : r ≤ 1 / 4) : r ^ n ≤ slack n := by
  have e : slack n = (1 / 4) ^ n := by
    unfold slack
    rw [pow_mul, one_div_pow]
    norm_num
  rw [e]
  exact pow_le_pow_left₀ h0 h1 n

/-- Some precision is below any positive bound. -/
theorem exists_slack_lt (x : ℝ) (hx : 0 < x) : ∃ n, slack n < x := by
  obtain ⟨n, hn⟩ := exists_pow_lt_of_lt_one hx (show (1 / 4 : ℝ) < 1 by norm_num)
  refine ⟨n, lt_of_eq_of_lt ?_ hn⟩
  unfold slack
  rw [pow_mul, one_div_pow]
  norm_num

/-! ## The inverse hyperbolic tangent -/

theorem atanhTail_den_pos (a b n k : Nat) (hb : 0 < b) : 0 < (atanhTail a b n k).den := by
  induction n generalizing k with
  | zero => simp [atanhTail]
  | succ n ih => have := ih (k + 1); simp only [atanhTail]; positivity

theorem atanhTail_val (a b n k : Nat) (hb : 0 < b) :
    (atanhTail a b n k).val = ∑ i ∈ Finset.range n, (((a : ℝ) / b) ^ 2) ^ i / (2 * ((k : ℝ) + i) + 1) := by
  induction n generalizing k with
  | zero => simp [atanhTail, Frac.val]
  | succ n ih =>
    have hd := atanhTail_den_pos a b n (k + 1) hb
    have h := ih (k + 1)
    have hb' : (b : ℝ) ≠ 0 := by positivity
    have hd' : ((atanhTail a b n (k + 1)).den : ℝ) ≠ 0 := by positivity
    have hk : (2 * (k : ℝ) + 1) ≠ 0 := by positivity
    rw [Finset.sum_range_succ']
    have e : (atanhTail a b (n + 1) k).val = 1 / (2 * (k : ℝ) + 1) + ((a : ℝ) / b) ^ 2 * (atanhTail a b n (k + 1)).val := by
      simp only [Frac.val, atanhTail]
      push_cast
      field_simp
    rw [e, h, Finset.mul_sum, add_comm]
    congr 1
    · refine Finset.sum_congr rfl fun i _ => ?_
      push_cast
      rw [pow_succ]
      ring
    · simp

/-- The inverse hyperbolic tangent, as half a difference of logarithms. -/
noncomputable def artanh (w : ℝ) : ℝ := (Real.log (1 + w) - Real.log (1 - w)) / 2

theorem artanh_bounds (n : ℕ) (w t : ℝ) (h0 : 0 ≤ w) (h1 : w ≤ 1 / 3)
    (hts : t = w * ∑ i ∈ Finset.range (30 + n), (w ^ 2) ^ i / (2 * (((0 : ℕ) : ℝ) + i) + 1)) :
    t ≤ artanh w ∧ artanh w ≤ t * (1 + slack n / 2 ^ 90) := by
  have hw : |w| < 1 := by rw [abs_of_nonneg h0]; linarith
  have hs := Real.hasSum_log_sub_log_of_abs_lt_one hw
  have hs2 : HasSum (fun k : ℕ => w ^ (2 * k + 1) / (2 * k + 1)) (artanh w) := by
    have := hs.div_const 2
    refine this.congr_fun ?_ |> id
    intro k
    ring
  have ht : t = ∑ k ∈ Finset.range (30 + n), w ^ (2 * k + 1) / (2 * (k : ℝ) + 1) := by
    rw [hts, Finset.mul_sum]
    refine Finset.sum_congr rfl fun k _ => ?_
    rw [Nat.cast_zero, pow_succ w (2 * k), pow_mul]
    ring
  have hnn : ∀ k : ℕ, 0 ≤ w ^ (2 * k + 1) / (2 * (k : ℝ) + 1) := fun k => by positivity
  have hlow : t ≤ artanh w := by
    rw [ht]; exact sum_le_hasSum _ (fun k _ => hnn k) hs2
  refine ⟨hlow, ?_⟩
  have hwt : w ≤ t := by
    rw [ht]
    have h := Finset.single_le_sum (f := fun k : ℕ => w ^ (2 * k + 1) / (2 * (k : ℝ) + 1))
      (fun k _ => hnn k) (Finset.mem_range.mpr (show 0 < 30 + n by omega))
    have e : w ^ (2 * 0 + 1) / (2 * ((0 : ℕ) : ℝ) + 1) = w := by norm_num
    exact e.symm.le.trans h
  have htail : HasSum (fun k : ℕ => w ^ (2 * (k + (30 + n)) + 1) / (2 * ((k + (30 + n) : ℕ) : ℝ) + 1)) (artanh w - t) := by
    rw [ht]
    exact (hasSum_nat_add_iff' (f := fun k : ℕ => w ^ (2 * k + 1) / (2 * (k : ℝ) + 1)) (30 + n)).mpr hs2
  have hgeo : HasSum (fun k : ℕ => w * (1 / 9) ^ (30 + n) * (1 / 9 : ℝ) ^ k)
      (w * (1 / 9) ^ (30 + n) * (1 - 1 / 9)⁻¹) :=
    (hasSum_geometric_of_lt_one (by norm_num) (by norm_num)).mul_left _
  have hle : artanh w - t ≤ w * (1 / 9) ^ (30 + n) * (1 - 1 / 9)⁻¹ := by
    refine hasSum_le (fun k => ?_) htail hgeo
    have h9 : w ^ 2 ≤ 1 / 9 := by nlinarith
    have hp : (w ^ 2) ^ (k + (30 + n)) ≤ (1 / 9) ^ (k + (30 + n)) := pow_le_pow_left₀ (by positivity) h9 _
    have hden : (1 : ℝ) ≤ 2 * ((k + (30 + n) : ℕ) : ℝ) + 1 := by
      have : (0 : ℝ) ≤ ((k + (30 + n) : ℕ) : ℝ) := by positivity
      linarith
    calc w ^ (2 * (k + (30 + n)) + 1) / (2 * ((k + (30 + n) : ℕ) : ℝ) + 1) ≤ w ^ (2 * (k + (30 + n)) + 1) :=
          div_le_self (by positivity) hden
      _ = w * (w ^ 2) ^ (k + (30 + n)) := by rw [pow_succ, pow_mul]; ring
      _ ≤ w * (1 / 9) ^ (k + (30 + n)) := by gcongr
      _ = w * (1 / 9) ^ (30 + n) * (1 / 9) ^ k := by rw [pow_add (1 / 9 : ℝ) k]; ring
  have hsl := pow_le_slack (1 / 9) n (by norm_num) (by norm_num)
  have hc : (1 / 9 : ℝ) ^ (30 + n) * (1 - 1 / 9)⁻¹ ≤ slack n / 2 ^ 90 := by
    have hn : (1 / 9 : ℝ) ^ 30 * (1 - 1 / 9)⁻¹ ≤ 1 / 2 ^ 90 := by norm_num
    calc (1 / 9 : ℝ) ^ (30 + n) * (1 - 1 / 9)⁻¹ = (1 / 9) ^ 30 * (1 - 1 / 9)⁻¹ * (1 / 9) ^ n := by rw [pow_add]; ring
      _ ≤ 1 / 2 ^ 90 * slack n := mul_le_mul hn hsl (by positivity) (by positivity)
      _ = slack n / 2 ^ 90 := by ring
  have : w * ((1 / 9 : ℝ) ^ (30 + n) * (1 - 1 / 9)⁻¹) ≤ t * (slack n / 2 ^ 90) :=
    mul_le_mul hwt hc (by positivity) (by linarith)
  nlinarith

theorem atanhLow_bounds (n a b : Nat) (hb : 0 < b) (h : 3 * a ≤ b) :
    (atanhLow n a b).val ≤ artanh ((a : ℝ) / b) ∧
      artanh ((a : ℝ) / b) ≤ (atanhLow n a b).val * (1 + slack n / 2 ^ 90) := by
  have hb' : (0 : ℝ) < b := by positivity
  have h3 : (a : ℝ) / b ≤ 1 / 3 := by
    rw [div_le_div_iff₀ hb' (by norm_num)]
    have : (3 : ℝ) * a ≤ b := by exact_mod_cast h
    linarith
  refine artanh_bounds n ((a : ℝ) / b) _ (by positivity) h3 ?_
  rw [← atanhTail_val a b (30 + n) 0 hb]
  exact Frac.val_scale a b (atanhTail a b (30 + n) 0)

theorem atanhLow_den_pos (n a b : Nat) (hb : 0 < b) : 0 < (atanhLow n a b).den :=
  Nat.mul_pos hb (atanhTail_den_pos a b (30 + n) 0 hb)

/-- A sum of multiples of two bounded numbers is bounded by the sum of the multiples of the bounds. -/
theorem Frac.combine_bounds (j k : Nat) (u v : Frac) (x y e : ℝ) (hu : 0 < u.den) (hv : 0 < v.den)
    (hx : u.val ≤ x ∧ x ≤ u.val * (1 + e)) (hy : v.val ≤ y ∧ y ≤ v.val * (1 + e)) :
    ((u.scale j 1).add (v.scale k 1)).val ≤ j * x + k * y ∧
      j * x + k * y ≤ ((u.scale j 1).add (v.scale k 1)).val * (1 + e) := by
  have hd : 0 < (u.scale j 1).den := by simpa [Frac.scale] using hu
  have hd' : 0 < (v.scale k 1).den := by simpa [Frac.scale] using hv
  rw [Frac.val_add _ _ hd hd', Frac.val_scale, Frac.val_scale, Nat.cast_one, div_one, div_one]
  have hj : (0 : ℝ) ≤ j := by positivity
  have hk : (0 : ℝ) ≤ k := by positivity
  constructor
  · nlinarith [mul_le_mul_of_nonneg_left hx.1 hj, mul_le_mul_of_nonneg_left hy.1 hk]
  · nlinarith [mul_le_mul_of_nonneg_left hx.2 hj, mul_le_mul_of_nonneg_left hy.2 hk]

/-! ## The sine -/

theorem sinTail_den_pos (a b n k : Nat) (hb : 0 < b) : 0 < (sinTail a b n k).den := by
  induction n generalizing k with
  | zero => simp [sinTail]
  | succ n ih => have := ih (k + 1); simp only [sinTail]; positivity

/-- The same tail over the real numbers. -/
noncomputable def sinTailReal (x : ℝ) : Nat → Nat → ℝ
  | 0, _ => 1
  | n + 1, k => 1 - x ^ 2 / ((2 * (k : ℝ) + 2) * (2 * (k : ℝ) + 3)) * sinTailReal x n (k + 1)

theorem sinTailReal_mem (x : ℝ) (hx : x ^ 2 ≤ 6) (n k : Nat) : 0 ≤ sinTailReal x n k ∧ sinTailReal x n k ≤ 1 := by
  induction n generalizing k with
  | zero => simp [sinTailReal]
  | succ n ih =>
    obtain ⟨h0, h1⟩ := ih (k + 1)
    have hc : (6 : ℝ) ≤ (2 * (k : ℝ) + 2) * (2 * (k : ℝ) + 3) := by
      have : (0 : ℝ) ≤ k := by positivity
      nlinarith
    have hq : x ^ 2 / ((2 * (k : ℝ) + 2) * (2 * (k : ℝ) + 3)) ≤ 1 := by
      rw [div_le_one (by linarith)]; linarith
    have hq0 : 0 ≤ x ^ 2 / ((2 * (k : ℝ) + 2) * (2 * (k : ℝ) + 3)) := by positivity
    simp only [sinTailReal]
    constructor
    · nlinarith
    · nlinarith [mul_nonneg hq0 h0]

theorem half_le_sinTailReal (x : ℝ) (hx : x ^ 2 ≤ 3) (n k : Nat) : 1 / 2 ≤ sinTailReal x n k := by
  cases n with
  | zero => norm_num [sinTailReal]
  | succ n =>
    obtain ⟨h0, h1⟩ := sinTailReal_mem x (by linarith) n (k + 1)
    have hc : (6 : ℝ) ≤ (2 * (k : ℝ) + 2) * (2 * (k : ℝ) + 3) := by
      have : (0 : ℝ) ≤ k := by positivity
      nlinarith
    have hq : x ^ 2 / ((2 * (k : ℝ) + 2) * (2 * (k : ℝ) + 3)) ≤ 1 / 2 := by
      rw [div_le_div_iff₀ (by linarith) (by norm_num)]; linarith
    have hq0 : 0 ≤ x ^ 2 / ((2 * (k : ℝ) + 2) * (2 * (k : ℝ) + 3)) := by positivity
    simp only [sinTailReal]
    nlinarith [mul_le_mul hq h1 h0 (by norm_num)]

theorem sinTail_val (a b n k : Nat) (hb : 0 < b) (hx : ((a : ℝ) / b) ^ 2 ≤ 6) :
    (sinTail a b n k).val = sinTailReal ((a : ℝ) / b) n k := by
  induction n generalizing k with
  | zero => simp [sinTail, sinTailReal, Frac.val]
  | succ n ih =>
    have h := ih (k + 1)
    have hd := sinTail_den_pos a b n (k + 1) hb
    have hm := sinTailReal_mem ((a : ℝ) / b) hx n (k + 1)
    have hc : (6 : ℝ) ≤ (2 * (k : ℝ) + 2) * (2 * (k : ℝ) + 3) := by
      have : (0 : ℝ) ≤ k := by positivity
      nlinarith
    have hb' : (0 : ℝ) < b := by positivity
    simp only [sinTail, sinTailReal]
    rw [← h]
    rw [← h] at hm
    revert hd hm
    generalize sinTail a b n (k + 1) = r
    intro hd hm
    have hd' : (0 : ℝ) < r.den := by exact_mod_cast hd
    have hr : (r.num : ℝ) ≤ r.den := by
      have := hm.2
      simp only [Frac.val] at this
      rwa [div_le_one hd'] at this
    have ha : (a : ℝ) ^ 2 ≤ b ^ 2 * 6 := by
      rw [div_pow, div_le_iff₀ (by positivity)] at hx; linarith
    have hle : a ^ 2 * r.num ≤ b ^ 2 * ((2 * k + 2) * (2 * k + 3)) * r.den := by
      have : (a : ℝ) ^ 2 * r.num ≤ b ^ 2 * ((2 * k + 2) * (2 * k + 3)) * r.den := by
        apply mul_le_mul _ hr (by positivity) (by positivity)
        calc (a : ℝ) ^ 2 ≤ b ^ 2 * 6 := ha
          _ ≤ b ^ 2 * ((2 * k + 2) * (2 * k + 3)) := by gcongr
      exact_mod_cast this
    simp only [Frac.val]
    rw [Nat.cast_sub hle]
    push_cast
    have h2 : (0 : ℝ) < (2 * (k : ℝ) + 2) * (2 * (k : ℝ) + 3) := by linarith
    field_simp

theorem sinTailReal_sum (x : ℝ) (n k : Nat) :
    sinTailReal x n k =
      ∑ i ∈ Finset.range (n + 1), (-1) ^ i * (x ^ (2 * i) * ((2 * k + 1).factorial : ℝ) / ((2 * (k + i) + 1).factorial : ℝ)) := by
  induction n generalizing k with
  | zero =>
    have : ((2 * k + 1).factorial : ℝ) ≠ 0 := by positivity
    simp [sinTailReal, this]
  | succ n ih =>
    rw [Finset.sum_range_succ']
    simp only [sinTailReal]
    rw [ih (k + 1), Finset.mul_sum]
    have h0 : ((2 * k + 1).factorial : ℝ) ≠ 0 := by positivity
    have hf : ((2 * (k + 1) + 1).factorial : ℝ) = ((2 * (k : ℝ) + 2) * (2 * k + 3)) * ((2 * k + 1).factorial : ℝ) := by
      have : 2 * (k + 1) + 1 = (2 * k + 1) + 1 + 1 := by ring
      rw [this, Nat.factorial_succ, Nat.factorial_succ]
      push_cast
      ring
    have e0 : (-1 : ℝ) ^ 0 * (x ^ (2 * 0) * ((2 * k + 1).factorial : ℝ) / ((2 * (k + 0) + 1).factorial : ℝ)) = 1 := by
      simp [h0]
    rw [e0, sub_eq_add_neg, add_comm, ← Finset.sum_neg_distrib]
    congr 1
    refine Finset.sum_congr rfl fun i _ => ?_
    have hi : 2 * (k + 1 + i) + 1 = 2 * (k + (i + 1)) + 1 := by ring
    rw [hf, hi]
    have hF : ((2 * (k + (i + 1)) + 1).factorial : ℝ) ≠ 0 := by positivity
    have h2 : (2 * (k : ℝ) + 2) * (2 * k + 3) ≠ 0 := by positivity
    field_simp
    ring

theorem sin_partial (x : ℝ) (n : Nat) :
    x * sinTailReal x n 0 = ∑ i ∈ Finset.range (n + 1), (-1) ^ i * (x ^ (2 * i + 1) / ((2 * i + 1).factorial : ℝ)) := by
  rw [sinTailReal_sum, Finset.mul_sum]
  refine Finset.sum_congr rfl fun i _ => ?_
  simp only [Nat.mul_zero, Nat.zero_add, Nat.factorial_one, Nat.cast_one]
  rw [pow_succ]
  ring

theorem sin_terms_antitone (x : ℝ) (h0 : 0 ≤ x) (h1 : x ^ 2 ≤ 6) :
    Antitone fun i : ℕ => x ^ (2 * i + 1) / ((2 * i + 1).factorial : ℝ) := by
  refine antitone_nat_of_succ_le fun i => ?_
  have e : 2 * (i + 1) + 1 = (2 * i + 1) + 1 + 1 := by ring
  have hf : ((2 * (i + 1) + 1).factorial : ℝ) = ((2 * (i : ℝ) + 3) * (2 * i + 2)) * ((2 * i + 1).factorial : ℝ) := by
    rw [e, Nat.factorial_succ, Nat.factorial_succ]
    push_cast
    ring
  rw [hf, e, pow_succ, pow_succ]
  have hF : (0 : ℝ) < ((2 * i + 1).factorial : ℝ) := by positivity
  have hi : (0 : ℝ) ≤ i := by positivity
  rw [div_le_div_iff₀ (by positivity) hF]
  have : x * x ≤ (2 * (i : ℝ) + 3) * (2 * i + 2) := by nlinarith
  have hp : 0 ≤ x ^ (2 * i + 1) * ((2 * i + 1).factorial : ℝ) := by positivity
  nlinarith [mul_le_mul_of_nonneg_left this hp]

/-- From the second term on, two more terms of the sine at least quarter a term. -/
theorem sin_term_quarter (x : ℝ) (h0 : 0 ≤ x) (h1 : x ^ 2 ≤ 6) (i : ℕ) (hi : 1 ≤ i) :
    x ^ (2 * (i + 2) + 1) / ((2 * (i + 2) + 1).factorial : ℝ) ≤ x ^ (2 * i + 1) / ((2 * i + 1).factorial : ℝ) / 4 := by
  have e : 2 * (i + 2) + 1 = (2 * i + 1) + 1 + 1 + 1 + 1 := by ring
  have hf : ((2 * (i + 2) + 1).factorial : ℝ) =
      ((2 * (i : ℝ) + 5) * (2 * i + 4) * ((2 * i + 3) * (2 * i + 2))) * ((2 * i + 1).factorial : ℝ) := by
    rw [e]
    simp only [Nat.factorial_succ]
    push_cast
    ring
  have hF : (0 : ℝ) < ((2 * i + 1).factorial : ℝ) := by positivity
  have hi' : (1 : ℝ) ≤ i := by exact_mod_cast hi
  have hp : 0 ≤ x ^ (2 * i + 1) := by positivity
  have hx : x ^ (2 * (i + 2) + 1) = x ^ (2 * i + 1) * (x ^ 2 * x ^ 2) := by ring
  rw [hf, hx, div_div, div_le_div_iff₀ (by positivity) (by positivity)]
  have hq : x ^ 2 * x ^ 2 ≤ 36 := by nlinarith [sq_nonneg x]
  have hc : (144 : ℝ) ≤ (2 * (i : ℝ) + 5) * (2 * i + 4) * ((2 * i + 3) * (2 * i + 2)) := by
    have a1 : (42 : ℝ) ≤ (2 * (i : ℝ) + 5) * (2 * i + 4) := by nlinarith
    have a2 : (20 : ℝ) ≤ (2 * (i : ℝ) + 3) * (2 * i + 2) := by nlinarith
    nlinarith [mul_le_mul a1 a2 (by norm_num) (by linarith)]
  have hmain : x ^ 2 * x ^ 2 * 4 ≤ (2 * (i : ℝ) + 5) * (2 * i + 4) * ((2 * i + 3) * (2 * i + 2)) := by linarith
  nlinarith [mul_le_mul_of_nonneg_left hmain (mul_nonneg hp hF.le)]

/-- The first term of the sine left out at precision `n`. -/
theorem sin_term_slack (x : ℝ) (h0 : 0 ≤ x) (h1 : x ≤ 1.6) (n : ℕ) :
    x ^ (2 * (14 + 2 * n) + 1) / ((2 * (14 + 2 * n) + 1).factorial : ℝ) ≤ x * (slack n / 2 ^ 70) := by
  have h6 : x ^ 2 ≤ 6 := by nlinarith
  induction n with
  | zero =>
    have e : ((2 * (14 + 2 * 0) + 1).factorial : ℝ) = 8841761993739701954543616000000 := by norm_num [Nat.factorial]
    have hs : slack 0 = 1 := by norm_num [slack]
    rw [e, hs]
    have hp : x ^ 28 ≤ 1.6 ^ 28 := pow_le_pow_left₀ h0 h1 28
    have hc : (1.6 : ℝ) ^ 28 ≤ 8841761993739701954543616000000 * (1 / 2 ^ 70) := by norm_num
    rw [div_le_iff₀ (by norm_num), pow_succ]
    nlinarith
  | succ n ih =>
    have h := sin_term_quarter x h0 h6 (14 + 2 * n) (by omega)
    have e : 14 + 2 * (n + 1) = 14 + 2 * n + 2 := by ring
    have hs : slack (n + 1) = slack n / 4 := by
      unfold slack
      rw [show 2 * (n + 1) = 2 * n + 2 by ring, pow_add, div_div]
      norm_num
    rw [e, hs]
    linarith

theorem sin_bounds (n : ℕ) (x : ℝ) (h0 : 0 ≤ x) (h1 : x ≤ 1.6) :
    x * sinTailReal x (13 + 2 * n) 0 ≤ Real.sin x ∧
      Real.sin x ≤ x * sinTailReal x (13 + 2 * n) 0 + x * (slack n / 2 ^ 70) := by
  have ht := (Real.hasSum_sin x).tendsto_sum_nat
  have ha := sin_terms_antitone x h0 (by nlinarith)
  have e : (fun n : ℕ => ∑ i ∈ Finset.range n, (-1) ^ i * x ^ (2 * i + 1) / ((2 * i + 1).factorial : ℝ)) =
      fun n : ℕ => ∑ i ∈ Finset.range n, (-1) ^ i * (x ^ (2 * i + 1) / ((2 * i + 1).factorial : ℝ)) := by
    funext n
    exact Finset.sum_congr rfl fun i _ => mul_div_assoc _ _ _
  rw [e] at ht
  have lo := ha.alternating_series_le_tendsto ht (7 + n)
  have hi := ha.tendsto_le_alternating_series ht (7 + n)
  have en : 13 + 2 * n + 1 = 2 * (7 + n) := by ring
  rw [sin_partial x (13 + 2 * n), en]
  refine ⟨lo, hi.trans ?_⟩
  rw [Finset.sum_range_succ]
  have e2 : 2 * (7 + n) = 14 + 2 * n := by ring
  have hpow : (-1 : ℝ) ^ (2 * (7 + n)) = 1 := by rw [pow_mul]; norm_num
  rw [hpow, one_mul, e2]
  have := sin_term_slack x h0 h1 n
  linarith

/-! ## The inverse tangent, and pi -/

theorem atanTail_den_pos (b n k : Nat) (hb : 0 < b) : 0 < (atanTail b n k).den := by
  induction n generalizing k with
  | zero => simp [atanTail]
  | succ n ih => have := ih (k + 1); simp only [atanTail]; positivity

theorem atanTail_succ (b n k : Nat) (hb : 0 < b) (h : (2 * (k : ℝ) + 1) * (atanTail b n (k + 1)).val ≤ 1) :
    (atanTail b (n + 1) k).val = 1 / (2 * (k : ℝ) + 1) - (1 / (b : ℝ)) ^ 2 * (atanTail b n (k + 1)).val := by
  have hd := atanTail_den_pos b n (k + 1) hb
  simp only [atanTail]
  revert h hd
  generalize atanTail b n (k + 1) = r
  intro h hd
  have hd' : (0 : ℝ) < r.den := by exact_mod_cast hd
  have hb' : (1 : ℝ) ≤ b := by exact_mod_cast hb
  have hle : (2 * k + 1) * r.num ≤ b ^ 2 * r.den := by
    have h1 : (2 * (k : ℝ) + 1) * r.num ≤ r.den := by
      unfold Frac.val at h
      rw [mul_div_assoc', div_le_one hd'] at h
      exact h
    have h2 : (r.den : ℝ) ≤ b ^ 2 * r.den := le_mul_of_one_le_left hd'.le (one_le_pow₀ hb')
    exact_mod_cast h1.trans h2
  unfold Frac.val
  simp only
  rw [Nat.cast_sub hle]
  push_cast
  field_simp

theorem atanTail_mem (b n k : Nat) (hb : 0 < b) : (2 * (k : ℝ) + 1) * (atanTail b n k).val ≤ 1 := by
  induction n generalizing k with
  | zero =>
    have : (2 * (k : ℝ) + 1) ≠ 0 := by positivity
    simp [atanTail, Frac.val, this]
  | succ n ih =>
    have h0 : 0 ≤ (atanTail b n (k + 1)).val := div_nonneg (Nat.cast_nonneg _) (Nat.cast_nonneg _)
    have h := ih (k + 1)
    push_cast at h
    rw [atanTail_succ b n k hb (by nlinarith), mul_sub, mul_one_div_cancel (by positivity)]
    have : 0 ≤ (2 * (k : ℝ) + 1) * ((1 / (b : ℝ)) ^ 2 * (atanTail b n (k + 1)).val) := by positivity
    linarith

theorem atanTail_val (b n k : Nat) (hb : 0 < b) :
    (atanTail b n k).val = ∑ i ∈ Finset.range (n + 1), (-1) ^ i * (((1 / (b : ℝ)) ^ 2) ^ i / (2 * ((k : ℝ) + i) + 1)) := by
  induction n generalizing k with
  | zero => simp [atanTail, Frac.val]
  | succ n ih =>
    have h0 : 0 ≤ (atanTail b n (k + 1)).val := div_nonneg (Nat.cast_nonneg _) (Nat.cast_nonneg _)
    have h := atanTail_mem b n (k + 1) hb
    push_cast at h
    rw [atanTail_succ b n k hb (by nlinarith), ih (k + 1), Finset.mul_sum, Finset.sum_range_succ' _ (n + 1), sub_eq_add_neg,
      add_comm, ← Finset.sum_neg_distrib]
    congr 1
    · refine Finset.sum_congr rfl fun i _ => ?_
      push_cast
      rw [pow_succ, pow_succ]
      ring
    · simp

theorem atanLow_den_pos (n b : Nat) (hb : 0 < b) : 0 < (atanLow n b).den :=
  Nat.mul_pos hb (atanTail_den_pos b (23 + 2 * n) 0 hb)

theorem atanLow_bounds (n b : Nat) (hb : 3 ≤ b) :
    (atanLow n b).val ≤ Real.arctan (1 / b) ∧ Real.arctan (1 / b) ≤ (atanLow n b).val * (1 + slack n / 2 ^ 70) := by
  have hb' : (3 : ℝ) ≤ b := by exact_mod_cast hb
  have hx0 : (0 : ℝ) < 1 / b := by positivity
  have hx1 : (1 : ℝ) / b ≤ 1 / 3 := by gcongr
  have hv : (atanLow n b).val = ∑ i ∈ Finset.range (2 * (12 + n)),
      (-1) ^ i * ((1 / (b : ℝ)) ^ (2 * i + 1) / (2 * (i : ℝ) + 1)) := by
    unfold atanLow
    rw [Frac.val_scale, atanTail_val b (23 + 2 * n) 0 (by omega), Finset.mul_sum,
      show 23 + 2 * n + 1 = 2 * (12 + n) by ring]
    refine Finset.sum_congr rfl fun i _ => ?_
    push_cast
    rw [pow_succ (1 / (b : ℝ)) (2 * i), pow_mul]
    ring
  rw [hv]
  generalize (1 : ℝ) / b = x at hx0 hx1 ⊢
  have ha : Antitone fun i : ℕ => x ^ (2 * i + 1) / (2 * (i : ℝ) + 1) := by
    refine antitone_nat_of_succ_le fun i => ?_
    have h1 : x ^ (2 * (i + 1) + 1) ≤ x ^ (2 * i + 1) :=
      pow_le_pow_of_le_one hx0.le (by linarith) (by omega)
    push_cast
    gcongr
    linarith
  have hs := Real.hasSum_arctan (x := x) (by rw [Real.norm_eq_abs, abs_of_pos hx0]; linarith)
  have ht := hs.tendsto_sum_nat
  have e : (fun n : ℕ => ∑ i ∈ Finset.range n, (-1) ^ i * x ^ (2 * i + 1) / ((2 * i + 1 : ℕ) : ℝ)) =
      fun n : ℕ => ∑ i ∈ Finset.range n, (-1) ^ i * (x ^ (2 * i + 1) / (2 * (i : ℝ) + 1)) := by
    funext n
    refine Finset.sum_congr rfl fun i _ => ?_
    rw [mul_div_assoc]
    push_cast
    rfl
  rw [e] at ht
  have lo := ha.alternating_series_le_tendsto ht (12 + n)
  have hi := ha.tendsto_le_alternating_series ht (12 + n)
  have l2 := ha.alternating_series_le_tendsto ht 1
  refine ⟨lo, ?_⟩
  rw [Finset.sum_range_succ] at hi
  have hpow : (-1 : ℝ) ^ (2 * (12 + n)) = 1 := by rw [pow_mul]; norm_num
  rw [hpow, one_mul] at hi
  have hterm : x ^ (2 * (2 * (12 + n)) + 1) / (2 * ((2 * (12 + n) : ℕ) : ℝ) + 1) ≤ x / 2 * (slack n / 2 ^ 71) := by
    have hden : (1 : ℝ) ≤ 2 * ((2 * (12 + n) : ℕ) : ℝ) + 1 := by
      have : (0 : ℝ) ≤ ((2 * (12 + n) : ℕ) : ℝ) := by positivity
      linarith
    refine (div_le_self (by positivity) hden).trans ?_
    have hx4 : (x ^ 4) ^ n ≤ slack n := by
      refine pow_le_slack _ n (by positivity) ?_
      calc x ^ 4 ≤ (1 / 3) ^ 4 := pow_le_pow_left₀ hx0.le hx1 4
        _ ≤ 1 / 4 := by norm_num
    have hx48 : x ^ 48 ≤ 1 / 2 ^ 72 := by
      calc x ^ 48 ≤ (1 / 3) ^ 48 := pow_le_pow_left₀ hx0.le hx1 48
        _ ≤ 1 / 2 ^ 72 := by norm_num
    calc x ^ (2 * (2 * (12 + n)) + 1) = x * (x ^ 48 * (x ^ 4) ^ n) := by
          rw [← pow_mul, ← pow_add, ← pow_succ']
          congr 1
          ring
      _ ≤ x * (1 / 2 ^ 72 * slack n) := by gcongr
      _ = x / 2 * (slack n / 2 ^ 71) := by ring
  -- the partial sum is at least half of its argument
  have hhalf : x / 2 ≤ ∑ i ∈ Finset.range (2 * (12 + n)), (-1) ^ i * (x ^ (2 * i + 1) / (2 * (i : ℝ) + 1)) := by
    have h2 : ∑ i ∈ Finset.range (2 * 1), (-1) ^ i * (x ^ (2 * i + 1) / (2 * (i : ℝ) + 1)) = x - x ^ 3 / 3 := by
      norm_num [Finset.sum_range_succ]
      ring
    rw [h2] at l2
    have hx3 : x ^ 3 ≤ x / 9 := by nlinarith [mul_pos hx0 hx0]
    have hsm : slack n / 2 ^ 71 ≤ 1 / 2 := by
      have := slack_le_one n
      linarith
    nlinarith [mul_le_mul_of_nonneg_left hsm hx0.le]
  have hs0 := slack_pos n
  generalize ∑ i ∈ Finset.range (2 * (12 + n)), (-1) ^ i * (x ^ (2 * i + 1) / (2 * (i : ℝ) + 1)) = t at lo hi hhalf ⊢
  have : x / 2 * (slack n / 2 ^ 71) ≤ t * (slack n / 2 ^ 70) := by
    refine mul_le_mul hhalf ?_ (by positivity) (by linarith)
    linarith
  linarith

theorem piLow_den_pos (n : Nat) : 0 < (piLow n).den :=
  Nat.mul_pos (Nat.mul_pos one_pos (atanLow_den_pos n 3 (by norm_num)))
    (Nat.mul_pos one_pos (atanLow_den_pos n 7 (by norm_num)))

/-- The lower bound of pi, which is never pi itself: pi is irrational. -/
theorem piLow_bounds (n : Nat) : (piLow n).val < Real.pi ∧ Real.pi ≤ (piLow n).val * (1 + slack n / 2 ^ 70) := by
  have h := Frac.combine_bounds 8 4 (atanLow n 3) (atanLow n 7) _ _ _ (atanLow_den_pos n 3 (by norm_num))
    (atanLow_den_pos n 7 (by norm_num)) (atanLow_bounds n 3 le_rfl) (atanLow_bounds n 7 (by norm_num))
  have hp := Real.two_mul_arctan_inv_3_add_arctan_inv_7
  have e : ((8 : ℕ) : ℝ) * Real.arctan (1 / (3 : ℕ)) + ((4 : ℕ) : ℝ) * Real.arctan (1 / (7 : ℕ)) = Real.pi := by
    rw [one_div, one_div]
    push_cast
    linarith
  rw [e] at h
  refine ⟨lt_of_le_of_ne h.1 fun heq => ?_, h.2⟩
  refine irrational_pi ⟨((piLow n).num : ℚ) / (piLow n).den, ?_⟩
  push_cast
  exact heq

end Sys2Proof.Machine
end

