-- ==== Sys2Proof/Laws/NormalFn.lean ====
section
/-! SUPPORT. From the series bounds of Laws/Normal.lean to the two factors of Z: the logarithm of the first input and the
cosine of the second (41_distributions.md R82, R83). -/

namespace Sys2Proof.Machine

/-! ## The logarithm -/

theorem lnShift_range (ka : Nat) (h : ka < 2 ^ 53) :
    2 ^ 52 < (ka + 1) * 2 ^ lnShift ka ∧ (ka + 1) * 2 ^ lnShift ka ≤ 2 ^ 53 := by
  unfold lnShift
  split
  · subst_vars; norm_num
  · rename_i h0
    have hp : Nat.log2 ka ≤ 52 := by
      have := (Nat.log2_lt h0).mpr h
      omega
    have h1 : 2 ^ Nat.log2 ka ≤ ka := Nat.log2_self_le h0
    have h2 : ka < 2 ^ (Nat.log2 ka + 1) := Nat.lt_log2_self
    have e1 : 2 ^ Nat.log2 ka * 2 ^ (52 - Nat.log2 ka) = 2 ^ 52 := by
      rw [← pow_add]; congr 1; omega
    have e2 : 2 ^ (Nat.log2 ka + 1) * 2 ^ (52 - Nat.log2 ka) = 2 ^ 53 := by
      rw [← pow_add]; congr 1; omega
    constructor
    · calc 2 ^ 52 = 2 ^ Nat.log2 ka * 2 ^ (52 - Nat.log2 ka) := e1.symm
        _ < (ka + 1) * 2 ^ (52 - Nat.log2 ka) := by gcongr; omega
    · calc (ka + 1) * 2 ^ (52 - Nat.log2 ka) ≤ 2 ^ (Nat.log2 ka + 1) * 2 ^ (52 - Nat.log2 ka) := by gcongr; omega
        _ = 2 ^ 53 := e2

theorem artanh_third : artanh ((1 : ℕ) / (3 : ℕ) : ℝ) = Real.log 2 / 2 := by
  unfold artanh
  rw [← Real.log_div (by norm_num) (by norm_num)]
  norm_num

theorem artanh_of_fraction (m N : ℝ) (hm : 0 < m) (hN : 0 < N) : artanh ((N - m) / (N + m)) = -Real.log (m / N) / 2 := by
  unfold artanh
  have hs : 0 < N + m := by linarith
  have e1 : 1 + (N - m) / (N + m) = 2 * N / (N + m) := by field_simp; ring
  have e2 : 1 - (N - m) / (N + m) = 2 * m / (N + m) := by field_simp; ring
  rw [e1, e2, ← Real.log_div (by positivity) (by positivity), ← Real.log_inv]
  congr 2
  field_simp

theorem log_scaled (n : ℝ) (j : Nat) (hn : 0 < n) :
    -Real.log (n / 2 ^ 53) / 2 = j * (Real.log 2 / 2) + -Real.log (n * 2 ^ j / 2 ^ 53) / 2 := by
  have : n * 2 ^ j / 2 ^ 53 = 2 ^ j * (n / 2 ^ 53) := by ring
  rw [this, Real.log_mul (by positivity) (by positivity), Real.log_pow]
  ring

theorem halfNegLnLow_bounds (n ka : Nat) (h : ka < 2 ^ 53) :
    (halfNegLnLow n ka).val ≤ -Real.log (((ka : ℝ) + 1) / 2 ^ 53) / 2 ∧
      -Real.log (((ka : ℝ) + 1) / 2 ^ 53) / 2 ≤ (halfNegLnLow n ka).val * (1 + slack n / 2 ^ 90) := by
  obtain ⟨hm1, hm2⟩ := lnShift_range ka h
  rw [log_scaled _ (lnShift ka) (by positivity)]
  have h3 := atanhLow_bounds n 1 3 (by norm_num) (by norm_num)
  rw [artanh_third] at h3
  have hm := atanhLow_bounds n (2 ^ 53 - (ka + 1) * 2 ^ lnShift ka) (2 ^ 53 + (ka + 1) * 2 ^ lnShift ka)
    (by positivity) (by omega)
  have e : ((2 ^ 53 - (ka + 1) * 2 ^ lnShift ka : ℕ) : ℝ) / ((2 ^ 53 + (ka + 1) * 2 ^ lnShift ka : ℕ) : ℝ) =
      (2 ^ 53 - ((ka : ℝ) + 1) * 2 ^ lnShift ka) / (2 ^ 53 + ((ka : ℝ) + 1) * 2 ^ lnShift ka) := by
    rw [Nat.cast_sub hm2]
    norm_cast
  rw [e, artanh_of_fraction _ _ (by positivity) (by positivity)] at hm
  have := Frac.combine_bounds (lnShift ka) 1 _ _ _ _ _ (atanhLow_den_pos n 1 3 (by norm_num))
    (atanhLow_den_pos n _ _ (by positivity)) h3 hm
  rwa [Nat.cast_one, one_mul, show ∀ q : Frac, q.scale 1 1 = q from fun q => by simp [Frac.scale]] at this

theorem halfNegLnLow_den_pos (n ka : Nat) : 0 < (halfNegLnLow n ka).den :=
  Nat.mul_pos (Nat.mul_pos one_pos (atanhLow_den_pos n 1 3 (by norm_num))) (atanhLow_den_pos n _ _ (by positivity))

/-! ## The cosine -/

theorem quarterDistance_le (kb : Nat) (h : kb < 2 ^ 53) : quarterDistance kb ≤ 2 ^ 51 := by
  unfold quarterDistance
  split_ifs <;> omega

theorem sin_quarterDistance_nonneg (kb : Nat) (h : kb < 2 ^ 53) :
    0 ≤ Real.pi * quarterDistance kb / 2 ^ 52 ∧ Real.pi * quarterDistance kb / 2 ^ 52 ≤ Real.pi / 2 := by
  have hd : (quarterDistance kb : ℝ) ≤ 2 ^ 51 := by exact_mod_cast quarterDistance_le kb h
  have hp := Real.pi_pos
  constructor
  · positivity
  · rw [div_le_div_iff₀ (by positivity) (by positivity)]
    nlinarith

/-- The cosine of the second input: its sign, and its size as a sine of the distance from a quarter. -/
theorem cos_eq_sin_quarterDistance (kb : Nat) (h : kb < 2 ^ 53) :
    Real.cos (2 * Real.pi * ((kb : ℝ) / 2 ^ 53)) =
      (if 2 ^ 51 < kb ∧ kb < 3 * 2 ^ 51 then -1 else 1) * Real.sin (Real.pi * quarterDistance kb / 2 ^ 52) := by
  unfold quarterDistance
  have e1 : Real.cos (2 * Real.pi * ((kb : ℝ) / 2 ^ 53)) = Real.sin (Real.pi * (2 ^ 51 - (kb : ℝ)) / 2 ^ 52) := by
    rw [← Real.sin_pi_div_two_sub]
    congr 1
    ring
  have e2 : Real.cos (2 * Real.pi * ((kb : ℝ) / 2 ^ 53)) = Real.sin (Real.pi * ((kb : ℝ) - 3 * 2 ^ 51) / 2 ^ 52) := by
    have : Real.pi * ((kb : ℝ) - 3 * 2 ^ 51) / 2 ^ 52 = 2 * Real.pi * ((kb : ℝ) / 2 ^ 53) + Real.pi / 2 - 2 * Real.pi := by
      ring
    rw [this, Real.sin_sub_two_pi, Real.sin_add_pi_div_two]
  by_cases h1 : kb ≤ 2 ^ 52
  · by_cases h2 : kb ≤ 2 ^ 51
    · rw [if_pos h1, if_pos h2, if_neg (by omega), e1, Nat.cast_sub h2, one_mul]
      norm_num
    · rw [if_pos h1, if_neg h2, if_pos (by omega), e1, Nat.cast_sub (by omega), neg_one_mul, ← Real.sin_neg]
      push_cast
      congr 1
      ring
  · by_cases h2 : kb ≤ 3 * 2 ^ 51
    · by_cases h3 : kb = 3 * 2 ^ 51
      · rw [if_neg h1, if_pos h2, if_neg (by omega), e2, h3]
        norm_num
      · rw [if_neg h1, if_pos h2, if_pos (by omega), e2, Nat.cast_sub h2, neg_one_mul, ← Real.sin_neg]
        push_cast
        congr 1
        ring
    · rw [if_neg h1, if_neg h2, if_neg (by omega), e2, Nat.cast_sub (by omega), one_mul]
      norm_num

theorem absCosLow_den_pos (n kb : Nat) : 0 < (absCosLow n kb).den := by
  unfold absCosLow sinLow
  have := piLow_den_pos n
  exact Nat.mul_pos (by positivity) (sinTail_den_pos _ _ _ 0 (by positivity))

/-- The bound of the cosine is within one part in 2^66, and is never the cosine itself where that is not zero. -/
theorem absCosLow_bounds (n kb : Nat) (h : kb < 2 ^ 53) :
    (absCosLow n kb).val ≤ Real.sin (Real.pi * quarterDistance kb / 2 ^ 52) ∧
      (quarterDistance kb ≠ 0 → (absCosLow n kb).val < Real.sin (Real.pi * quarterDistance kb / 2 ^ 52)) ∧
      Real.sin (Real.pi * quarterDistance kb / 2 ^ 52) ≤ (absCosLow n kb).val * (1 + slack n / 2 ^ 66) := by
  have hdn := quarterDistance_le kb h
  unfold absCosLow
  generalize quarterDistance kb = d at hdn ⊢
  have hd : (d : ℝ) ≤ 2 ^ 51 := by exact_mod_cast hdn
  obtain ⟨hpl, hpu⟩ := piLow_bounds n
  have hpd := piLow_den_pos n
  have hp4 := Real.pi_lt_d2
  have hs0 := slack_pos n
  have hs1 := slack_le_one n
  -- the argument, and the lower bound of it
  set x : ℝ := (((piLow n).num * d : ℕ) : ℝ) / (((piLow n).den * 2 ^ 52 : ℕ) : ℝ) with hx
  have hxe : x = (piLow n).val * (d / 2 ^ 52) := by
    rw [hx]
    unfold Frac.val
    push_cast
    rw [mul_div_mul_comm]
    norm_num
  have hy : Real.pi * d / 2 ^ 52 = Real.pi * (d / 2 ^ 52) := by ring
  have hq0 : (0 : ℝ) ≤ d / 2 ^ 52 := by positivity
  have hq1 : (d : ℝ) / 2 ^ 52 ≤ 1 / 2 := by rw [div_le_div_iff₀ (by positivity) (by norm_num)]; linarith
  have hx0 : 0 ≤ x := by rw [hx]; positivity
  have hxy : x ≤ Real.pi * d / 2 ^ 52 := by rw [hxe, hy]; gcongr
  have hyh : Real.pi * d / 2 ^ 52 ≤ Real.pi / 2 := by rw [hy]; nlinarith [Real.pi_pos]
  have hx2 : x ≤ 1.6 := by linarith
  have hyu : Real.pi * d / 2 ^ 52 - x ≤ x * (slack n / 2 ^ 70) := by
    have e : Real.pi * d / 2 ^ 52 - x = (Real.pi - (piLow n).val) * (d / 2 ^ 52) := by rw [hxe, hy]; ring
    rw [e, hxe]
    calc _ ≤ ((piLow n).val * (slack n / 2 ^ 70)) * (d / 2 ^ 52 : ℝ) := by gcongr; linarith
      _ = _ := by ring
  have hval : (sinLow n ((piLow n).num * d) ((piLow n).den * 2 ^ 52)).val = x * sinTailReal x (13 + 2 * n) 0 := by
    rw [← sinTail_val _ _ (13 + 2 * n) 0 (by positivity) (show x ^ 2 ≤ 6 by nlinarith)]
    exact Frac.val_scale _ _ _
  rw [hval]
  obtain ⟨hl, hu⟩ := sin_bounds n x hx0 hx2
  have hs := half_le_sinTailReal x (by nlinarith) (13 + 2 * n) 0
  generalize sinTailReal x (13 + 2 * n) 0 = t at hl hu hs ⊢
  have hmono : Real.sin x ≤ Real.sin (Real.pi * d / 2 ^ 52) :=
    Real.sin_le_sin_of_le_of_le_pi_div_two (by linarith [Real.pi_pos]) hyh hxy
  refine ⟨hl.trans hmono, fun hd0 => hl.trans_lt ?_, ?_⟩
  · have hdp : (0 : ℝ) < d := by exact_mod_cast Nat.pos_of_ne_zero hd0
    refine Real.sin_lt_sin_of_lt_of_le_pi_div_two (by linarith [Real.pi_pos]) hyh ?_
    rw [hxe, hy]
    gcongr
  -- the series is at least half of its argument
  have hhalf : x ≤ 2 * (x * t) := by nlinarith
  have hlip : Real.sin (Real.pi * d / 2 ^ 52) - Real.sin x ≤ Real.pi * d / 2 ^ 52 - x := by
    have := Real.sin_sub_sin (Real.pi * d / 2 ^ 52) x
    have h1 : Real.sin ((Real.pi * d / 2 ^ 52 - x) / 2) ≤ (Real.pi * d / 2 ^ 52 - x) / 2 := Real.sin_le (by linarith)
    have h0 : 0 ≤ Real.sin ((Real.pi * d / 2 ^ 52 - x) / 2) :=
      Real.sin_nonneg_of_nonneg_of_le_pi (by linarith) (by linarith [Real.pi_pos])
    have h2 := Real.cos_le_one ((Real.pi * d / 2 ^ 52 + x) / 2)
    nlinarith
  have hxt : x * (slack n / 2 ^ 70) + x * (slack n / 2 ^ 70) ≤ x * t * (slack n / 2 ^ 66) := by
    have h70 : slack n / 2 ^ 70 + slack n / 2 ^ 70 ≤ slack n / 2 ^ 66 / 2 := by linarith
    calc x * (slack n / 2 ^ 70) + x * (slack n / 2 ^ 70) = x * (slack n / 2 ^ 70 + slack n / 2 ^ 70) := by ring
      _ ≤ 2 * (x * t) * (slack n / 2 ^ 66 / 2) := mul_le_mul hhalf h70 (by positivity) (by linarith)
      _ = x * t * (slack n / 2 ^ 66) := by ring
  linarith

end Sys2Proof.Machine
end

