-- ==== Sys2Proof/Laws/NormalRange.lean ====
section
/-! SUPPORT. The binary64 patterns of NORMAL_FN: magnitudes grow with their patterns, the integer root is exact, and the
two patterns enclose |Z|, at most two apart, both of normal numbers (41_distributions.md R84 to R86). -/

namespace Sys2Proof.Machine

theorem Frac.val_nonneg (q : Frac) : 0 ≤ q.val := div_nonneg (Nat.cast_nonneg _) (Nat.cast_nonneg _)

theorem Frac.widen_val (n : Nat) (q : Frac) : (q.widen n).val = (1 + slack n / 2 ^ 64) * q.val := by
  unfold Frac.widen slack
  rw [Frac.val_scale]
  push_cast
  rw [pow_add]
  field_simp

theorem Frac.widen_den_pos (n : Nat) (q : Frac) (h : 0 < q.den) : 0 < (q.widen n).den := Nat.mul_pos (by positivity) h

/-- A bound and the wider one that belongs to it. -/
theorem Frac.widen_between (n : Nat) (q : Frac) : q.val ≤ (q.widen n).val ∧ (q.widen n).val ≤ 2 * q.val := by
  have h0 := q.val_nonneg
  have hs := slack_pos n
  have hs1 := slack_le_one n
  rw [Frac.widen_val]
  constructor <;> nlinarith

/-! ## The bounds of Z squared -/

/-- The lower bound of Z squared is within one part in 2^64, and is never Z squared itself where Z is not zero. -/
theorem idealZ_sq_bounds (n : Nat) (ka kb : BitVec 53) :
    (idealSquareLow n ka.toNat kb.toNat).val ≤ idealZ ka kb ^ 2 ∧
      (idealZ ka kb ≠ 0 → (idealSquareLow n ka.toNat kb.toNat).val < idealZ ka kb ^ 2) ∧
      idealZ ka kb ^ 2 ≤ ((idealSquareLow n ka.toNat kb.toNat).widen n).val := by
  obtain ⟨hl, hu⟩ := halfNegLnLow_bounds n ka.toNat ka.isLt
  obtain ⟨cl, cs, cu⟩ := absCosLow_bounds n kb.toNat kb.isLt
  have hc := cos_eq_sin_quarterDistance kb.toNat kb.isLt
  obtain ⟨a0, a1⟩ := sin_quarterDistance_nonneg kb.toNat kb.isLt
  have hs0 : 0 ≤ Real.sin (Real.pi * quarterDistance kb.toNat / 2 ^ 52) :=
    Real.sin_nonneg_of_nonneg_of_le_pi a0 (a1.trans (by linarith [Real.pi_pos]))
  have hz0 : quarterDistance kb.toNat = 0 → Real.sin (Real.pi * quarterDistance kb.toNat / 2 ^ 52) = 0 := by
    intro h
    rw [h]
    simp
  have hk : ((ka.toNat : ℝ) + 1) / 2 ^ 53 ≤ 1 := by
    rw [div_le_one (by positivity)]
    have : ka.toNat + 1 ≤ 2 ^ 53 := ka.isLt
    exact_mod_cast this
  have hlog : Real.log (((ka.toNat : ℝ) + 1) / 2 ^ 53) ≤ 0 := Real.log_nonpos (by positivity) hk
  have hz : idealZ ka kb ^ 2 = 4 * (-Real.log (((ka.toNat : ℝ) + 1) / 2 ^ 53) / 2) *
      Real.sin (Real.pi * quarterDistance kb.toNat / 2 ^ 52) ^ 2 := by
    unfold idealZ
    rw [mul_pow, Real.sq_sqrt (by linarith), hc, mul_pow]
    split_ifs <;> ring
  have hv : (idealSquareLow n ka.toNat kb.toNat).val =
      4 * (halfNegLnLow n ka.toNat).val * (absCosLow n kb.toNat).val ^ 2 := by
    unfold idealSquareLow
    rw [Frac.val_scale, Frac.val_mul, Frac.val_mul]
    push_cast
    ring
  have hs1 := slack_pos n
  have hs2 := slack_le_one n
  have l0 : 0 ≤ (halfNegLnLow n ka.toNat).val := Frac.val_nonneg _
  have c0 : 0 ≤ (absCosLow n kb.toNat).val := Frac.val_nonneg _
  rw [Frac.widen_val, ← pow_ne_zero_iff two_ne_zero, hz, hv]
  clear hz hv hc hlog hk a0 a1
  revert hl hu cl cs cu hs0 l0 c0 hz0
  generalize (halfNegLnLow n ka.toNat).val = l
  generalize (absCosLow n kb.toNat).val = c
  generalize -Real.log (((ka.toNat : ℝ) + 1) / 2 ^ 53) / 2 = x
  generalize Real.sin (Real.pi * quarterDistance kb.toNat / 2 ^ 52) = y
  generalize slack n = e at hs1 hs2 ⊢
  intro hl hu cl cs cu hs0 hz0 l0 c0
  have hx0 : 0 ≤ x := l0.trans hl
  refine ⟨?_, fun hne => ?_, ?_⟩
  · have : c ^ 2 ≤ y ^ 2 := pow_le_pow_left₀ c0 cl 2
    have h4 : 4 * l ≤ 4 * x := by linarith
    exact mul_le_mul h4 this (by positivity) (by linarith)
  · have hy : y ≠ 0 := by rintro rfl; simp at hne
    have hx : 0 < x := lt_of_le_of_ne hx0 (by rintro rfl; simp at hne)
    have : c ^ 2 < y ^ 2 := pow_lt_pow_left₀ (cs fun h => hy (hz0 h)) c0 two_ne_zero
    calc 4 * l * c ^ 2 ≤ 4 * x * c ^ 2 := by gcongr
      _ < 4 * x * y ^ 2 := by gcongr
  · have h2 : y ^ 2 ≤ (c * (1 + e / 2 ^ 66)) ^ 2 := pow_le_pow_left₀ hs0 cu 2
    have he : (1 + e / 2 ^ 90) * (1 + e / 2 ^ 66) ^ 2 ≤ 1 + e / 2 ^ 64 := by nlinarith [mul_pos hs1 hs1]
    calc 4 * x * y ^ 2 ≤ 4 * (l * (1 + e / 2 ^ 90)) * (c * (1 + e / 2 ^ 66)) ^ 2 := by gcongr
      _ = (4 * l * c ^ 2) * ((1 + e / 2 ^ 90) * (1 + e / 2 ^ 66) ^ 2) := by ring
      _ ≤ (4 * l * c ^ 2) * (1 + e / 2 ^ 64) := by gcongr
      _ = _ := by ring

theorem idealSquareLow_den_pos (n ka kb : Nat) : 0 < (idealSquareLow n ka kb).den := by
  unfold idealSquareLow Frac.scale Frac.mul
  exact Nat.mul_pos one_pos (Nat.mul_pos (halfNegLnLow_den_pos n ka)
    (Nat.mul_pos (absCosLow_den_pos n kb) (absCosLow_den_pos n kb)))

/-! ## The integer square root -/

theorem isqrtFrom_spec (n : Nat) : ∀ b r, r ^ 2 ≤ n → n < (r + 2 ^ b) ^ 2 →
    isqrtFrom n b r ^ 2 ≤ n ∧ n < (isqrtFrom n b r + 1) ^ 2
  | 0, r, h0, h1 => ⟨h0, by simpa [isqrtFrom] using h1⟩
  | b + 1, r, h0, h1 => by
    unfold isqrtFrom
    split
    · rename_i h
      refine isqrtFrom_spec n b _ h ?_
      have : r + 2 ^ b + 2 ^ b = r + 2 ^ (b + 1) := by ring
      rwa [this]
    · rename_i h
      exact isqrtFrom_spec n b r h0 (not_le.mp h)

/-- The root of a fraction to 140 binary places, exactly. -/
theorem isqrt_frac (q : Frac) (hq : 0 < q.den) (h : q.val < 2 ^ 20) :
    let r := isqrtFrom (q.num * 4 ^ 140 / q.den) 150 0
    (r : ℝ) ≤ Real.sqrt q.val * 2 ^ 140 ∧ Real.sqrt q.val * 2 ^ 140 < r + 1 := by
  intro r
  have hd : (0 : ℝ) < q.den := by exact_mod_cast hq
  have hq0 : 0 ≤ q.val := q.val_nonneg
  have hlt : q.num * 4 ^ 140 / q.den < (0 + 2 ^ 150) ^ 2 := by
    rw [Nat.div_lt_iff_lt_mul hq]
    have hn : (q.num : ℝ) < 2 ^ 20 * q.den := by
      unfold Frac.val at h
      rwa [div_lt_iff₀ hd] at h
    have hn' : q.num < 2 ^ 20 * q.den := by exact_mod_cast hn
    have h4 : (2 : ℕ) ^ 20 * 4 ^ 140 = (0 + 2 ^ 150) ^ 2 := by norm_num
    calc q.num * 4 ^ 140 < 2 ^ 20 * q.den * 4 ^ 140 := Nat.mul_lt_mul_of_pos_right hn' (by positivity)
      _ = (0 + 2 ^ 150) ^ 2 * q.den := by rw [← h4]; ring
  obtain ⟨h1, h2⟩ := isqrtFrom_spec _ 150 0 (Nat.zero_le _) hlt
  change r ^ 2 ≤ _ at h1
  change _ < (r + 1) ^ 2 at h2
  generalize r = r at h1 h2 ⊢
  rw [Nat.le_div_iff_mul_le hq] at h1
  rw [Nat.div_lt_iff_lt_mul hq] at h2
  have e : (Real.sqrt q.val * 2 ^ 140) ^ 2 = q.val * 4 ^ 140 := by
    rw [mul_pow, Real.sq_sqrt hq0, ← pow_mul, show (4 : ℝ) = 2 ^ 2 by norm_num, ← pow_mul]
  have hs0 : 0 ≤ Real.sqrt q.val * 2 ^ 140 := by positivity
  have hv : q.val * 4 ^ 140 * q.den = (q.num : ℝ) * 4 ^ 140 := by unfold Frac.val; field_simp
  constructor
  · refine le_of_sq_le_sq ?_ hs0
    rw [e]
    have : ((r : ℝ) ^ 2) * q.den ≤ q.val * 4 ^ 140 * q.den := by rw [hv]; exact_mod_cast h1
    exact le_of_mul_le_mul_right this hd
  · refine lt_of_pow_lt_pow_left₀ 2 (by positivity) ?_
    rw [e]
    have : q.val * 4 ^ 140 * q.den < ((r : ℝ) + 1) ^ 2 * q.den := by rw [hv]; exact_mod_cast h2
    exact lt_of_mul_lt_mul_right this hd.le

/-! ## Magnitudes and their patterns -/

/-- The number a pattern with sign bit 0 denotes (41_distributions.md R72). -/
noncomputable def mag (n : Nat) : ℝ := 2 ^ (((n / 2 ^ 52 : ℕ) : ℤ) - 1023) * (1 + ((n % 2 ^ 52 : ℕ) : ℝ) / 2 ^ 52)

theorem mag_pos (n : Nat) : 0 < mag n := by unfold mag; positivity

/-- A pattern from its exponent and fraction fields; a fraction of 2^52 carries into the exponent. -/
theorem mag_fields (e f : Nat) (hf : f ≤ 2 ^ 52) :
    mag (e * 2 ^ 52 + f) = 2 ^ ((e : ℤ) - 1023) * (1 + (f : ℝ) / 2 ^ 52) := by
  rcases Nat.lt_or_eq_of_le hf with h | h
  · have h1 : (e * 2 ^ 52 + f) / 2 ^ 52 = e := by omega
    have h2 : (e * 2 ^ 52 + f) % 2 ^ 52 = f := by omega
    unfold mag
    rw [h1, h2]
  · have h1 : (e * 2 ^ 52 + f) / 2 ^ 52 = e + 1 := by omega
    have h2 : (e * 2 ^ 52 + f) % 2 ^ 52 = 0 := by omega
    unfold mag
    rw [h1, h2, h]
    have : ((e + 1 : ℕ) : ℤ) - 1023 = ((e : ℤ) - 1023) + 1 := by push_cast; ring
    rw [this, zpow_add₀ (by norm_num)]
    norm_num

theorem mag_succ (n : Nat) : mag n * (1 + 1 / 2 ^ 53) ≤ mag (n + 1) := by
  have e : n = n / 2 ^ 52 * 2 ^ 52 + n % 2 ^ 52 := by omega
  have hf : n % 2 ^ 52 < 2 ^ 52 := Nat.mod_lt _ (by norm_num)
  have h1 := mag_fields (n / 2 ^ 52) (n % 2 ^ 52) hf.le
  have h2 := mag_fields (n / 2 ^ 52) (n % 2 ^ 52 + 1) hf
  rw [← Nat.add_assoc, ← e] at h2
  rw [← e] at h1
  rw [h1, h2]
  have hp : (0 : ℝ) < 2 ^ (((n / 2 ^ 52 : ℕ) : ℤ) - 1023) := by positivity
  have hfr : ((n % 2 ^ 52 : ℕ) : ℝ) ≤ 2 ^ 52 := by exact_mod_cast hf.le
  rw [mul_assoc]
  refine mul_le_mul_of_nonneg_left ?_ hp.le
  push_cast
  have : ((n % 2 ^ 52 : ℕ) : ℝ) / 2 ^ 52 ≤ 1 := by rw [div_le_one (by positivity)]; exact hfr
  have e2 : (((n % 2 ^ 52 : ℕ) : ℝ) + 1) / 2 ^ 52 = ((n % 2 ^ 52 : ℕ) : ℝ) / 2 ^ 52 + 2 * (1 / 2 ^ 53) := by ring
  push_cast at this e2
  rw [e2]
  nlinarith

theorem mag_strictMono : StrictMono mag := by
  refine strictMono_nat_of_lt_succ fun n => ?_
  have := mag_succ n
  have := mag_pos n
  have : (0 : ℝ) < 1 / 2 ^ 53 := by positivity
  nlinarith

/-- The pattern of the largest number not above the root, and the next one above it. -/
theorem sqrtPattern_spec (q : Frac) (hq : 0 < q.den) (hlo : 1 / 2 ^ 156 ≤ q.val) (hhi : q.val < 2 ^ 8) :
    mag (sqrtPattern q) ≤ Real.sqrt q.val ∧ Real.sqrt q.val < mag (sqrtPattern q + 1) ∧
      944 * 2 ^ 52 ≤ sqrtPattern q ∧ sqrtPattern q < 1028 * 2 ^ 52 := by
  obtain ⟨h1, h2⟩ := isqrt_frac q hq (hhi.trans (by norm_num))
  unfold sqrtPattern
  generalize isqrtFrom (q.num * 4 ^ 140 / q.den) 150 0 = r at h1 h2 ⊢
  simp only
  have hs1 : 1 / 2 ^ 78 ≤ Real.sqrt q.val := by
    rw [show (1 : ℝ) / 2 ^ 78 = Real.sqrt (1 / 2 ^ 156) by
      rw [show (1 : ℝ) / 2 ^ 156 = (1 / 2 ^ 78) ^ 2 by norm_num, Real.sqrt_sq (by positivity)]]
    exact Real.sqrt_le_sqrt hlo
  have hs2 : Real.sqrt q.val < 2 ^ 4 := by
    rw [Real.sqrt_lt' (by positivity)]
    exact hhi.trans_le (by norm_num)
  have hr1 : 2 ^ 61 ≤ r := by
    have : (2 : ℝ) ^ 61 < r + 1 := by
      refine lt_of_le_of_lt ?_ h2
      have : (2 : ℝ) ^ 61 ≤ 1 / 2 ^ 78 * 2 ^ 140 := by norm_num
      nlinarith
    have : 2 ^ 61 < r + 1 := by exact_mod_cast this
    omega
  have hr2 : r < 2 ^ 144 := by
    have : (r : ℝ) < 2 ^ 144 := by
      refine lt_of_le_of_lt h1 ?_
      have : (2 : ℝ) ^ 144 = 2 ^ 4 * 2 ^ 140 := by norm_num
      nlinarith
    exact_mod_cast this
  have hr0 : r ≠ 0 := by intro h; rw [h] at hr1; norm_num at hr1
  have hp1 : 61 ≤ Nat.log2 r := (Nat.le_log2 hr0).mpr hr1
  have hp2 : Nat.log2 r < 144 := (Nat.log2_lt hr0).mpr hr2
  have hl : 2 ^ Nat.log2 r ≤ r := Nat.log2_self_le hr0
  have hu : r < 2 ^ (Nat.log2 r + 1) := Nat.lt_log2_self
  generalize Nat.log2 r = p at hp1 hp2 hl hu ⊢
  obtain ⟨t, rfl⟩ : ∃ t, p = t + 52 := ⟨p - 52, by omega⟩
  have hsub : t + 52 - 52 = t := by omega
  rw [hsub]
  have ht : 0 < 2 ^ t := by positivity
  have hm1 : 2 ^ 52 ≤ r / 2 ^ t := by
    rw [Nat.le_div_iff_mul_le ht]
    calc 2 ^ 52 * 2 ^ t = 2 ^ (t + 52) := by ring
      _ ≤ r := hl
  have hm2 : r / 2 ^ t < 2 ^ 53 := by
    rw [Nat.div_lt_iff_lt_mul ht]
    calc r < 2 ^ (t + 52 + 1) := hu
      _ = 2 ^ 53 * 2 ^ t := by ring
  have hd1 : r / 2 ^ t * 2 ^ t ≤ r := Nat.div_mul_le_self r (2 ^ t)
  have hd2 : r + 1 ≤ (r / 2 ^ t + 1) * 2 ^ t := by
    have := Nat.lt_div_mul_add (a := r) ht
    rw [Nat.add_mul]
    omega
  generalize r / 2 ^ t = m at hm1 hm2 hd1 hd2 ⊢
  have em : ∀ k, mag ((t + 52 + 883) * 2 ^ 52 + (m - 2 ^ 52) + k) = ((m + k : ℕ) : ℝ) * 2 ^ t / 2 ^ 140 ∨ 1 < k := by
    intro k
    by_cases hk : 1 < k
    · exact .inr hk
    · left
      rw [Nat.add_assoc, mag_fields _ _ (by omega)]
      have e1 : ((t + 52 + 883 : ℕ) : ℤ) - 1023 = (t : ℤ) + 52 - 140 := by push_cast; ring
      have e2 : ((m - 2 ^ 52 + k : ℕ) : ℝ) = ((m + k : ℕ) : ℝ) - 2 ^ 52 := by
        have : m - 2 ^ 52 + k = m + k - 2 ^ 52 := by omega
        rw [this, Nat.cast_sub (by omega)]
        norm_num
      have e3 : (2 : ℝ) ^ ((t : ℤ) + 52 - 140) = 2 ^ t * 2 ^ 52 / 2 ^ 140 := by
        rw [zpow_sub₀ (by norm_num), zpow_add₀ (by norm_num), zpow_natCast, zpow_ofNat, zpow_ofNat]
      rw [e1, e2, e3]
      generalize (2 : ℝ) ^ 140 = a
      ring
  have em0 := (em 0).resolve_right (by norm_num)
  have em1 := (em 1).resolve_right (by norm_num)
  rw [Nat.add_zero, Nat.add_zero] at em0
  rw [em0, em1]
  have p140 : (0 : ℝ) < 2 ^ 140 := by positivity
  refine ⟨?_, ?_, by omega, by omega⟩
  · rw [div_le_iff₀ p140]
    refine le_trans ?_ h1
    exact_mod_cast hd1
  · rw [lt_div_iff₀ p140]
    refine lt_of_lt_of_le h2 ?_
    exact_mod_cast hd2

/-! ## The range of Z -/

theorem quarterDistance_pos (kb : Nat) (h1 : kb ≠ 2 ^ 51) (h3 : kb ≠ 3 * 2 ^ 51) : 1 ≤ quarterDistance kb := by
  unfold quarterDistance
  split_ifs <;> omega

theorem idealIsZero_eq_false (ka kb : BitVec 53) :
    idealIsZero ka kb = false ↔ ka.toNat ≠ 2 ^ 53 - 1 ∧ kb.toNat ≠ 2 ^ 51 ∧ kb.toNat ≠ 3 * 2 ^ 51 := by
  simp [idealIsZero, and_assoc]

/-- Z squared is at least 2^-154 where the machine does not take Z for zero. -/
theorem idealZ_sq_lower (ka kb : BitVec 53) (h : idealIsZero ka kb = false) : 1 / 2 ^ 154 ≤ idealZ ka kb ^ 2 := by
  obtain ⟨h0, h1, h3⟩ := (idealIsZero_eq_false ka kb).mp h
  have hk : ka.toNat + 1 ≤ 2 ^ 53 - 1 := by have := ka.isLt; omega
  have hkr : ((ka.toNat : ℝ) + 1) / 2 ^ 53 ≤ 1 - 1 / 2 ^ 53 := by
    have : (ka.toNat : ℝ) + 1 ≤ 2 ^ 53 - 1 := by
      have e : ((2 ^ 53 - 1 : ℕ) : ℝ) = 2 ^ 53 - 1 := by norm_num
      rw [← e]
      exact_mod_cast hk
    rw [div_le_iff₀ (by positivity)]
    linarith
  have hpos : 0 < ((ka.toNat : ℝ) + 1) / 2 ^ 53 := by positivity
  have hlog : Real.log (((ka.toNat : ℝ) + 1) / 2 ^ 53) ≤ -(1 / 2 ^ 53) := by
    have := Real.log_le_sub_one_of_pos hpos
    linarith
  obtain ⟨a0, a1⟩ := sin_quarterDistance_nonneg kb.toNat kb.isLt
  have hs : 1 / 2 ^ 51 ≤ Real.sin (Real.pi * quarterDistance kb.toNat / 2 ^ 52) := by
    have hm := Real.mul_le_sin a0 a1
    have hd : (1 : ℝ) ≤ quarterDistance kb.toNat := by exact_mod_cast quarterDistance_pos kb.toNat h1 h3
    have e : 2 / Real.pi * (Real.pi * quarterDistance kb.toNat / 2 ^ 52) = (quarterDistance kb.toNat : ℝ) / 2 ^ 51 := by
      have := Real.pi_ne_zero
      field_simp
    rw [e] at hm
    refine le_trans ?_ hm
    gcongr
  unfold idealZ
  rw [mul_pow, Real.sq_sqrt (by linarith [show (0 : ℝ) < 1 / 2 ^ 53 by positivity]),
    cos_eq_sin_quarterDistance kb.toNat kb.isLt, mul_pow]
  generalize Real.sin (Real.pi * quarterDistance kb.toNat / 2 ^ 52) = y at hs ⊢
  generalize Real.log (((ka.toNat : ℝ) + 1) / 2 ^ 53) = x at hlog ⊢
  have hsq : (if 2 ^ 51 < kb.toNat ∧ kb.toNat < 3 * 2 ^ 51 then (-1 : ℝ) else 1) ^ 2 = 1 := by split_ifs <;> norm_num
  rw [hsq, one_mul]
  have hy : (1 / 2 ^ 51 : ℝ) ^ 2 ≤ y ^ 2 := pow_le_pow_left₀ (by positivity) hs 2
  have hx : (2 : ℝ) / 2 ^ 53 ≤ -2 * x := by linarith
  calc (1 : ℝ) / 2 ^ 154 = 2 / 2 ^ 53 * (1 / 2 ^ 51) ^ 2 := by norm_num
    _ ≤ -2 * x * y ^ 2 := mul_le_mul hx hy (by positivity) (le_trans (by positivity) hx)

/-- |Z| is below 8.572 (41_distributions.md R85). -/
theorem abs_idealZ_lt (ka kb : BitVec 53) : |idealZ ka kb| < 8.572 := by
  have hpos : (0 : ℝ) < ((ka.toNat : ℝ) + 1) / 2 ^ 53 := by positivity
  have hlog : -(53 * Real.log 2) ≤ Real.log (((ka.toNat : ℝ) + 1) / 2 ^ 53) := by
    have e : -(53 * Real.log 2) = Real.log (1 / 2 ^ 53) := by
      rw [one_div, Real.log_inv, Real.log_pow]
      norm_cast
    rw [e]
    refine Real.log_le_log (by positivity) ?_
    gcongr
    linarith [show (0 : ℝ) ≤ (ka.toNat : ℝ) by positivity]
  have h2 := Real.log_two_lt_d9
  unfold idealZ
  rw [abs_mul, abs_of_nonneg (Real.sqrt_nonneg _)]
  have hs : Real.sqrt (-2 * Real.log (((ka.toNat : ℝ) + 1) / 2 ^ 53)) < 8.572 := by
    rw [Real.sqrt_lt' (by norm_num)]
    norm_num
    linarith
  calc _ ≤ Real.sqrt (-2 * Real.log (((ka.toNat : ℝ) + 1) / 2 ^ 53)) * 1 := by
        gcongr
        exact Real.abs_cos_le_one _
    _ < 8.572 := by linarith

theorem idealZ_sq_lt (ka kb : BitVec 53) : idealZ ka kb ^ 2 < 74 := by
  have h := abs_idealZ_lt ka kb
  rw [← sq_abs]
  nlinarith [abs_nonneg (idealZ ka kb)]

/-! ## What NORMAL_FN returns -/

/-- The patterns of two roots whose squares differ by one part in 2^64 are at most one apart. -/
theorem sqrtPattern_widen (n : Nat) (q : Frac) (hq : 0 < q.den) (hlo : 1 / 2 ^ 156 ≤ q.val) (hhi : q.val < 2 ^ 7) :
    sqrtPattern q ≤ sqrtPattern (q.widen n) ∧ sqrtPattern (q.widen n) ≤ sqrtPattern q + 1 := by
  have h0 := q.val_nonneg
  obtain ⟨hle, h2⟩ := q.widen_between n
  have hw8 : (q.widen n).val < 2 ^ 8 := by linarith
  obtain ⟨a1, a2, -, -⟩ := sqrtPattern_spec q hq hlo (hhi.trans (by norm_num))
  obtain ⟨b1, b2, -, -⟩ := sqrtPattern_spec (q.widen n) (q.widen_den_pos n hq) (hlo.trans hle) hw8
  constructor
  · have : mag (sqrtPattern q) < mag (sqrtPattern (q.widen n) + 1) :=
      a1.trans_lt ((Real.sqrt_le_sqrt hle).trans_lt b2)
    have := mag_strictMono.lt_iff_lt.mp this
    omega
  · have hs : Real.sqrt (q.widen n).val ≤ Real.sqrt q.val * (1 + 1 / 2 ^ 53) := by
      rw [Frac.widen_val]
      refine Real.sqrt_le_iff.mpr ⟨by positivity, ?_⟩
      rw [mul_pow, Real.sq_sqrt h0]
      have h1 := slack_le_one n
      have : 1 + slack n / 2 ^ 64 ≤ (1 + 1 / 2 ^ 53) ^ 2 := by
        have : (1 : ℝ) + 1 / 2 ^ 64 ≤ (1 + 1 / 2 ^ 53) ^ 2 := by norm_num
        linarith
      nlinarith
    have : mag (sqrtPattern (q.widen n)) < mag (sqrtPattern q + 1 + 1) := by
      calc mag (sqrtPattern (q.widen n)) ≤ Real.sqrt q.val * (1 + 1 / 2 ^ 53) := b1.trans hs
        _ < mag (sqrtPattern q + 1) * (1 + 1 / 2 ^ 53) := by gcongr
        _ ≤ mag (sqrtPattern q + 1 + 1) := mag_succ _
    have := mag_strictMono.lt_iff_lt.mp this
    omega

/-- The bounds of Z squared lie where the integer root is exact. -/
theorem idealSquareLow_range (n : Nat) (ka kb : BitVec 53) (h : idealIsZero ka kb = false) :
    1 / 2 ^ 156 ≤ (idealSquareLow n ka.toNat kb.toNat).val ∧ (idealSquareLow n ka.toNat kb.toNat).val < 2 ^ 7 := by
  obtain ⟨h1, -, h2⟩ := idealZ_sq_bounds n ka kb
  have hl := idealZ_sq_lower ka kb h
  have hu := idealZ_sq_lt ka kb
  have hw := ((idealSquareLow n ka.toNat kb.toNat).widen_between n).2
  constructor
  · have e : (1 : ℝ) / 2 ^ 154 = 4 * (1 / 2 ^ 156) := by norm_num
    linarith
  · linarith

theorem idealZ_ne_zero (ka kb : BitVec 53) (h : idealIsZero ka kb = false) : idealZ ka kb ≠ 0 := by
  intro h0
  have := idealZ_sq_lower ka kb h
  rw [h0] at this
  norm_num at this

/-- The bounds NORMAL_FN works with, at any precision: |Z| lies strictly between two patterns of normal numbers, at most two
apart. -/
theorem normal_encloses (n : Nat) (ka kb : BitVec 53) (h : idealIsZero ka kb = false) :
    mag (normalLow n ka kb) < |idealZ ka kb| ∧ |idealZ ka kb| < mag (normalHigh n ka kb) ∧
      normalLow n ka kb < normalHigh n ka kb ∧ normalHigh n ka kb ≤ normalLow n ka kb + 2 ∧
      944 * 2 ^ 52 ≤ normalLow n ka kb ∧ normalLow n ka kb < 1028 * 2 ^ 52 := by
  obtain ⟨-, h1, h2⟩ := idealZ_sq_bounds n ka kb
  replace h1 := h1 (idealZ_ne_zero ka kb h)
  have hd := idealSquareLow_den_pos n ka.toNat kb.toNat
  obtain ⟨hq1, hq2⟩ := idealSquareLow_range n ka kb h
  unfold normalLow normalHigh
  generalize idealSquareLow n ka.toNat kb.toNat = q at h1 h2 hd hq1 hq2 ⊢
  obtain ⟨hle, hw⟩ := q.widen_between n
  obtain ⟨a1, -, a3, a4⟩ := sqrtPattern_spec q hd hq1 (hq2.trans (by norm_num))
  obtain ⟨-, b2, -, -⟩ := sqrtPattern_spec (q.widen n) (q.widen_den_pos n hd) (hq1.trans hle) (by linarith)
  obtain ⟨c1, c2⟩ := sqrtPattern_widen n q hd hq1 hq2
  refine ⟨?_, ?_, by omega, by omega, a3, a4⟩
  · rw [← Real.sqrt_sq_eq_abs]
    exact a1.trans_lt (Real.sqrt_lt_sqrt q.val_nonneg h1)
  · rw [← Real.sqrt_sq_eq_abs]
    exact (Real.sqrt_le_sqrt h2).trans_lt b2

/-- The patterns around |Z|: some precision finds any two neighbours that have it strictly between them. -/
theorem exists_precision (p : Nat) (ka kb : BitVec 53) (h : idealIsZero ka kb = false) (h1 : mag p < |idealZ ka kb|)
    (h2 : |idealZ ka kb| < mag (p + 1)) : ∃ n, normalLow n ka kb = p ∧ normalHigh n ka kb = p + 1 := by
  have hz : 0 < |idealZ ka kb| := (mag_pos p).trans h1
  have hsq : |idealZ ka kb| ^ 2 = idealZ ka kb ^ 2 := sq_abs _
  -- how much room there is on either side, in parts of the square
  have r1 : 0 < (idealZ ka kb ^ 2 - mag p ^ 2) / idealZ ka kb ^ 2 := by
    have := pow_lt_pow_left₀ h1 (mag_pos p).le two_ne_zero
    exact div_pos (by linarith) (by rw [← hsq]; positivity)
  have r2 : 0 < (mag (p + 1) ^ 2 - idealZ ka kb ^ 2) / idealZ ka kb ^ 2 := by
    have := pow_lt_pow_left₀ h2 hz.le two_ne_zero
    exact div_pos (by linarith) (by rw [← hsq]; positivity)
  obtain ⟨n, hn⟩ := exists_slack_lt _ (lt_min r1 r2)
  have hz2 : 0 < idealZ ka kb ^ 2 := by rw [← hsq]; positivity
  have n1 := (lt_div_iff₀ hz2).mp (hn.trans_le (min_le_left _ _))
  have n2 := (lt_div_iff₀ hz2).mp (hn.trans_le (min_le_right _ _))
  have hs := slack_pos n
  obtain ⟨z1, -, z2⟩ := idealZ_sq_bounds n ka kb
  obtain ⟨e1, e2, e3, -, -, -⟩ := normal_encloses n ka kb h
  have hd := idealSquareLow_den_pos n ka.toNat kb.toNat
  obtain ⟨hq1, hq2⟩ := idealSquareLow_range n ka kb h
  refine ⟨n, ?_⟩
  unfold normalLow normalHigh at *
  generalize idealSquareLow n ka.toNat kb.toNat = q at *
  obtain ⟨hle, hw⟩ := q.widen_between n
  rw [Frac.widen_val] at z2
  obtain ⟨-, a2, -, -⟩ := sqrtPattern_spec q hd hq1 (hq2.trans (by norm_num))
  obtain ⟨b1, -, -, -⟩ := sqrtPattern_spec (q.widen n) (q.widen_den_pos n hd) (hq1.trans hle) (by linarith)
  have hq0 := q.val_nonneg
  have hsm : slack n / 2 ^ 64 * q.val ≤ slack n * idealZ ka kb ^ 2 :=
    mul_le_mul (div_le_self hs.le (by norm_num)) z1 hq0 hs.le
  have lo : mag p < Real.sqrt q.val := by
    rw [Real.lt_sqrt (mag_pos p).le]
    linarith
  have hi : Real.sqrt (q.widen n).val < mag (p + 1) := by
    rw [Real.sqrt_lt' (mag_pos _), Frac.widen_val]
    linarith
  have m1 := mag_strictMono.lt_iff_lt.mp (lo.trans a2)
  have m2 := mag_strictMono.lt_iff_lt.mp (b1.trans_lt hi)
  have m3 := mag_strictMono.lt_iff_lt.mp (e1.trans h2)
  have m4 := mag_strictMono.lt_iff_lt.mp (h1.trans e2)
  omega

/-- The magnitude NORMAL_FN answers: a neighbour of |Z|, or |Z| itself. -/
theorem normalMagnitude_cases (n : Nat) (up : Bool) (ka kb : BitVec 53) (h : idealIsZero ka kb = false) :
    (mag (normalMagnitude n up ka kb) < |idealZ ka kb| ∧ |idealZ ka kb| < mag (normalMagnitude n up ka kb + 1)) ∨
      mag (normalMagnitude n up ka kb) = |idealZ ka kb| ∨
      (|idealZ ka kb| < mag (normalMagnitude n up ka kb) ∧
        ∃ p, normalMagnitude n up ka kb = p + 1 ∧ mag p < |idealZ ka kb|) := by
  obtain ⟨h1, h2, h3, h4, -, -⟩ := normal_encloses n ka kb h
  unfold normalMagnitude
  split
  · rename_i hc
    exact .inl ⟨h1, by rw [← hc.2]; exact h2⟩
  · rcases lt_trichotomy (mag (normalLow n ka kb + 1)) |idealZ ka kb| with hlt | heq | hgt
    · exact .inl ⟨hlt, h2.trans_le (mag_strictMono.monotone (by omega))⟩
    · exact .inr (.inl heq)
    · exact .inr (.inr ⟨hgt, _, rfl, h1⟩)

theorem normalMagnitude_range (n : Nat) (up : Bool) (ka kb : BitVec 53) (h : idealIsZero ka kb = false) :
    944 * 2 ^ 52 ≤ normalMagnitude n up ka kb ∧ normalMagnitude n up ka kb ≤ 1028 * 2 ^ 52 := by
  obtain ⟨-, -, -, -, h5, h6⟩ := normal_encloses n ka kb h
  unfold normalMagnitude
  split <;> omega

/-- Where Z is not zero, a candidate is its sign bit and a magnitude. -/
theorem normalCandidate_of_ne (n : Nat) (up : Bool) (ka kb : BitVec 53) (h : idealIsZero ka kb = false) :
    normalCandidate n up ka kb = BitVec.ofBool (idealIsNegative kb) ++ BitVec.ofNat 63 (normalMagnitude n up ka kb) := by
  unfold normalCandidate
  rw [if_neg (by rw [h]; simp)]

/-- A pattern made of a sign bit and a magnitude pattern: its fields. -/
theorem f64_fields (sgn : Bool) (n : Nat) (hn : n < 2 ^ 63) :
    f64Sign (BitVec.ofBool sgn ++ BitVec.ofNat 63 n) = sgn ∧
      f64Exponent (BitVec.ofBool sgn ++ BitVec.ofNat 63 n) = n / 2 ^ 52 ∧
      f64Fraction (BitVec.ofBool sgn ++ BitVec.ofNat 63 n) = n % 2 ^ 52 := by
  have ht : (BitVec.ofBool sgn ++ BitVec.ofNat 63 n).toNat = sgn.toNat * 2 ^ 63 + n := by
    rw [BitVec.toNat_append, BitVec.toNat_ofBool, BitVec.toNat_ofNat, Nat.mod_eq_of_lt hn,
      ← Nat.shiftLeft_add_eq_or_of_lt hn, Nat.shiftLeft_eq]
  refine ⟨?_, ?_, ?_⟩
  · unfold f64Sign
    rw [BitVec.getLsbD_append]
    simp
  · unfold f64Exponent
    rw [BitVec.extractLsb'_toNat, ht, Nat.shiftRight_eq_div_pow]
    cases sgn <;> simp
    · omega
    · omega
  · unfold f64Fraction
    rw [BitVec.extractLsb'_toNat, ht, Nat.shiftRight_eq_div_pow]
    cases sgn
    · simp
    · simp
      omega

/-- The number such a pattern denotes (41_distributions.md R72). -/
theorem f64_of_sign_mag (sgn : Bool) (n : Nat) (h1 : 2 ^ 52 ≤ n) (hn : n < 2 ^ 63) :
    ((f64 (BitVec.ofBool sgn ++ BitVec.ofNat 63 n) : ℚ) : ℝ) = (if sgn then -1 else 1) * mag n := by
  obtain ⟨hs, he, hf⟩ := f64_fields sgn n hn
  unfold f64 mag
  rw [hs, he, hf, if_neg (by omega)]
  push_cast
  rw [mul_assoc]
  cases sgn
  · simp
  · simp

end Sys2Proof.Machine
end

