-- ==== Sys2Proof/Laws/NormalContract.lean ====
section
/-! SUPPORT. Which patterns are faithful roundings (41_distributions.md R86 (d)), and that the contract of NORMAL_FN can be
met: some function of the pair gives a faithful rounding of Z everywhere. -/

namespace Sys2Proof.Machine

/-- Where the machine takes Z for zero, it is zero. -/
theorem idealZ_of_isZero (ka kb : BitVec 53) (h : idealIsZero ka kb = true) : idealZ ka kb = 0 := by
  have h' : ka.toNat = 2 ^ 53 - 1 ∨ kb.toNat = 2 ^ 51 ∨ kb.toNat = 3 * 2 ^ 51 := by
    by_contra hn
    have : idealIsZero ka kb = false := (idealIsZero_eq_false ka kb).mpr (by tauto)
    simp [this] at h
  unfold idealZ
  rcases h' with h0 | hq
  · rw [h0]
    norm_num
  · rw [cos_eq_sin_quarterDistance kb.toNat kb.isLt]
    have hd : quarterDistance kb.toNat = 0 := by
      unfold quarterDistance
      split_ifs <;> omega
    rw [hd]
    simp

/-- A number that binary64 has is zero, or a sign and the magnitude of a pattern. -/
theorem f64_cases (c : W64) (h : IsNormalOrZero c) :
    ((f64 c : ℚ) : ℝ) = 0 ∨ ∃ (sgn : Bool) (n : Nat), ((f64 c : ℚ) : ℝ) = (if sgn then -1 else 1) * mag n := by
  rcases h with rfl | ⟨h1, -⟩
  · left
    have : f64Exponent 0#64 = 0 := by decide
    simp [f64, this]
  · right
    refine ⟨f64Sign c, f64Exponent c * 2 ^ 52 + f64Fraction c, ?_⟩
    have hf : f64Fraction c < 2 ^ 52 := by unfold f64Fraction; exact BitVec.isLt _
    rw [mag_fields _ _ hf.le]
    unfold f64
    rw [if_neg (by omega)]
    push_cast
    rw [mul_assoc]
    cases f64Sign c <;> simp

/-- No number of binary64 has a magnitude strictly between two neighbouring ones. -/
theorem f64_ne_of_between (q : Nat) (z : ℝ) (hz : z ≠ 0) (h1 : mag q < |z|) (h2 : |z| < mag (q + 1)) (c : W64)
    (hc : IsNormalOrZero c) : ((f64 c : ℚ) : ℝ) ≠ z := by
  intro hcz
  rcases f64_cases c hc with h0 | ⟨sg, n, hn⟩
  · exact hz (hcz ▸ h0)
  · have ha : |z| = mag n := by
      rw [← hcz, hn, abs_mul, abs_of_pos (mag_pos n)]
      cases sg <;> simp
    rw [ha] at h1 h2
    have := mag_strictMono.lt_iff_lt.mp h1
    have := mag_strictMono.lt_iff_lt.mp h2
    omega

/-- Where `z` has sign `sgn`, the number of that sign with a pattern just below |z| is the closest towards zero, and the
one with a pattern just above |z| the closest away from it: no number of binary64 lies between. -/
theorem f64_le_of_between (q : Nat) (z : ℝ) (c : W64) (hc : IsNormalOrZero c) (sgn : Bool)
    (hs : z = (if sgn then -1 else 1) * |z|) (h1 : mag q < |z|) (h2 : |z| < mag (q + 1)) :
    let s : ℝ := if sgn then -1 else 1
    (s * ((f64 c : ℚ) : ℝ) < s * z → s * ((f64 c : ℚ) : ℝ) ≤ mag q) ∧
      (s * z < s * ((f64 c : ℚ) : ℝ) → mag (q + 1) ≤ s * ((f64 c : ℚ) : ℝ)) := by
  intro s
  have hss : s * s = 1 := by cases sgn <;> simp [s]
  have hsz : s * z = |z| := by rw [hs, ← mul_assoc, hss, one_mul, abs_mul, abs_abs]; cases sgn <;> simp
  rw [hsz]
  have hq := mag_pos q
  have below : ∀ n, mag n < |z| → mag n ≤ mag q := fun n hn =>
    mag_strictMono.monotone (Nat.lt_succ_iff.mp (mag_strictMono.lt_iff_lt.mp (hn.trans h2)))
  have above : ∀ n, |z| < mag n → mag (q + 1) ≤ mag n := fun n hn =>
    mag_strictMono.monotone (mag_strictMono.lt_iff_lt.mp (h1.trans hn))
  rcases f64_cases c hc with h0 | ⟨sg, n, hn⟩
  · rw [h0, mul_zero]
    exact ⟨fun _ => hq.le, fun h => absurd h (not_lt.mpr (abs_nonneg z))⟩
  · have hn0 := mag_pos n
    have hv : s * ((f64 c : ℚ) : ℝ) = mag n ∨ s * ((f64 c : ℚ) : ℝ) = -mag n := by
      rw [hn]
      cases sgn <;> cases sg <;> simp [s]
    rcases hv with hv | hv <;> rw [hv]
    · exact ⟨below n, above n⟩
    · exact ⟨fun _ => by linarith, fun h => absurd h (not_lt.mpr (by linarith [abs_nonneg z]))⟩

/-- A pattern of the sign of `z` and a magnitude that is |z| or a neighbour of it is a faithful rounding of `z`. -/
theorem faithful_of_pattern (sgn : Bool) (p : Nat) (z : ℝ) (hp1 : 2 ^ 52 ≤ p) (hp2 : p < 2047 * 2 ^ 52) (hz : z ≠ 0)
    (hs : z = (if sgn then -1 else 1) * |z|)
    (h : (mag p < |z| ∧ |z| < mag (p + 1)) ∨ mag p = |z| ∨ (|z| < mag p ∧ ∃ q, p = q + 1 ∧ mag q < |z|)) :
    f64Exponent (BitVec.ofBool sgn ++ BitVec.ofNat 63 p) ≠ 2047 ∧
      IsFaithful (BitVec.ofBool sgn ++ BitVec.ofNat 63 p) z := by
  have hp : p < 2 ^ 63 := by omega
  obtain ⟨-, he, -⟩ := f64_fields sgn p hp
  have hv := f64_of_sign_mag sgn p hp1 hp
  refine ⟨by rw [he]; omega, .inr ⟨by rw [he]; omega, by rw [he]; omega⟩, ?_⟩
  rcases h with ⟨h1, h2⟩ | heq | ⟨h2, q, rfl, h1⟩
  · refine .inr ⟨fun c hc => f64_ne_of_between p z hz h1 h2 c hc, ?_⟩
    have key := fun c hc => (f64_le_of_between p z c hc sgn hs h1 h2).1
    cases sgn
    · simp only [Bool.false_eq_true, if_false, one_mul] at hs hv key
      refine .inl ⟨by rw [hv, hs]; exact h1, fun c hc hcz => ?_⟩
      have := key c hc hcz
      rw [← hv] at this
      exact_mod_cast this
    · simp only [if_true, neg_one_mul] at hs hv key
      refine .inr ⟨by rw [hv]; linarith, fun c hc hcz => ?_⟩
      have := key c hc (by linarith)
      have : ((f64 (BitVec.ofBool true ++ BitVec.ofNat 63 p) : ℚ) : ℝ) ≤ ((f64 c : ℚ) : ℝ) := by rw [hv]; linarith
      exact_mod_cast this
  · left
    rw [hv, heq]
    exact hs.symm
  · refine .inr ⟨fun c hc => f64_ne_of_between q z hz h1 h2 c hc, ?_⟩
    have key := fun c hc => (f64_le_of_between q z c hc sgn hs h1 h2).2
    cases sgn
    · simp only [Bool.false_eq_true, if_false, one_mul] at hs hv key
      refine .inr ⟨by rw [hv, hs]; exact h2, fun c hc hcz => ?_⟩
      have := key c hc hcz
      rw [← hv] at this
      exact_mod_cast this
    · simp only [if_true, neg_one_mul] at hs hv key
      refine .inl ⟨by rw [hv]; linarith, fun c hc hcz => ?_⟩
      have := key c hc (by linarith)
      have : ((f64 c : ℚ) : ℝ) ≤ ((f64 (BitVec.ofBool true ++ BitVec.ofNat 63 (q + 1)) : ℚ) : ℝ) := by rw [hv]; linarith
      exact_mod_cast this

/-- A faithful rounding of Z exists where Z is not zero, and it is finite. -/
theorem exists_faithful (ka kb : BitVec 53) (h : idealZ ka kb ≠ 0) :
    ∃ b, f64Exponent b ≠ 2047 ∧ IsFaithful b (idealZ ka kb) := by
  have hz : idealIsZero ka kb = false := by
    cases hb : idealIsZero ka kb
    · rfl
    · exact absurd (idealZ_of_isZero ka kb hb) h
  have hr := normalMagnitude_range 0 false ka kb hz
  have hm := normalMagnitude_cases 0 false ka kb hz
  obtain ⟨sgn, hs⟩ : ∃ sgn : Bool, idealZ ka kb = (if sgn then -1 else 1) * |idealZ ka kb| := by
    rcases lt_or_ge (idealZ ka kb) 0 with hn | hn
    · exact ⟨true, by simp [abs_of_neg hn]⟩
    · exact ⟨false, by simp [abs_of_nonneg hn]⟩
  exact ⟨_, faithful_of_pattern sgn _ _ (by omega) (by omega) h hs hm⟩

/-- The contract is not empty. -/
theorem normalContract_satisfiable : ∃ f, NormalContract f := by
  classical
  refine ⟨fun ka kb => if h : idealZ ka kb = 0 then 0#64 else (exists_faithful ka kb h).choose, fun ka kb => ?_⟩
  beta_reduce
  by_cases h : idealZ ka kb = 0
  · rw [dif_pos h]
    exact ⟨by decide, fun _ => rfl, fun hn => absurd h hn⟩
  · rw [dif_neg h]
    have hs := (exists_faithful ka kb h).choose_spec
    exact ⟨hs.1, fun h0 => absurd h0 h, fun _ => hs.2⟩

end Sys2Proof.Machine
end

