-- ==== Sys2Proof/Laws/PerInstr.lean ====
section
/-! SUPPORT. What holds of every command as syntax, one lemma per constructor: it is well formed, its word is, and the word
decodes back to it with the DIST value of 30_encoding.md R46. -/

/-- The command, its word and its DIST value agree (30_encoding.md R44, R46, R51). -/
def Sys2Proof.Laws.Encoding.Statement (i : Sys2Proof.Instr) : Prop :=
  i.wellFormed = true ∧ Sys2Proof.CommandWord.wellFormed (Sys2Proof.encode i) = true ∧
    Sys2Proof.decode (Sys2Proof.encode i) = .ok i ∧
    Sys2Proof.distField (Sys2Proof.encode i) = Sys2Proof.distCode i ∧
    Sys2Proof.decodeTableWord 64 (Sys2Proof.encode i).toNat = some i

theorem Sys2Proof.Laws.Encoding.distUint64 : Sys2Proof.Laws.Encoding.Statement .distUint64 := ⟨rfl, rfl, rfl, rfl, rfl⟩

theorem Sys2Proof.Laws.Encoding.distUniform01 : Sys2Proof.Laws.Encoding.Statement .distUniform01 :=
  ⟨rfl, rfl, rfl, rfl, rfl⟩

theorem Sys2Proof.Laws.Encoding.distUniform11 : Sys2Proof.Laws.Encoding.Statement .distUniform11 :=
  ⟨rfl, rfl, rfl, rfl, rfl⟩

theorem Sys2Proof.Laws.Encoding.distNormal : Sys2Proof.Laws.Encoding.Statement .distNormal := ⟨rfl, rfl, rfl, rfl, rfl⟩
end

