-- ==== Sys2Proof/Laws/Step.lean ====
section
/-! SUPPORT. What a step can do, said once: which state a turn runs in, what each host action leaves, and when a command
runs (00_scope.md R8, 42_driver.md R92 to R95). -/

namespace Sys2Proof.Machine

/-! The fields of a core after RESET (70_reset_and_hazards.md R129). -/

@[simp] theorem CoreState.afterReset_size (c : CoreState) : c.afterReset.size = Reg.unwritten := rfl
@[simp] theorem CoreState.afterReset_key0 (c : CoreState) : c.afterReset.key0 = Reg.unwritten := rfl
@[simp] theorem CoreState.afterReset_key1 (c : CoreState) : c.afterReset.key1 = Reg.unwritten := rfl
@[simp] theorem CoreState.afterReset_ctr0 (c : CoreState) : c.afterReset.ctr0 = Reg.unwritten := rfl
@[simp] theorem CoreState.afterReset_ctr1 (c : CoreState) : c.afterReset.ctr1 = Reg.unwritten := rfl
@[simp] theorem CoreState.afterReset_cmd (c : CoreState) : c.afterReset.cmd = Reg.unwritten := rfl
@[simp] theorem CoreState.afterReset_busy (c : CoreState) : c.afterReset.busy = false := rfl
@[simp] theorem CoreState.afterReset_done (c : CoreState) : c.afterReset.done = false := rfl
@[simp] theorem CoreState.afterReset_index (c : CoreState) : c.afterReset.index = 0#64 := rfl
@[simp] theorem CoreState.afterReset_out (c : CoreState) : c.afterReset.out = c.out := rfl

/-- The state a turn at core `k` runs in: the inbox it leaves, the core selected, and whether a free choice was drawn. -/
inductive TurnOf (s : State) : Turn → State → Prop where
  /-- The first of the host's turns. -/
  | host (t : Turn) (ts : List Turn) (h : s.inbox = t :: ts) : TurnOf s t ((s.withInbox ts).withSel t.core)
  /-- Nothing queued and one core BUSY: its driver. -/
  | driver (k : Nat) (h : s.inbox = []) (hk : busyCores s.cores = [k]) : TurnOf s ⟨k, .drive⟩ (s.withSel k)
  /-- Nothing queued and several cores BUSY: the driver of one of them. -/
  | free (j k : Nat) (ks : List Nat) (h : s.inbox = []) (hk : busyCores s.cores = k :: ks) (hj : j ∈ k :: ks) :
      TurnOf s ⟨j, .drive⟩ (s.drawn.withSel j)

/-- A host action that needs no command and answers a next state. -/
theorem fetchAction_done (act : Action) (c : CoreState) (s t : State) (h : fetchAction act c s = .done (.next t)) :
    (∃ r v c', act = .wr r v ∧ r ≠ 5#4 ∧ c.writeRegister r v = .ok c' ∧ t = s.setCurrent c') ∨
    (∃ r v, act = .rd r ∧ c.readRegister r = .ok v ∧ t = s.withReply v) ∨
    (act = .wait ∧ t = waitPoll c s) ∨
    (∃ i a, act = .rdOut i ∧ outAddress? c.out i = some a ∧ t = s.readOut a) ∨
    (∃ i v a, act = .wrOut i v ∧ c.busy = false ∧ outAddress? c.out i = some a ∧
      s.cores.any (CoreState.owns a) = false ∧ t = s.withMem (s.mem.writeElement s.byteOrder a v)) ∨
    (∃ w, act = .bind w ∧ c.busy = false ∧ t = s.setCurrent { c with out := some w }) ∨
    (act = .reset ∧ t = resetCore c s) ∨
    (act = .drive ∧ c.busy = false ∧ t = s) := by
  cases act with
  | wr r v =>
    left
    simp only [fetchAction] at h
    split at h
    · simp only [commandWrite] at h
      split at h
      · simp at h
      · split at h <;> simp at h
    · rename_i hr
      simp only [writeRegisterAt] at h
      cases hw : c.writeRegister r v with
      | error e => simp [hw, outcomeOf] at h
      | ok c' => simp [hw, outcomeOf] at h; exact ⟨r, v, c', rfl, hr, hw, h.symm⟩
  | rd r =>
    simp only [fetchAction, readRegisterAt] at h
    cases hw : c.readRegister r with
    | error e => simp [hw, outcomeOf] at h
    | ok v => simp [hw, outcomeOf] at h; exact .inr (.inl ⟨r, v, rfl, hw, h.symm⟩)
  | wait => simp [fetchAction] at h; exact .inr (.inr (.inl ⟨rfl, h.symm⟩))
  | rdOut i =>
    simp only [fetchAction, readOutAt] at h
    cases ha : outAddress? c.out i with
    | none => simp [ha, outcomeOf] at h
    | some a => simp [ha, outcomeOf] at h; exact .inr (.inr (.inr (.inl ⟨i, a, rfl, ha, h.symm⟩)))
  | wrOut i v =>
    simp only [fetchAction, writeOut] at h
    cases hb : c.busy with
    | true => simp [hb, outcomeOf] at h
    | false =>
      cases ha : outAddress? c.out i with
      | none => simp [ha, hb, outcomeOf] at h
      | some a =>
        cases hn : s.cores.any (CoreState.owns a) with
        | true => simp only [hb, ha, hn] at h; simp [outcomeOf] at h
        | false =>
          simp only [hb, ha, hn] at h
          simp [outcomeOf] at h
          exact .inr (.inr (.inr (.inr (.inl ⟨i, v, a, rfl, rfl, ha, hn, h.symm⟩))))
  | bind w =>
    simp only [fetchAction, bindOut] at h
    cases hb : c.busy with
    | true => simp [hb, outcomeOf] at h
    | false =>
      simp [hb, outcomeOf] at h
      refine .inr (.inr (.inr (.inr (.inr (.inl ⟨w, rfl, rfl, ?_⟩)))))
      rw [← h, ← hb]
  | reset => simp [fetchAction] at h; exact .inr (.inr (.inr (.inr (.inr (.inr (.inl ⟨rfl, h.symm⟩))))))
  | drive =>
    simp only [fetchAction, driverTurn] at h
    cases hb : c.busy with
    | true =>
      simp only [hb] at h
      cases hd : decode c.cmd.val <;> simp [hd] at h
    | false =>
      simp [hb] at h
      exact .inr (.inr (.inr (.inr (.inr (.inr (.inr ⟨rfl, rfl, h.symm⟩))))))

/-- A turn that runs a command: an accepted CMD write, or a BUSY core's driver. -/
theorem fetchAction_run (act : Action) (c : CoreState) (s t : State) (i : Instr) (h : fetchAction act c s = .run i t) :
    t = s ∧ ((∃ w, act = .wr 5#4 w ∧ c.busy = false ∧ decode w = .ok i) ∨
      (act = .drive ∧ c.busy = true ∧ decode c.cmd.val = .ok i)) := by
  cases act with
  | wr r v =>
    simp only [fetchAction] at h
    split at h
    · rename_i hr
      subst hr
      simp only [commandWrite] at h
      cases hb : c.busy with
      | true => simp [hb] at h
      | false =>
        simp only [hb] at h
        cases hd : decode v with
        | error e => simp [hd] at h
        | ok j => simp [hd] at h; exact ⟨h.2.symm, .inl ⟨v, rfl, rfl, by rw [hd, h.1]⟩⟩
    · simp at h
  | drive =>
    simp only [fetchAction, driverTurn] at h
    cases hb : c.busy with
    | false => simp [hb] at h
    | true =>
      simp only [hb] at h
      cases hd : decode c.cmd.val with
      | error e => simp [hd] at h
      | ok j => simp [hd] at h; exact ⟨h.2.symm, .inr ⟨rfl, rfl, by rw [h.1]⟩⟩
  | rd r => simp [fetchAction] at h
  | wait => simp [fetchAction] at h
  | rdOut i => simp [fetchAction] at h
  | wrOut i v => simp [fetchAction] at h
  | bind w => simp [fetchAction] at h
  | reset => simp [fetchAction] at h

/-- The outcome of a turn. -/
def turnOutcome (act : Action) (c : CoreState) (s : State) : Host.Outcome State Fault Refusal :=
  match fetchAction act c s with
  | .run i t => exec i t
  | .done o => o

theorem fetchTurn_some (t : Turn) (s : State) (c : CoreState) (h : s.cores[t.core]? = some c) :
    fetchTurn t s = fetchAction t.act c (s.withSel t.core) := by
  unfold fetchTurn
  rw [State.current?_eq, State.withSel_sel, State.withSel_cores, h]

theorem fetchTurn_none (t : Turn) (s : State) (h : s.cores[t.core]? = none) :
    fetchTurn t s = .done (.refused .noSuchCore) := by
  unfold fetchTurn
  rw [State.current?_eq, State.withSel_sel, State.withSel_cores, h]

theorem mem_busyCores (cores : List CoreState) (k : Nat) :
    k ∈ busyCores cores ↔ ∃ c, cores[k]? = some c ∧ c.busy = true := by
  unfold busyCores
  rw [List.mem_filter, List.mem_range]
  constructor
  · rintro ⟨hk, h⟩
    cases hc : cores[k]? with
    | none => simp [hc] at h
    | some c => exact ⟨c, rfl, by simpa [hc] using h⟩
  · rintro ⟨c, hc, hb⟩
    exact ⟨(List.getElem?_eq_some_iff.mp hc).1, by simp [hc, hb]⟩

theorem busyCores_nodup (cores : List CoreState) : (busyCores cores).Nodup := List.nodup_range.filter _

/-- The list of BUSY cores where one core is BUSY and no other is. -/
theorem busyCores_of_onlyBusy (s : State) (k : Nat) (h : s.OnlyBusy k) (hk : s.IsBusy k) : busyCores s.cores = [k] := by
  have hm := (mem_busyCores s.cores k).mpr hk
  have hall : ∀ j ∈ busyCores s.cores, j = k := fun j hj => by
    obtain ⟨c, hc, hb⟩ := (mem_busyCores s.cores j).mp hj
    exact (h j c hc).mp hb
  have hn := busyCores_nodup s.cores
  revert hm hall hn
  generalize busyCores s.cores = l
  intro hm hall hn
  match l with
  | [] => simp at hm
  | [j] => rw [hall j List.mem_cons_self]
  | i :: j :: js =>
    have h1 := hall i (by simp)
    have h2 := hall j (by simp)
    simp [h1, h2] at hn

theorem nextDriver?_none (s : State) : nextDriver? s = none ↔ busyCores s.cores = [] := by
  unfold nextDriver?
  split <;> simp [*]

/-- The driver a turn is left to is a BUSY core's; only where several are BUSY is a choice drawn. -/
theorem nextDriver?_some (s s' : State) (k : Nat) (h : nextDriver? s = some (k, s')) :
    k ∈ busyCores s.cores ∧ (busyCores s.cores = [k] ∧ s' = s ∨ s' = s.drawn) := by
  unfold nextDriver? at h
  split at h
  · simp at h
  · rename_i j hj
    simp only [Option.some.injEq, Prod.mk.injEq] at h
    obtain ⟨rfl, rfl⟩ := h
    exact ⟨by rw [hj]; exact List.mem_cons_self, .inl ⟨hj, rfl⟩⟩
  · rename_i j js _ hj
    simp only [Option.some.injEq, Prod.mk.injEq] at h
    obtain ⟨rfl, rfl⟩ := h
    refine ⟨?_, .inr rfl⟩
    rw [hj, List.getD_eq_getElem?_getD]
    have hlt : Config.pickDriver s.draws % (js.length + 1) < (j :: js).length := Nat.mod_lt _ (Nat.succ_pos _)
    rw [List.getElem?_eq_getElem hlt]
    exact List.getElem_mem hlt

theorem nextDriver?_lone (s : State) (k : Nat) (h : busyCores s.cores = [k]) : nextDriver? s = some (k, s) := by
  unfold nextDriver?
  rw [h]

/-- A poll of WAIT: DONE = 1, no driver with a step, or a driver's turn and the next poll queued. -/
theorem waitPoll_cases (c : CoreState) (s : State) :
    (c.done = true ∧ waitPoll c s = s.withReply (statusWord c.busy c.done)) ∨
    (c.done = false ∧ busyCores s.cores = [] ∧
      waitPoll c s = (s.withReply (statusWord c.busy c.done)).withInbox (⟨s.sel, .wait⟩ :: s.inbox)) ∨
    ∃ k s', c.done = false ∧ nextDriver? (s.withReply (statusWord c.busy c.done)) = some (k, s') ∧
      (s' = s.withReply (statusWord c.busy c.done) ∨ s' = (s.withReply (statusWord c.busy c.done)).drawn) ∧
      waitPoll c s = s'.withInbox (⟨k, .drive⟩ :: ⟨s.sel, .wait⟩ :: s.inbox) := by
  unfold waitPoll
  cases hd : c.done with
  | true => exact .inl ⟨rfl, rfl⟩
  | false =>
    right
    obtain hn | ⟨⟨k, s'⟩, hn⟩ := Option.eq_none_or_eq_some (nextDriver? (s.withReply (statusWord c.busy false)))
    · exact .inl ⟨rfl, (nextDriver?_none (s.withReply _)).mp hn, by simp [hn]⟩
    · refine .inr ⟨k, s', rfl, hn, ?_, ?_⟩
      · exact (nextDriver?_some _ s' k hn).2.imp And.right id
      · obtain ⟨-, ⟨-, rfl⟩ | rfl⟩ := nextDriver?_some _ s' k hn <;> simp [hn]

/-- A poll of WAIT leaves the cores, the memory and the byte order alone. -/
theorem waitPoll_same (c : CoreState) (s : State) :
    (waitPoll c s).cores = s.cores ∧ (waitPoll c s).mem = s.mem ∧ (waitPoll c s).sel = s.sel ∧
      (waitPoll c s).byteOrder = s.byteOrder := by
  obtain ⟨-, h⟩ | ⟨-, -, h⟩ | ⟨k, s', -, -, rfl | rfl, h⟩ := waitPoll_cases c s <;> simp [h]

/-- The turn a step takes leaves the cores alone, and runs in one of three states. -/
theorem nextTurn?_some (s s' : State) (u : Turn) (h : nextTurn? s = some (u, s')) :
    s'.cores = s.cores ∧ TurnOf s u (s'.withSel u.core) := by
  unfold nextTurn? at h
  split at h
  · rename_i t ts hi
    simp only [Option.some.injEq, Prod.mk.injEq] at h
    obtain ⟨rfl, rfl⟩ := h
    exact ⟨rfl, .host t ts hi⟩
  · rename_i hi
    cases hd : nextDriver? s with
    | none => simp [hd] at h
    | some d =>
      obtain ⟨k, d'⟩ := d
      simp only [hd, Option.map_some, Option.some.injEq, Prod.mk.injEq] at h
      obtain ⟨rfl, rfl⟩ := h
      obtain ⟨hm, ⟨hk, rfl⟩ | rfl⟩ := nextDriver?_some s _ k hd
      · exact ⟨rfl, .driver k hi hk⟩
      · cases hb : busyCores s.cores with
        | nil => simp [hb] at hm
        | cons j js => exact ⟨rfl, .free k j js hi hb (hb ▸ hm)⟩

/-- The turn that a step takes is what it runs. -/
theorem step_of_nextTurn (s s' : State) (u : Turn) (c : CoreState) (h : nextTurn? s = some (u, s'))
    (hc : s.cores[u.core]? = some c) : step s = turnOutcome u.act c (s'.withSel u.core) := by
  unfold step fetch turnOutcome
  rw [h]
  simp only
  rw [fetchTurn_some u s' c (by rw [(nextTurn?_some s s' u h).1]; exact hc)] <;> rfl

/-- The first of the host's turns is what a step takes. -/
theorem step_of_turn (s : State) (t : Turn) (ts : List Turn) (c : CoreState) (h : s.inbox = t :: ts)
    (hc : s.cores[t.core]? = some c) : step s = turnOutcome t.act c ((s.withInbox ts).withSel t.core) :=
  step_of_nextTurn s (s.withInbox ts) t c (by unfold nextTurn?; rw [h]) hc

/-- With nothing queued and one core BUSY, a step is its driver's. -/
theorem step_of_driver (s : State) (k : Nat) (c : CoreState) (h : s.inbox = []) (hk : busyCores s.cores = [k])
    (hc : s.cores[k]? = some c) : step s = turnOutcome .drive c (s.withSel k) :=
  step_of_nextTurn s s ⟨k, .drive⟩ c (by unfold nextTurn?; rw [h]; simp [nextDriver?_lone s k hk]) hc

/-- With nothing queued and no core BUSY there is no turn to take. -/
theorem nextTurn?_none (s : State) : nextTurn? s = none ↔ s.inbox = [] ∧ busyCores s.cores = [] := by
  unfold nextTurn?
  split <;> simp [*, nextDriver?_none]

/-- With nothing queued and no core BUSY, the machine waits. -/
theorem step_of_idle (s : State) (h : s.inbox = []) (hk : busyCores s.cores = []) : step s = .next s := by
  unfold step fetch
  rw [(nextTurn?_none s).mpr ⟨h, hk⟩]

/-- A step that answers a next state waited, or took its turn at a core of the system. -/
theorem step_cases (s t : State) (h : step s = .next t) :
    (s.turn? = none ∧ t = s) ∨
      ∃ (u : Turn) (s' : State) (c : CoreState), s.turn? = some u ∧ TurnOf s u s' ∧ s'.current? = some c ∧
        s'.sel = u.core ∧ turnOutcome u.act c s' = .next t := by
  unfold State.turn?
  cases hn : nextTurn? s with
  | none =>
    unfold step fetch at h
    rw [hn] at h
    exact .inl ⟨rfl, by simpa using h.symm⟩
  | some d =>
    obtain ⟨u, d'⟩ := d
    right
    obtain ⟨hs, ht⟩ := nextTurn?_some s d' u hn
    cases hc : s.cores[u.core]? with
    | none =>
      unfold step fetch at h
      rw [hn] at h
      simp only at h
      rw [fetchTurn_none u d' (by rw [hs]; exact hc)] at h
      simp at h
    | some c =>
      rw [step_of_nextTurn s d' u c hn hc] at h
      exact ⟨u, _, c, rfl, ht, by simpa [State.current?, hs] using hc, rfl, h⟩

/-- Everything a turn at core `c` of `s` can leave, with its conditions: a state `t` with the same cores and memory, or one
of the seven changes the host's actions and the driver's phases make. -/
inductive TurnEffect (act : Action) (c : CoreState) (s t : State) : Prop where
  /-- A host read, a poll, or a driver with no enabled step: only the reply, the inbox and the draws may differ. -/
  | quiet (hcores : t.cores = s.cores) (hmem : t.mem = s.mem) (hsel : t.sel = s.sel)
      (horder : t.byteOrder = s.byteOrder) (hidle : act = .drive → c.busy = false)
  /-- A host write to OUT. -/
  | wroteOut (i : Nat) (v : W64) (a : Nat) (hact : act = .wrOut i v) (hbusy : c.busy = false)
      (haddr : outAddress? c.out i = some a) (howns : s.cores.any (CoreState.owns a) = false)
      (heq : t = s.withMem (s.mem.writeElement s.byteOrder a v))
  /-- A host write of an operand register. -/
  | wroteOperand (r : BitVec 4) (v : W64) (hact : act = .wr r v) (hr : r.toNat < 5) (hbusy : c.busy = false)
      (heq : t = s.setCurrent (c.setOperand r v))
  /-- A binding of OUT. -/
  | bound (w : Window) (hact : act = .bind w) (hbusy : c.busy = false) (heq : t = s.setCurrent { c with out := some w })
  /-- RESET. -/
  | reset (hact : act = .reset) (heq : t = s.setCurrent c.afterReset)
  /-- An accepted CMD write. -/
  | started (i : Instr) (w : W64) (win : Window) (hact : act = .wr 5#4 w) (hdecode : decode w = .ok i)
      (hbusy : c.busy = false) (hheld : c.operandsHeld = true) (hout : c.out = some win)
      (hsize : c.size.val.toNat ≤ win.cap.toNat)
      (hfree : anyOtherCore s.cores s.sel (CoreState.busyOver win) = false)
      (heq : t = s.setCurrent (c.started (encode i)))
  /-- An element step. -/
  | stored (i : Instr) (a : Nat) (hact : act = .drive) (hbusy : c.busy = true) (hcmd : c.cmd.val = encode i)
      (hlt : c.index.toNat < c.size.val.toNat) (haddr : c.storeAddress? = some a)
      (heq : t = (s.withMem (s.mem.writeElement s.byteOrder a (transformOf i c.block.1 c.block.2))).setCurrent c.advanced)
  /-- A completion step. -/
  | completed (i : Instr) (hact : act = .drive) (hbusy : c.busy = true) (hcmd : c.cmd.val = encode i)
      (hend : c.index = c.size.val) (heq : t = s.setCurrent c.completed)

/-- A register write that is accepted sets an operand register of a core that is not BUSY. -/
theorem CoreState.writeRegister_ok (c c' : CoreState) (r : BitVec 4) (v : W64) (hr : r ≠ 5#4)
    (h : c.writeRegister r v = .ok c') : r.toNat < 5 ∧ c.busy = false ∧ c' = c.setOperand r v := by
  unfold CoreState.writeRegister at h
  split at h
  · simp at h
  · split at h
    · simp at h
    · rename_i h5
      split at h
      · simp at h
      · rename_i hb
        refine ⟨?_, by simpa using hb, by simpa using h.symm⟩
        have h6 : ¬5 < r.toNat := by simpa [BitVec.lt_def] using h5
        have h7 : r.toNat ≠ 5 := fun he => hr (BitVec.eq_of_toNat_eq he)
        omega

/-- A turn that answers a next state leaves one of those effects. -/
theorem turnOutcome_cases (act : Action) (c : CoreState) (s t : State) (hc : s.current? = some c)
    (h : turnOutcome act c s = .next t) : TurnEffect act c s t := by
  unfold turnOutcome at h
  cases hf : fetchAction act c s with
  | done o =>
    rw [hf] at h
    simp only at h
    subst h
    obtain ⟨r, v, c', h1, h2, h3, h4⟩ | ⟨r, v, h0, -, rfl⟩ | ⟨h0, rfl⟩ | ⟨i, a, h0, -, rfl⟩ | ⟨i, v, a, h1, h2, h3, h4, h5⟩ |
      ⟨w, h1, h2, h3⟩ | ⟨h1, h2⟩ | ⟨-, h0, rfl⟩ := fetchAction_done _ _ _ _ hf
    · obtain ⟨h5, h6, rfl⟩ := c.writeRegister_ok c' r v h2 h3
      exact .wroteOperand r v h1 h5 h6 h4
    · exact .quiet rfl rfl rfl rfl (by simp [h0])
    · obtain ⟨h1, h2, h3, h4⟩ := waitPoll_same c s
      exact .quiet h1 h2 h3 h4 (by simp [h0])
    · unfold State.readOut
      split <;> exact .quiet rfl rfl rfl rfl (by simp [h0])
    · exact .wroteOut i v a h1 h2 h3 h4 h5
    · exact .bound w h1 h2 h3
    · exact .reset h1 h2
    · exact .quiet rfl rfl rfl rfl fun _ => h0
  | run i s' =>
    rw [hf] at h
    simp only at h
    obtain ⟨rfl, hx⟩ := fetchAction_run _ _ _ _ _ hf
    rw [exec_eq_runCommand] at h
    obtain ⟨c', hc', hy⟩ := runCommand_cases i _ _ t h
    rw [hc] at hc'
    cases hc'
    obtain ⟨w, h1, h2, h3⟩ | ⟨h1, h2, h3⟩ := hx
    · obtain ⟨hb, hh, ⟨win, ho, hs, hn⟩, rfl⟩ | ⟨hb, -⟩ | ⟨hb, -⟩ := hy
      · exact .started i w win h1 h3 hb hh ho hs hn rfl
      · simp [h2] at hb
      · simp [h2] at hb
    · obtain ⟨hb, -⟩ | ⟨hb, hi, hlt, a, ha, rfl⟩ | ⟨hb, hi, he, rfl⟩ := hy
      · simp [h2] at hb
      · exact .stored i a h1 hb hi hlt ha rfl
      · exact .completed i h1 hb hi he rfl

/-- What a turn does to the queue: nothing, but that a poll of WAIT with DONE = 0 comes again, after a driver's turn where
some core is BUSY. -/
theorem turnOutcome_inbox (act : Action) (c : CoreState) (s t : State) (h : turnOutcome act c s = .next t) :
    t.inbox = s.inbox ∨ (act = .wait ∧ c.done = false ∧
      ((busyCores s.cores = [] ∧ t.inbox = ⟨s.sel, .wait⟩ :: s.inbox) ∨
        ∃ k ∈ busyCores s.cores, t.inbox = ⟨k, .drive⟩ :: ⟨s.sel, .wait⟩ :: s.inbox)) := by
  unfold turnOutcome at h
  cases hf : fetchAction act c s with
  | done o =>
    rw [hf] at h
    simp only at h
    subst h
    obtain ⟨r, v, c', -, -, -, rfl⟩ | ⟨r, v, -, -, rfl⟩ | ⟨ha, rfl⟩ | ⟨i, a, -, -, rfl⟩ | ⟨i, v, a, -, -, -, -, rfl⟩ |
      ⟨w, -, -, rfl⟩ | ⟨-, rfl⟩ | ⟨-, -, rfl⟩ := fetchAction_done _ _ _ _ hf
    · exact .inl rfl
    · exact .inl rfl
    · obtain ⟨-, h⟩ | ⟨hd, hb, h⟩ | ⟨k, s', hd, hn, -, h⟩ := waitPoll_cases c s <;> rw [h]
      · exact .inl rfl
      · exact .inr ⟨ha, hd, .inl ⟨hb, rfl⟩⟩
      · exact .inr ⟨ha, hd, .inr ⟨k, (nextDriver?_some _ s' k hn).1, rfl⟩⟩
    · left
      unfold State.readOut
      split <;> rfl
    · exact .inl rfl
    · exact .inl rfl
    · exact .inl rfl
    · exact .inl rfl
  | run i s' =>
    rw [hf] at h
    simp only at h
    obtain ⟨rfl, -⟩ := fetchAction_run _ _ _ _ _ hf
    rw [exec_eq_runCommand] at h
    obtain ⟨c', -, ⟨-, -, -, rfl⟩ | ⟨-, -, -, a, -, rfl⟩ | ⟨-, -, -, rfl⟩⟩ := runCommand_cases i _ _ t h <;> exact .inl rfl

/-- The state a turn runs in has the cores, the memory and the byte order of the state before the step. -/
theorem TurnOf.same {s s' : State} {u : Turn} (h : TurnOf s u s') :
    s'.cores = s.cores ∧ s'.mem = s.mem ∧ s'.byteOrder = s.byteOrder ∧ s'.sel = u.core := by
  cases h <;> simp

/-- A turn that is not its driver's is the first of the host's. -/
theorem TurnOf.inbox {s s' : State} {u : Turn} (h : TurnOf s u s') : u.act = .drive ∨ ∃ ts, s.inbox = u :: ts := by
  cases h with
  | host t ts h => exact .inr ⟨ts, h⟩
  | driver => exact .inl rfl
  | free => exact .inl rfl

end Sys2Proof.Machine
end

