-- ==== Sys2Proof/Tests/Slice0.lean ====
section
/-! SUPPORT. Tests against values the spec prints (95_test_vectors.md and the examples of the rules), the smoke test of
WellFormed, and a state for the hypotheses of each obligation. -/

namespace Sys2Proof.Tests

open Sys2Proof.Machine

/-! ## Small states -/

/-- `BIND 4` on array 0. -/
def win4 : Window := ⟨0, 0#64, 4#64⟩

/-- Operands (n, 0, 0, 0, c1) written and `BIND 4` (95_test_vectors.md 6.2). -/
def ready (n c1 : W64) : CoreState :=
  { CoreState.reset with
    size := Reg.of n, key0 := Reg.of 0#64, key1 := Reg.of 0#64, ctr0 := Reg.of 0#64, ctr1 := Reg.of c1, out := some win4 }

/-- That core running command `i`, `k` elements written. -/
def running (i : Instr) (n k : W64) : CoreState :=
  { ready n 0#64 with cmd := Reg.of (encode i), busy := true, index := k, cctr := k }

/-- A system of the given cores with the given turns queued. -/
def sys (cs : List CoreState) (ts : List Turn) : State := { State.reset with cores := cs, inbox := ts }

/-- The next state of an outcome. -/
def next? (o : Host.Outcome State Fault Refusal) : Option State :=
  match o with
  | .next s => some s
  | .fault _ => none
  | .refused _ => none

/-- The reason of a refusal. -/
def why? (o : Host.Outcome State Fault Refusal) : Option Refusal :=
  match o with
  | .next _ => none
  | .fault _ => none
  | .refused r => some r

/-- The core whose turn it was, after an outcome. -/
def after (o : Host.Outcome State Fault Refusal) : Option CoreState := (next? o).bind State.current?

/-- Element `i` of OUT after an outcome. -/
def element (o : Host.Outcome State Fault Refusal) (i : Nat) : Option W64 :=
  (next? o).bind fun s => s.mem.readElement? s.byteOrder (win4.address i)

/-- What a host read answered. -/
def answer (o : Host.Outcome State Fault Refusal) : Option W64 := (next? o).bind State.reply

/-! ## WellFormed: an ill-formed term for each check -/

-- 30_encoding.md R48; the two words are those of 95_test_vectors.md 6.4
theorem test_word_bit2_refused : CommandWord.wellFormed 4#64 = false := by decide
theorem test_word_bit63_refused : CommandWord.wellFormed 0x8000000000000001#64 = false := by decide
theorem test_words_accepted : ∀ d : BitVec 2, CommandWord.wellFormed (0#62 ++ d) = true := by decide
-- 30_encoding.md R45: scalars are 64-bit values; the line of R53 is well formed
theorem test_line_accepted : (CommandLine.mk .distUint64 11 3405692589 3131965165 1357111317 888118218888).wellFormed = true := by
  decide
theorem test_line_size_refused : (CommandLine.mk .distUint64 (2 ^ 64) 0 0 0 0).wellFormed = false := by decide
theorem test_line_key0_refused : (CommandLine.mk .distUint64 0 (2 ^ 64) 0 0 0).wellFormed = false := by decide
theorem test_line_key1_refused : (CommandLine.mk .distUint64 0 0 (2 ^ 64) 0 0).wellFormed = false := by decide
theorem test_line_counter0_refused : (CommandLine.mk .distUint64 0 0 0 (2 ^ 64) 0).wellFormed = false := by decide
theorem test_line_counter1_refused : (CommandLine.mk .distUint64 0 0 0 0 (2 ^ 64)).wellFormed = false := by decide

/-! ## Decoding: words written out bit by bit from 30_encoding.md R44, R46 (RSVZ 62 zeros, then DIST) -/

theorem test_decode_uint64 :
    decode 0b0000000000000000000000000000000000000000000000000000000000000000#64 = .ok .distUint64 := rfl
theorem test_decode_uniform01 :
    decode 0b0000000000000000000000000000000000000000000000000000000000000001#64 = .ok .distUniform01 := rfl
theorem test_decode_uniform11 :
    decode 0b0000000000000000000000000000000000000000000000000000000000000010#64 = .ok .distUniform11 := rfl
theorem test_decode_normal :
    decode 0b0000000000000000000000000000000000000000000000000000000000000011#64 = .ok .distNormal := rfl
theorem test_decode_reserved : decode 7#64 = .error .reservedCommand := rfl
theorem test_decodeTableWord : decodeTableWord 64 3 = some .distNormal ∧ decodeTableWord 64 4 = none := by decide

/-! ## The first step after reset -/

theorem test_first_step :
    (after (step (State.reset.withFetchWord 64 2))).map (fun c => (c.cmd, c.busy, c.done, c.index)) =
      some (Reg.of 2#64, true, false, 0#64) := by decide
theorem test_first_step_reserved : why? (step (State.reset.withFetchWord 64 4)) = some .reservedCommand := by decide
-- 70_reset_and_hazards.md R129: after reset the core waits for the host
theorem test_reset_waits : next? (step State.reset) = some State.reset := by decide

/-! ## The mixer: 95_test_vectors.md section 3 -/

theorem test_mix_zero : mix 0#64 0#64 0#64 0#64 = (0xC2B6E3A8C2C69865#64, 0x6F81ED42F350084D#64) := by decide
theorem test_mix_known : mix 0xCAFEBEAD#64 0xBAADFEED#64 0x50E3E015#64 0xCEC7F89088#64 =
    (0x864562D57A353D9D#64, 0xA936249FBC19F224#64) := by decide
theorem test_mix_order : mix 1#64 2#64 3#64 4#64 = (0x15ACD98A9F8E9D23#64, 0xEFDD07BA0D53090B#64) := by decide
theorem test_mix_ones : mix (BitVec.allOnes 64) (BitVec.allOnes 64) (BitVec.allOnes 64) (BitVec.allOnes 64) =
    (0xE02CB7C4D95D277A#64, 0xD06633D0893B8B68#64) := by decide
theorem test_round_wraps : round 0 ⟨0xFFFFFFFFFFFFFFFF#64, 1#64⟩ = ⟨0#64, 0x10000#64⟩ := by decide
theorem test_round_rotation_32 : round 5 ⟨0x1BD11BDAA9FC1A23#64, 0x000BB226B3DF01F2#64⟩ =
    ⟨0x1BDCCE015DDB1C15#64, 0xA803CFF35DD0AE33#64⟩ := by decide
theorem test_inject_5 : inject ⟨1#64, 2#64, 3#64⟩ 5 ⟨0xFFFFFFFFFFFFFFFF#64, 0xFFFFFFFFFFFFFFFE#64⟩ = ⟨2#64, 4#64⟩ := by
  decide

/-! ## The converters: 95_test_vectors.md section 4 -/

theorem test_uniform01_largest_zero : asUniform01 0x7FF#64 = 0#64 := by decide
theorem test_uniform01_smallest : asUniform01 0x800#64 = 0x3CA0000000000000#64 := by decide
theorem test_uniform01_largest : asUniform01 0xFFFFFFFFFFFFFFFF#64 = 0x3FEFFFFFFFFFFFFF#64 := by decide
theorem test_uniform01_known : asUniform01 0x864562D57A353D9D#64 = 0x3FE0C8AC5AAF46A7#64 := by decide
theorem test_uniform11_most_negative : asUniform11 0x8000000000000000#64 = 0xBFF0000000000000#64 := by decide
theorem test_uniform11_largest : asUniform11 0x7FFFFFFFFFFFFFFF#64 = 0x3FEFFFFFFFFFFFFE#64 := by decide
theorem test_uniform11_minus_step : asUniform11 0xFFFFFFFFFFFFFFFF#64 = 0xBCB0000000000000#64 := by decide
theorem test_uniform11_known : asUniform11 0x864562D57A353D9D#64 = 0xBFEE6EA74AA172B2#64 := by decide

/-! ## The normal transform: 95_test_vectors.md section 5 -/

-- Z = -0.602799374648 to within 1e-11 (5.1, row 0): both bounds of its size lie in that range
theorem test_normal_known :
    (0x3FE34A21EA000000 ≤ normalLow 0 4724242208736935#53 5953600248841022#53 ∧
      normalHigh 0 4724242208736935#53 5953600248841022#53 ≤ 0x3FE34A21EA100000) ∧
      idealIsNegative 5953600248841022#53 = true := by
  decide +kernel
-- Z is no binary64 number there: its two neighbours are what R86 (d) allows, and more precision finds the same two
theorem test_normal_neighbours :
    normalMagnitude 0 true 4724242208736935#53 5953600248841022#53 =
      normalMagnitude 0 false 4724242208736935#53 5953600248841022#53 + 1 ∧
    normalMagnitude 9 true 4724242208736935#53 5953600248841022#53 =
      normalMagnitude 0 true 4724242208736935#53 5953600248841022#53 := by decide +kernel
-- Z = 0 exactly (5.4)
theorem test_normal_zero_log (n : Nat) (up : Bool) : normalCandidate n up 9007199254740991#53 5#53 = 0#64 := rfl
theorem test_normal_zero_cos (n : Nat) (up : Bool) : normalCandidate n up 5#53 6755399441055744#53 = 0#64 := rfl
-- the smallest magnitude of a non-zero Z, about 1.04e-23, is negative (5.4): biased exponent 1023 - 77
theorem test_normal_smallest : normalLow 0 9007199254740990#53 2251799813685249#53 / 2 ^ 52 = 946 ∧
    idealIsNegative 2251799813685249#53 = true := by decide +kernel
-- sqrt(106 ln 2) = 8.5716743..., in [8, 16): biased exponent 1023 + 3 (5.4)
theorem test_normal_largest : normalHigh 0 0#53 0#53 / 2 ^ 52 = 1026 ∧ idealIsNegative 0#53 = false := by decide +kernel

/-! ## The commands: examples of 42_driver.md R101 to R104 and 95_test_vectors.md 6.2 -/

theorem test_uint64_element : element (exec .distUint64 (sys [running .distUint64 2#64 0#64] [])) 0 =
    some 0xC2B6E3A8C2C69865#64 := by decide +kernel
theorem test_uint64_second_element : element (exec .distUint64 (sys [running .distUint64 2#64 1#64] [])) 1 =
    some 0xA5DAF30E64AE04C0#64 := by decide +kernel
theorem test_uniform01_element : element (exec .distUniform01 (sys [running .distUniform01 1#64 0#64] [])) 0 =
    some 0x3FE856DC751858D3#64 := by decide +kernel
theorem test_uniform11_element : element (exec .distUniform11 (sys [running .distUniform11 1#64 0#64] [])) 0 =
    some 0xBFDEA48E2B9E9CB4#64 := by decide +kernel
-- the pair (ka, kb) of the example of 42_driver.md R104
theorem test_normal_pair : (top53 (running .distNormal 1#64 0#64).block.1, top53 (running .distNormal 1#64 0#64).block.2) =
    (6850904298379475#53, 3923322305669633#53) := by decide +kernel
theorem test_normal_runs : after (exec .distNormal (sys [running .distNormal 1#64 0#64] [])) =
    some (running .distNormal 1#64 1#64) := rfl
theorem test_element_advances : (after (exec .distUint64 (sys [running .distUint64 2#64 0#64] []))).map
    (fun c => (c.index, c.cctr, c.busy, c.done)) = some (1#64, 1#64, true, false) := by decide +kernel
theorem test_completion : (after (exec .distNormal (sys [running .distNormal 2#64 2#64] []))).map
    (fun c => (c.index, c.busy, c.done)) = some (2#64, false, true) := by decide +kernel
-- 42_driver.md R96: CTR1 = 2^64 - 1, the counter wraps
theorem test_counter_wraps : ctrInc 0xFFFFFFFFFFFFFFFF#64 = 0#64 := by decide

/-! ## Host actions: 95_test_vectors.md 6.1, 6.4, 6.5 -/

theorem test_cmd_accepted : (after (step (sys [ready 2#64 7#64] [⟨0, .wr 5#4 1#64⟩]))).map
    (fun c => (c.cmd, c.busy, c.index, c.cctr)) = some (Reg.of 1#64, true, 0#64, 7#64) := by decide
theorem test_refused_busy : why? (step (sys [running .distNormal 2#64 1#64] [⟨0, .wr 0#4 5#64⟩])) = some .writeWhileBusy := by
  decide
theorem test_refused_busy_first : why? (step (sys [running .distNormal 2#64 1#64] [⟨0, .wr 5#4 4#64⟩])) =
    some .writeWhileBusy := by decide
theorem test_refused_reserved_first : why? (step (sys [CoreState.reset] [⟨0, .wr 5#4 7#64⟩])) = some .reservedCommand := by
  decide
theorem test_refused_operand : why? (step (sys [{ ready 1#64 0#64 with ctr1 := Reg.unwritten }] [⟨0, .wr 5#4 0#64⟩])) =
    some .operandUnwritten := by decide
theorem test_refused_buffer : why? (step (sys [ready 5#64 0#64] [⟨0, .wr 5#4 0#64⟩])) = some .bufferTooSmall := by decide
theorem test_refused_no_buffer : why? (step (sys [{ ready 0#64 0#64 with out := none }] [⟨0, .wr 5#4 0#64⟩])) =
    some .bufferTooSmall := by decide
/-- A on window [0, 8) is BUSY, B is bound to a window of eight elements from `b` on. -/
def twoCores (b : W64) : List CoreState :=
  [{ running .distUint64 8#64 1#64 with out := some ⟨0, 0#64, 8#64⟩ },
   { ready 1#64 0#64 with out := some ⟨0, b, 8#64⟩ }]

theorem test_refused_overlap : why? (step (sys (twoCores 4#64) [⟨1, .wr 5#4 0#64⟩])) = some .overlappingBuffers := by decide
theorem test_adjacent_accepted : (after (step (sys (twoCores 8#64) [⟨1, .wr 5#4 0#64⟩]))).map CoreState.busy = some true := by
  decide
theorem test_read_unwritten : why? (step (sys [CoreState.reset] [⟨0, .rd 1#4⟩])) = some .readUnwritten := by decide
theorem test_read_version : answer (step (sys [CoreState.reset] [⟨0, .rd 8#4⟩])) = some 1#64 := by decide
theorem test_read_status : answer (step (sys [running .distUint64 2#64 1#64] [⟨0, .rd 6#4⟩])) = some 1#64 := by decide
theorem test_read_reserved : why? (step (sys [CoreState.reset] [⟨0, .rd 9#4⟩])) = some .reservedRegister := by decide
theorem test_write_reserved : why? (step (sys [CoreState.reset] [⟨0, .wr 12#4 0#64⟩])) = some .reservedRegister := by decide
theorem test_write_read_only : why? (step (sys [CoreState.reset] [⟨0, .wr 8#4 2#64⟩])) = some .writeReadOnly := by decide
theorem test_out_touched : why? (step (sys [running .distUint64 2#64 1#64] [⟨0, .wrOut 3 0#64⟩])) =
    some .bufferTouchedWhileBusy := by decide
theorem test_out_of_range : why? (step (sys [ready 1#64 0#64] [⟨0, .rdOut 4⟩])) = some .outOfRange := by decide
theorem test_reset_while_busy : (after (step (sys [running .distUint64 4#64 2#64] [⟨0, .reset⟩]))).map
    (fun c => (c.busy, c.done, c.index, c.size.held, c.cmd.held)) = some (false, false, 0#64, false, false) := by decide

/-! ## Witnesses: for each obligation with hypotheses, a state and operands that meet them all -/

theorem wit_StepRunsWrittenCommand :
    (sys [ready 2#64 0#64] [⟨0, .wr 5#4 3#64⟩]).inbox = ⟨0, .wr 5#4 3#64⟩ :: [] ∧
      (sys [ready 2#64 0#64] [⟨0, .wr 5#4 3#64⟩]).cores[0]? = some (ready 2#64 0#64) ∧
      (ready 2#64 0#64).busy = false ∧ decode 3#64 = .ok .distNormal := ⟨rfl, rfl, rfl, rfl⟩

theorem wit_StepRunsScheduledDriver :
    (sys [running .distUniform11 2#64 1#64] [⟨0, .drive⟩]).inbox = ⟨0, .drive⟩ :: [] ∧
      (sys [running .distUniform11 2#64 1#64] [⟨0, .drive⟩]).cores[0]? = some (running .distUniform11 2#64 1#64) ∧
      (running .distUniform11 2#64 1#64).busy = true ∧
      decode (running .distUniform11 2#64 1#64).cmd.val = .ok .distUniform11 := ⟨rfl, rfl, rfl, rfl⟩

/-- In a system of one core, what holds of that core holds of every core. -/
theorem only_core (c : CoreState) (ts : List Turn) (P : Nat → CoreState → Prop) (h : P 0 c) :
    ∀ (j : Nat) (d : CoreState), (sys [c] ts).cores[j]? = some d → P j d := by
  intro j d hd
  cases j with
  | zero => cases hd; exact h
  | succ j => cases j <;> simp [sys] at hd

theorem wit_StepRunsLoneDriver :
    (sys [running .distUint64 2#64 2#64] []).inbox = [] ∧ (sys [running .distUint64 2#64 2#64] []).OnlyBusy 0 ∧
      (sys [running .distUint64 2#64 2#64] []).cores[0]? = some (running .distUint64 2#64 2#64) ∧
      decode (running .distUint64 2#64 2#64).cmd.val = .ok .distUint64 :=
  ⟨rfl, only_core _ _ (fun j c => c.busy = true ↔ j = 0) (by decide), rfl, rfl⟩

theorem wit_IdleMachineWaits :
    (sys [ready 2#64 0#64] []).inbox = [] ∧
      ∀ (k : Nat) (c : CoreState), (sys [ready 2#64 0#64] []).cores[k]? = some c → c.busy = false :=
  ⟨rfl, only_core _ _ (fun _ c => c.busy = false) rfl⟩

-- every branch: BUSY, reserved word, operand unwritten, no buffer, buffer too small, overlap, accepted
theorem wit_CommandWriteStartsOrRefuses (c : CoreState) (w : W64) :
    (sys [c] [⟨0, .wr 5#4 w⟩]).inbox = ⟨0, .wr 5#4 w⟩ :: [] ∧ (sys [c] [⟨0, .wr 5#4 w⟩]).cores[0]? = some c := ⟨rfl, rfl⟩

theorem wit_CommandStarts :
    (sys (twoCores 8#64) []).withSel 1 = { sys (twoCores 8#64) [] with sel := 1 } ∧
      ((sys (twoCores 8#64) []).withSel 1).current? = some { ready 1#64 0#64 with out := some ⟨0, 8#64, 8#64⟩ } ∧
      (ready 1#64 0#64).busy = false ∧ (ready 1#64 0#64).operandsHeld = true ∧
      (1#64).toNat ≤ (8#64).toNat ∧ Window.overlaps ⟨0, 0#64, 8#64⟩ ⟨0, 8#64, 8#64⟩ = false := by decide

theorem wit_CommandStarts_full :
    (sys [ready 4#64 0#64] []).current? = some (ready 4#64 0#64) ∧ (ready 4#64 0#64).busy = false ∧
      (ready 4#64 0#64).operandsHeld = true ∧ (ready 4#64 0#64).out = some win4 ∧
      (ready 4#64 0#64).size.val.toNat ≤ win4.cap.toNat ∧
      ∀ (j : Nat) (d : CoreState) (v : Window), j ≠ (sys [ready 4#64 0#64] []).sel →
        (sys [ready 4#64 0#64] []).cores[j]? = some d → d.busy = true → d.out = some v → v.overlaps win4 = false := by
  refine ⟨rfl, rfl, rfl, rfl, by decide, fun j d v hj hd => ?_⟩
  exact only_core (ready 4#64 0#64) [] (fun j d => j ≠ 0 → d.busy = true → d.out = some v → v.overlaps win4 = false)
    (fun h => absurd rfl h) j d hd hj

/-- The hypotheses of the four element-step statements, at the last element of a full buffer. -/
theorem wit_ElementSteps (i : Instr) :
    (sys [running i 4#64 3#64] []).current? = some (running i 4#64 3#64) ∧ (running i 4#64 3#64).busy = true ∧
      (running i 4#64 3#64).cmd.val = encode i ∧
      (running i 4#64 3#64).index.toNat < (running i 4#64 3#64).size.val.toNat ∧
      (running i 4#64 3#64).out = some win4 ∧ (running i 4#64 3#64).index.toNat < win4.cap.toNat := by
  cases i <;> decide

theorem wit_CommandCompletes (i : Instr) :
    (sys [running i 4#64 4#64] []).current? = some (running i 4#64 4#64) ∧ (running i 4#64 4#64).busy = true ∧
      (running i 4#64 4#64).cmd.val = encode i ∧ (running i 4#64 4#64).index = (running i 4#64 4#64).size.val := by
  cases i <;> decide

-- the three kinds of phase: a start, an element step (with its store address), a completion
theorem wit_CommandFrame_start :
    (sys [ready 2#64 0#64] []).current? = some (ready 2#64 0#64) ∧ (ready 2#64 0#64).busy = false ∧
      exec .distNormal (sys [ready 2#64 0#64] []) =
        .next ((sys [ready 2#64 0#64] []).setCurrent ((ready 2#64 0#64).started 3#64)) := ⟨rfl, rfl, rfl⟩

theorem wit_CommandFrame_element :
    (running .distUint64 2#64 1#64).busy = true ∧
      (running .distUint64 2#64 1#64).index.toNat < (running .distUint64 2#64 1#64).size.val.toNat ∧
      outAddress? (running .distUint64 2#64 1#64).out (running .distUint64 2#64 1#64).index.toNat = some 8 ∧
      (next? (exec .distUint64 (sys [running .distUint64 2#64 1#64] []))).isSome = true := by decide +kernel

theorem wit_CommandFrame_complete :
    (running .distUint64 2#64 2#64).busy = true ∧
      (running .distUint64 2#64 2#64).index = (running .distUint64 2#64 2#64).size.val ∧
      (next? (exec .distUint64 (sys [running .distUint64 2#64 2#64] []))).isSome = true := by decide +kernel

/-- A state about to write the word of a command of `n` elements. -/
theorem readyFor (i : Instr) (n c1 : W64) (h : n.toNat ≤ 4) :
    (sys [ready n c1] [⟨0, .wr 5#4 (encode i)⟩]).ReadyFor 0 i (ready n c1) win4 :=
  ⟨rfl, rfl, only_core _ _ (fun _ c => c.busy = false) rfl, rfl, rfl, h⟩

theorem wit_EmptyRequestWritesNothing :
    (sys [ready 0#64 9#64] [⟨0, .wr 5#4 (encode .distNormal)⟩]).ReadyFor 0 .distNormal (ready 0#64 9#64) win4 ∧
      (ready 0#64 9#64).size.val = 0#64 := ⟨readyFor _ _ _ (by decide), rfl⟩

theorem wit_WholeCommandFillsOut :
    (sys [ready 4#64 9#64] [⟨0, .wr 5#4 (encode .distNormal)⟩]).ReadyFor 0 .distNormal (ready 4#64 9#64) win4 :=
  readyFor _ _ _ (by decide)

-- 3 = 1 + 2 elements across the counter's wrap (95_test_vectors.md 6.3)
theorem wit_SplittingLaw :
    (sys [ready 3#64 0xFFFFFFFFFFFFFFFF#64] [⟨0, .wr 5#4 (encode .distUint64)⟩]).ReadyFor 0 .distUint64
      (ready 3#64 0xFFFFFFFFFFFFFFFF#64) win4 ∧
    (sys [ready 1#64 0xFFFFFFFFFFFFFFFF#64] [⟨0, .wr 5#4 (encode .distUint64)⟩]).ReadyFor 0 .distUint64
      (ready 1#64 0xFFFFFFFFFFFFFFFF#64) win4 ∧
    (sys [ready 2#64 0#64] [⟨0, .wr 5#4 (encode .distUint64)⟩]).ReadyFor 0 .distUint64 (ready 2#64 0#64) win4 ∧
    (3#64).toNat = (1#64).toNat + (2#64).toNat ∧ 0#64 = 0xFFFFFFFFFFFFFFFF#64 + 1#64 ∧
    (next? (Host.Core.run core 5 (sys [ready 3#64 0xFFFFFFFFFFFFFFFF#64] [⟨0, .wr 5#4 0#64⟩]))).isSome = true ∧
    (next? (Host.Core.run core 3 (sys [ready 1#64 0xFFFFFFFFFFFFFFFF#64] [⟨0, .wr 5#4 0#64⟩]))).isSome = true ∧
    (next? (Host.Core.run core 4 (sys [ready 2#64 0#64] [⟨0, .wr 5#4 0#64⟩]))).isSome = true :=
  ⟨readyFor _ _ _ (by decide), readyFor _ _ _ (by decide), readyFor _ _ _ (by decide), by decide, by decide,
    by decide +kernel, by decide +kernel, by decide +kernel⟩

-- the same command on two cores that hold different words elsewhere (another command ran before, another window)
theorem wit_RepeatedCommandsAgree :
    (sys [ready 2#64 7#64] [⟨0, .wr 5#4 (encode .distUniform01)⟩]).ReadyFor 0 .distUniform01 (ready 2#64 7#64) win4 ∧
    (sys [{ ready 2#64 7#64 with done := true, cmd := Reg.of 3#64, index := 2#64, out := some ⟨1, 5#64, 2#64⟩ }]
      [⟨0, .wr 5#4 (encode .distUniform01)⟩]).ReadyFor 0 .distUniform01
        { ready 2#64 7#64 with done := true, cmd := Reg.of 3#64, index := 2#64, out := some ⟨1, 5#64, 2#64⟩ }
        ⟨1, 5#64, 2#64⟩ ∧
    (next? (Host.Core.run core 4 (sys [ready 2#64 7#64] [⟨0, .wr 5#4 1#64⟩]))).isSome = true :=
  ⟨readyFor _ _ _ (by decide), ⟨rfl, rfl, only_core _ _ (fun _ c => c.busy = false) rfl, rfl, rfl, by decide⟩,
    by decide +kernel⟩

-- a line of one element on a core whose operand registers hold no value yet, and the element it leaves (R101's example)
theorem wit_CommandLineFillsOut :
    (CommandLine.mk .distUint64 1 0 0 0 0).wellFormed = true ∧
    (sys [{ CoreState.reset with out := some win4 }] (commandTurns 0 ⟨.distUint64, 1, 0, 0, 0, 0⟩)).inbox =
      commandTurns 0 ⟨.distUint64, 1, 0, 0, 0, 0⟩ ∧
    (sys [{ CoreState.reset with out := some win4 }] (commandTurns 0 ⟨.distUint64, 1, 0, 0, 0, 0⟩)).cores[0]? =
      some { CoreState.reset with out := some win4 } ∧
    1 ≤ win4.cap.toNat ∧
    element (Host.Core.run core 11 (sys [{ CoreState.reset with out := some win4 }]
      (commandTurns 0 ⟨.distUint64, 1, 0, 0, 0, 0⟩))) 0 = some 0xC2B6E3A8C2C69865#64 :=
  ⟨by decide, rfl, rfl, by decide, by decide +kernel⟩

/-- A running core is as it should be. -/
theorem running_ok (i : Instr) (n k : W64) (h : k.toNat ≤ n.toNat) (h4 : n.toNat ≤ 4) : (running i n k).Ok := by
  have hw : CommandWord.wellFormed (encode i) = true := by cases i <;> decide
  refine ⟨rfl, fun _ => hw, fun _ => rfl, fun _ => ⟨rfl, h, ?_, win4, rfl, h4⟩⟩
  simp [running, ready, Reg.of]

/-- A single running core makes a state with the invariant. -/
theorem running_inv (i : Instr) (n k : W64) (ts : List Turn) (h : k.toNat ≤ n.toNat) (h4 : n.toNat ≤ 4) :
    (sys [running i n k] ts).Inv := by
  refine ⟨rfl, only_core _ _ (fun _ c => c.Ok) (running_ok i n k h h4), ?_⟩
  intro a b ca cb v w hab ha hb
  have h0 := only_core _ _ (fun j _ => j = 0) rfl a ca ha
  have h1 := only_core _ _ (fun j _ => j = 0) rfl b cb hb
  omega

-- element 2 of a four-element command, and element 0 of the command that starts at counter 2
theorem wit_ElementsAreAddressable :
    (sys [running .distUint64 4#64 2#64] []).current? = some (running .distUint64 4#64 2#64) ∧
    (running .distUint64 4#64 2#64).Ok ∧
    ({ ready 1#64 2#64 with cmd := Reg.of 0#64, busy := true, cctr := 2#64 } : CoreState).Ok ∧
    (2#64 : W64) = (running .distUint64 4#64 2#64).ctr1.val + (running .distUint64 4#64 2#64).index ∧
    outAddress? (some win4) 2 = some 16 ∧ outAddress? (some win4) 0 = some 0 ∧
    (next? (exec .distUint64 (sys [running .distUint64 4#64 2#64] []))).isSome = true ∧
    (next? (exec .distUint64 (sys [{ ready 1#64 2#64 with cmd := Reg.of 0#64, busy := true, cctr := 2#64 }] []))).isSome =
      true :=
  ⟨rfl, running_ok _ _ _ (by decide) (by decide),
    ⟨rfl, fun _ => rfl, fun _ => rfl, fun _ => ⟨rfl, by decide, by decide, win4, rfl, by decide⟩⟩, by decide, by decide,
    by decide, by decide +kernel, by decide +kernel⟩

-- the rounds, at the last one
theorem wit_MixerOperations : 19 < 20 := by decide

-- the input words of one value: the first and the last of the 2048 of j = 1
theorem wit_Uniform01Range : (1 : Nat) < 2 ^ 53 ∧ 2048 * 1 ≤ (0x800#64).toNat ∧ (0xFFF#64).toNat < 2048 * (1 + 1) := by decide

theorem wit_Uniform11Range : (-2 ^ 52 : Int) ≤ 2 ^ 52 - 1 ∧ (2 ^ 52 - 1 : Int) < 2 ^ 52 := by decide

theorem wit_ConvertersAreExact : (1#53 : BitVec 53) ≠ 0#53 ∧ (0x10000000000000#53 : BitVec 53).toInt < 0 := by decide

theorem wit_NormalZeroCases : idealZ 9007199254740991#53 0#53 = 0 := idealZ_of_isZero _ _ rfl

theorem wit_NormalIsFiniteWithSignOfZ : idealZ 0#53 0#53 ≠ 0 := by
  intro h
  have := idealZ_sq_lower 0#53 0#53 rfl
  rw [h] at this
  norm_num at this

theorem wit_NormalAdmitsEveryContract : ∃ f, NormalContract f := normalContract_satisfiable

theorem wit_TransformsGiveNormalOrZero : Instr.distNormal ≠ Instr.distUint64 := by decide

-- both clauses: the first and the last element of a window, at different addresses
theorem wit_ElementStoreIsReadBack :
    0 < win4.cap.toNat ∧ 3 < win4.cap.toNat ∧ win4.address 0 ≠ win4.address 3 := by decide

theorem wit_ElementByteLayout : 0 < 8 ∧ 7 < 8 := by decide

theorem wit_OperandWrite :
    (sys [ready 2#64 0#64] [⟨0, .wr 4#4 9#64⟩]).inbox = ⟨0, .wr 4#4 9#64⟩ :: [] ∧
      (sys [ready 2#64 0#64] [⟨0, .wr 4#4 9#64⟩]).cores[0]? = some (ready 2#64 0#64) ∧ (4#4).toNat ≤ 4 := by decide

theorem wit_RegisterRead (r : BitVec 4) :
    (sys [ready 2#64 0#64] [⟨0, .rd r⟩]).inbox = ⟨0, .rd r⟩ :: [] ∧
      (sys [ready 2#64 0#64] [⟨0, .rd r⟩]).cores[0]? = some (ready 2#64 0#64) := ⟨rfl, rfl⟩

-- each clause, at a boundary of its range
theorem wit_ReservedTransactions_read :
    9 ≤ (9#4).toNat ∧ (sys [ready 2#64 0#64] [⟨0, .rd 9#4⟩]).inbox = ⟨0, .rd 9#4⟩ :: [] ∧
      (sys [ready 2#64 0#64] [⟨0, .rd 9#4⟩]).cores[0]? = some (ready 2#64 0#64) := by decide
theorem wit_ReservedTransactions_write :
    9 ≤ (15#4).toNat ∧ (sys [ready 2#64 0#64] [⟨0, .wr 15#4 1#64⟩]).inbox = ⟨0, .wr 15#4 1#64⟩ :: [] ∧
      (sys [ready 2#64 0#64] [⟨0, .wr 15#4 1#64⟩]).cores[0]? = some (ready 2#64 0#64) := by decide
theorem wit_ReservedTransactions_read_only :
    6 ≤ (8#4).toNat ∧ (8#4).toNat ≤ 8 ∧ (sys [ready 2#64 0#64] [⟨0, .wr 8#4 1#64⟩]).inbox = ⟨0, .wr 8#4 1#64⟩ :: [] ∧
      (sys [ready 2#64 0#64] [⟨0, .wr 8#4 1#64⟩]).cores[0]? = some (ready 2#64 0#64) := by decide

/-- A turn of the only core is the first of the host's turns there: the hypotheses of ResetOfCore, HostReadOfOut,
HostWriteOfOut and BindingOfOut, for a core that is bound to a window and for one that is not. -/
theorem wit_HostTurn (act : Action) :
    (sys [ready 2#64 0#64] [⟨0, act⟩]).inbox = ⟨0, act⟩ :: [] ∧
      (sys [ready 2#64 0#64] [⟨0, act⟩]).cores[0]? = some (ready 2#64 0#64) ∧ (ready 2#64 0#64).out = some win4 ∧
      (sys [CoreState.reset] [⟨0, act⟩]).cores[0]? = some CoreState.reset ∧ CoreState.reset.out = none :=
  ⟨rfl, rfl, rfl, rfl, rfl⟩

-- an awaited element and one that is written already
theorem wit_AwaitedElements :
    (sys [running .distUint64 2#64 1#64] []).Inv ∧ (running .distUint64 2#64 1#64).busy = true ∧
      (running .distUint64 2#64 1#64).out = some win4 ∧ 0 < win4.cap.toNat ∧ 1 < win4.cap.toNat :=
  ⟨running_inv _ _ _ _ (by decide) (by decide), rfl, rfl, by decide, by decide⟩

theorem wit_HostReadsHaveNoEffect :
    (next? (step (sys [ready 2#64 0#64] [⟨0, .rd 6#4⟩]))).isSome = true ∧
      (next? (step (sys [ready 2#64 0#64] [⟨0, .rd 4#4⟩]))).isSome = true := by decide

theorem wit_HostReadsHaveNoEffect_out :
    ∃ t, step (sys [ready 2#64 0#64] [⟨0, .rdOut 3⟩]) = .next t := ⟨_, rfl⟩

-- InvariantKept, OperandsImmutableWhileBusy, WrittenElementsAreFinal: a running core, its driver's step
theorem wit_InvariantKept :
    (sys [running .distUint64 2#64 1#64] []).Inv ∧ (running .distUint64 2#64 1#64).busy = true ∧
      (running .distUint64 2#64 1#64).out = some win4 ∧ 0 < (running .distUint64 2#64 1#64).index.toNat ∧
      (next? (step (sys [running .distUint64 2#64 1#64] []))).isSome = true :=
  ⟨running_inv _ _ _ _ (by decide) (by decide), rfl, rfl, by decide, by decide +kernel⟩

theorem wit_DriverAlwaysProceeds :
    (sys [running .distNormal 2#64 2#64] []).Inv ∧ (sys [running .distNormal 2#64 2#64] []).inbox = [] :=
  ⟨running_inv _ _ _ _ (by decide) (by decide), rfl⟩

-- a step that refuses, in a state with the invariant
theorem wit_OnlyListedRefusals :
    (sys [running .distNormal 2#64 1#64] [⟨0, .wr 0#4 5#64⟩]).Inv ∧
      step (sys [running .distNormal 2#64 1#64] [⟨0, .wr 0#4 5#64⟩]) = .refused .writeWhileBusy :=
  ⟨running_inv _ _ _ _ (by decide) (by decide), rfl⟩

-- the four ways the flags of a core go on: no change, reset, an accepted CMD write, completion
theorem wit_FlagTransitions :
    (after (step (sys [ready 2#64 0#64] [⟨0, .wr 0#4 1#64⟩]))).map (fun c => (c.busy, c.done)) = some (false, false) ∧
    (after (step (sys [running .distUint64 2#64 1#64] [⟨0, .reset⟩]))).map (fun c => (c.busy, c.done)) =
      some (false, false) ∧
    (after (step (sys [ready 2#64 0#64] [⟨0, .wr 5#4 1#64⟩]))).map (fun c => (c.busy, c.done)) = some (true, false) ∧
    (after (step (sys [running .distUint64 2#64 2#64] []))).map (fun c => (c.busy, c.done)) = some (false, true) := by
  decide

theorem wit_OtherCoresUntouched :
    (next? (step (sys (twoCores 8#64) [⟨0, .drive⟩]))).isSome = true := by decide +kernel

/-! Two BUSY cores on adjacent windows of one array (95_test_vectors.md P5). -/

/-- A core running DIST_UINT64 of four elements on a window of four from `b` on. -/
def runningAt (b : W64) : CoreState := { running .distUint64 4#64 1#64 with out := some ⟨0, b, 4#64⟩ }

/-- The two of them, with the given turns queued. -/
def pair (ts : List Turn) : State := sys [runningAt 0#64, runningAt 4#64] ts

theorem pair_core (ts : List Turn) (j : Nat) (c : CoreState) (h : (pair ts).cores[j]? = some c) :
    (j = 0 ∧ c = runningAt 0#64) ∨ (j = 1 ∧ c = runningAt 4#64) := by
  match j, h with
  | 0, h => cases h; exact .inl ⟨rfl, rfl⟩
  | 1, h => cases h; exact .inr ⟨rfl, rfl⟩

theorem runningAt_ok (b : W64) : (runningAt b).Ok := by
  obtain ⟨h1, h2, h3, h4⟩ := running_ok .distUint64 4#64 1#64 (by decide) (by decide)
  exact ⟨h1, h2, h3, fun h => ⟨(h4 h).1, (h4 h).2.1, (h4 h).2.2.1, ⟨0, b, 4#64⟩, rfl, Nat.le_refl 4⟩⟩

theorem pair_inv (ts : List Turn) : (pair ts).Inv := by
  refine ⟨rfl, fun k c h => ?_, fun j k cj ck v w hjk hj hk _ _ hv hw => ?_⟩
  · rcases pair_core ts k c h with ⟨-, rfl⟩ | ⟨-, rfl⟩ <;> exact runningAt_ok _
  · rcases pair_core ts j cj hj with ⟨rfl, rfl⟩ | ⟨rfl, rfl⟩ <;> rcases pair_core ts k ck hk with ⟨rfl, rfl⟩ | ⟨rfl, rfl⟩
    · exact absurd rfl hjk
    · cases hv; cases hw; rfl
    · cases hv; cases hw; rfl
    · exact absurd rfl hjk

theorem wit_DriversKeepToTheirWindows :
    (pair [⟨0, .drive⟩]).Inv ∧ (0 : Nat) ≠ 1 ∧ (pair [⟨0, .drive⟩]).inbox = ⟨0, .drive⟩ :: [] ∧
      (pair [⟨0, .drive⟩]).cores[1]? = some (runningAt 4#64) ∧ (runningAt 4#64).busy = true ∧
      (runningAt 4#64).out = some ⟨0, 4#64, 4#64⟩ ∧ 0 < (4#64).toNat ∧
      (next? (step (pair [⟨0, .drive⟩]))).isSome = true :=
  ⟨pair_inv _, by decide, rfl, rfl, rfl, rfl, by decide, by decide +kernel⟩

theorem wit_DriversCommute :
    (pair []).Inv ∧ (0 : Nat) ≠ 1 ∧ (pair []).cores[0]? = some (runningAt 0#64) ∧
      (pair []).cores[1]? = some (runningAt 4#64) ∧ (runningAt 0#64).busy = true ∧ (runningAt 4#64).busy = true :=
  ⟨pair_inv _, by decide, rfl, rfl, rfl, rfl⟩

-- each clause: DONE = 1, no core BUSY, one core BUSY (its own), two BUSY
theorem wit_WaitPollsStatus_done :
    (sys [{ ready 2#64 0#64 with cmd := Reg.of 0#64, done := true }] [⟨0, .wait⟩]).inbox = ⟨0, .wait⟩ :: [] ∧
      answer (step (sys [{ ready 2#64 0#64 with cmd := Reg.of 0#64, done := true }] [⟨0, .wait⟩])) = some 2#64 := by decide

theorem wit_WaitPollsStatus_idle :
    (ready 2#64 0#64).done = false ∧ ∀ j, ¬(sys [ready 2#64 0#64] [⟨0, .wait⟩]).IsBusy j := by
  refine ⟨rfl, fun j ⟨c, hc, hb⟩ => ?_⟩
  exact only_core _ _ (fun _ d => d.busy ≠ true) (by decide) j c hc hb

theorem wit_WaitPollsStatus_lone :
    (running .distUint64 2#64 1#64).done = false ∧ (sys [running .distUint64 2#64 1#64] [⟨0, .wait⟩]).OnlyBusy 0 ∧
      (sys [running .distUint64 2#64 1#64] [⟨0, .wait⟩]).IsBusy 0 :=
  ⟨rfl, only_core _ _ (fun j c => c.busy = true ↔ j = 0) (by decide), _, rfl, rfl⟩

theorem wit_WaitPollsStatus_two :
    (runningAt 0#64).done = false ∧ (0 : Nat) ≠ 1 ∧ (pair [⟨0, .wait⟩]).IsBusy 0 ∧ (pair [⟨0, .wait⟩]).IsBusy 1 :=
  ⟨rfl, by decide, ⟨_, rfl, rfl⟩, ⟨_, rfl, rfl⟩⟩

/-! A run that goes on for ever: the completion step of a core, and then the machine waits. -/

/-- INDEX = SIZE. -/
def lastStep : State := sys [running .distUint64 2#64 2#64] []

/-- That state, and from then on the one its completion step leaves. -/
def fairRun (n : Nat) : State :=
  match n with
  | 0 => lastStep
  | _ + 1 => sys [{ running .distUint64 2#64 2#64 with busy := false, done := true }] []

theorem fairRun_isRun : IsRun fairRun := fun n => by cases n <;> rfl

theorem fairRun_turn (n : Nat) : (fairRun n).turn? = if n = 0 then some ⟨0, .drive⟩ else none := by
  cases n <;> rfl

theorem fairRun_busy (n j : Nat) (h : (fairRun n).IsBusy j) : n = 0 ∧ j = 0 := by
  obtain ⟨c, hc, hb⟩ := h
  cases n with
  | zero => exact ⟨rfl, only_core _ _ (fun j _ => j = 0) rfl j c hc⟩
  | succ n => exact absurd hb (only_core _ _ (fun _ d => d.busy ≠ true) (by decide) j c hc)

theorem wit_FairRunsComplete :
    IsRun fairRun ∧ (fairRun 0).Inv ∧ (fairRun 0).cores[0]? = some (running .distUint64 2#64 2#64) ∧
      (running .distUint64 2#64 2#64).busy = true ∧ WeaklyFair fairRun 0 ∧
      ∀ n, (fairRun n).turn? ≠ some ⟨0, .reset⟩ := by
  refine ⟨fairRun_isRun, running_inv _ _ _ _ (by decide) (by decide), rfl, rfl, fun n hn => ?_, fun n => ?_⟩
  · obtain ⟨rfl, -⟩ := fairRun_busy n 0 hn
    exact ⟨0, Nat.le_refl 0, .inl rfl⟩
  · rw [fairRun_turn]
    split <;> simp

theorem wit_LoneDriverIsServed : IsRun fairRun ∧ (∀ n j, (fairRun n).IsBusy j → j = 0) ∧ (fairRun 0).IsBusy 0 :=
  ⟨fairRun_isRun, fun n j h => (fairRun_busy n j h).2, _, rfl, rfl⟩

end Sys2Proof.Tests
end

section
/-! PROOF. The rules about every step that speak of the cores (10_state.md): what a step leaves of the other cores, the flag
transitions, the operands of a BUSY core, and the invariant, at reset and in every step. -/

namespace Sys2Proof.Machine

/-! ## Fields that a host write of an operand register leaves alone (42_driver.md R92) -/

@[simp] theorem CoreState.setOperand_cmd (c : CoreState) (r : BitVec 4) (v : W64) : (c.setOperand r v).cmd = c.cmd := by
  unfold CoreState.setOperand
  split_ifs <;> rfl

@[simp] theorem CoreState.setOperand_busy (c : CoreState) (r : BitVec 4) (v : W64) : (c.setOperand r v).busy = c.busy := by
  unfold CoreState.setOperand
  split_ifs <;> rfl

@[simp] theorem CoreState.setOperand_done (c : CoreState) (r : BitVec 4) (v : W64) : (c.setOperand r v).done = c.done := by
  unfold CoreState.setOperand
  split_ifs <;> rfl

/-! ## What a turn does to its core -/

/-- Below SIZE the element step counts INDEX up without a wrap (10_state.md R15). -/
theorem CoreState.advanced_index_toNat (c : CoreState) (h : c.index.toNat < c.size.val.toNat) :
    c.advanced.index.toNat = c.index.toNat + 1 := by
  have hsize := c.size.val.isLt
  rw [CoreState.advanced_index, BitVec.toNat_add, BitVec.toNat_ofNat]
  omega

/-- Everything a turn with action `act` at core `c` can make of that core. -/
inductive CoreChange : Action → CoreState → CoreState → Prop where
  /-- A turn that changes no core. -/
  | same (act : Action) (c : CoreState) : CoreChange act c c
  /-- A host write of an operand register. -/
  | wroteOperand (c : CoreState) (r : BitVec 4) (v : W64) (hbusy : c.busy = false) :
      CoreChange (.wr r v) c (c.setOperand r v)
  /-- A binding of OUT. -/
  | bound (c : CoreState) (w : Window) (hbusy : c.busy = false) : CoreChange (.bind w) c { c with out := some w }
  /-- RESET. -/
  | reset (c : CoreState) : CoreChange .reset c c.afterReset
  /-- An accepted CMD write. -/
  | started (c : CoreState) (w : W64) (i : Instr) (hbusy : c.busy = false) (hdecode : decode w = .ok i) :
      CoreChange (.wr 5#4 w) c (c.started (encode i))
  /-- An element step. -/
  | advanced (c : CoreState) (hbusy : c.busy = true) (hlt : c.index.toNat < c.size.val.toNat) :
      CoreChange .drive c c.advanced
  /-- A completion step. -/
  | completed (c : CoreState) (hbusy : c.busy = true) (hend : c.index = c.size.val) : CoreChange .drive c c.completed

/-- Putting the selected core back as it is changes nothing. -/
theorem State.set_current_self (s : State) (c : CoreState) (hc : s.current? = some c) :
    s.cores.set s.sel c = s.cores := by
  obtain ⟨hlt, rfl⟩ := List.getElem?_eq_some_iff.mp hc
  exact List.set_getElem_self hlt

/-- A turn changes at most its own core, by one of those changes (60_exceptions.md R125). -/
theorem TurnEffect.coreChange {act : Action} {c : CoreState} {s t : State} (h : TurnEffect act c s t)
    (hc : s.current? = some c) :
    ∃ d, CoreChange act c d ∧ t.cores = s.cores.set s.sel d ∧ t.sel = s.sel ∧ t.byteOrder = s.byteOrder := by
  have hself := s.set_current_self c hc
  cases h with
  | quiet hcores _ hsel horder => exact ⟨c, .same act c, hcores.trans hself.symm, hsel, horder⟩
  | wroteOut i v a _ _ _ _ heq => subst heq; exact ⟨c, .same act c, hself.symm, rfl, rfl⟩
  | wroteOperand r v hact _ hbusy heq => subst hact heq; exact ⟨_, .wroteOperand c r v hbusy, rfl, rfl, rfl⟩
  | bound w hact hbusy heq => subst hact heq; exact ⟨_, .bound c w hbusy, rfl, rfl, rfl⟩
  | reset hact heq => subst hact heq; exact ⟨_, .reset c, rfl, rfl, rfl⟩
  | started i w _ hact hdecode hbusy _ _ _ _ heq =>
    subst hact heq; exact ⟨_, .started c w i hbusy hdecode, rfl, rfl, rfl⟩
  | stored i a hact hbusy _ hlt _ heq => subst hact heq; exact ⟨_, .advanced c hbusy hlt, rfl, rfl, rfl⟩
  | completed i hact hbusy _ hend heq => subst hact heq; exact ⟨_, .completed c hbusy hend, rfl, rfl, rfl⟩

/-- A step that answers a next state waits, or makes one of those changes of the core whose turn it is; a turn that is no
driver's is the first of the host's. -/
theorem step_coreChange {s t : State} (h : step s = .next t) :
    t = s ∨ ∃ (u : Turn) (c d : CoreState), (u.act = .drive ∨ ∃ ts, s.inbox = u :: ts) ∧ s.cores[u.core]? = some c ∧
      CoreChange u.act c d ∧ t.cores = s.cores.set u.core d ∧ t.sel = u.core ∧ t.byteOrder = s.byteOrder := by
  obtain ⟨-, rfl⟩ | ⟨u, s', c, -, hturn, hc, -, hout⟩ := step_cases s t h
  · exact .inl rfl
  · obtain ⟨hcores, -, horder, hsel⟩ := hturn.same
    obtain ⟨d, hd, htcores, htsel, htorder⟩ := (turnOutcome_cases u.act c s' t hc hout).coreChange hc
    rw [State.current?_eq, hcores, hsel] at hc
    rw [hcores, hsel] at htcores
    exact .inr ⟨u, c, d, hturn.inbox, hc, hd, htcores, htsel.trans hsel, htorder.trans horder⟩

/-- What a step makes of one core: nothing, or a change by a turn of that core. -/
theorem step_core {s t : State} {k : Nat} {c d : CoreState} (h : step s = .next t) (hc : s.cores[k]? = some c)
    (hd : t.cores[k]? = some d) :
    d = c ∨ ∃ act, (act = .drive ∨ ∃ ts, s.inbox = ⟨k, act⟩ :: ts) ∧ CoreChange act c d := by
  obtain rfl | ⟨⟨j, act⟩, c', d', hinbox, hc', hchange, hcores, -, -⟩ := step_coreChange h
  · exact .inl (Option.some.inj (hd.symm.trans hc))
  · rw [hcores] at hd
    by_cases hjk : j = k
    · subst hjk
      obtain rfl : c' = c := Option.some.inj (hc'.symm.trans hc)
      rw [List.getElem?_set_self (List.getElem?_eq_some_iff.mp hc).1] at hd
      obtain rfl : d' = d := Option.some.inj hd
      exact .inr ⟨act, hinbox, hchange⟩
    · rw [List.getElem?_set_ne hjk, hc] at hd
      exact .inl (Option.some.inj hd).symm

/-! ## The cores in a step -/

/-- Settles O54: a step puts back at most the core whose turn it is. -/
theorem otherCoresUntouched : Obligations.OtherCoresUntouched := by
  intro s t h
  obtain rfl | ⟨u, c, d, -, -, -, hcores, hsel, horder⟩ := step_coreChange h
  · exact ⟨fun _ _ => rfl, rfl, rfl⟩
  · rw [hcores, hsel]
    exact ⟨fun j hj => List.getElem?_set_ne hj.symm, List.length_set, horder⟩

/-- Settles O51, by the changes a turn can make of its core: only RESET, the start and the completion write a flag. -/
theorem flagTransitions : Obligations.FlagTransitions := by
  intro s t k c d h hc hd
  obtain rfl | ⟨act, hinbox, hchange⟩ := step_core h hc hd
  · exact .inl ⟨rfl, rfl⟩
  · cases hchange with
    | same | bound | advanced => exact .inl ⟨rfl, rfl⟩
    | wroteOperand => exact .inl ⟨by simp, by simp⟩
    | reset => exact .inr (.inl ⟨hinbox.resolve_left (by simp), rfl, rfl⟩)
    | started _ w i hbusy =>
      obtain ⟨ts, hts⟩ := hinbox.resolve_left (by simp)
      exact .inr (.inr (.inl ⟨⟨w, ts, hts⟩, hbusy, rfl, rfl⟩))
    | completed _ hbusy hend => exact .inr (.inr (.inr ⟨hbusy, hend, rfl, rfl⟩))

/-- Settles O52: of a BUSY core, only RESET and its driver's two steps change anything, and those two write no operand. -/
theorem operandsImmutableWhileBusy : Obligations.OperandsImmutableWhileBusy := by
  intro s t k c d _ h hc hbusy hd hreset
  obtain rfl | ⟨act, hinbox, hchange⟩ := step_core h hc hd
  · simp
  · cases hchange with
    | same => simp
    | wroteOperand _ r v hidle => simp [hbusy] at hidle
    | bound _ w hidle => simp [hbusy] at hidle
    | reset =>
      obtain ⟨ts, hts⟩ := hinbox.resolve_left (by simp)
      exact absurd hts (hreset ts)
    | started _ w i hidle => simp [hbusy] at hidle
    | advanced _ _ hlt => exact ⟨rfl, rfl, rfl, rfl, rfl, rfl, rfl, .inr ⟨c.advanced_index_toNat hlt, hlt⟩⟩
    | completed => simp

/-! ## The invariant of one core, kept by every change of it -/

/-- Of a core that is not BUSY the invariant speaks of CMD and DONE only. -/
theorem CoreState.ok_iff_of_not_busy (c : CoreState) (hbusy : c.busy = false) :
    c.Ok ↔ (c.cmd.held = true → CommandWord.wellFormed c.cmd.val = true) ∧ (c.done = true → c.cmd.held = true) := by
  simp [CoreState.Ok, CoreState.flagsLegal, hbusy]

/-- The word of a command is well formed (30_encoding.md R48). -/
theorem encode_wellFormed (i : Instr) : CommandWord.wellFormed (encode i) = true := by
  cases i <;> rfl

/-- A core after RESET has the invariant, whatever it was before. -/
theorem CoreState.afterReset_ok (c : CoreState) : c.afterReset.Ok :=
  (CoreState.ok_iff_of_not_busy c.afterReset rfl).mpr (by simp)

theorem CoreState.reset_ok : CoreState.reset.Ok := CoreState.reset.afterReset_ok

theorem CoreState.Ok.setOperand {c : CoreState} (h : c.Ok) (hbusy : c.busy = false) (r : BitVec 4) (v : W64) :
    (c.setOperand r v).Ok := by
  rw [CoreState.ok_iff_of_not_busy _ hbusy] at h
  simpa [CoreState.ok_iff_of_not_busy, hbusy] using h

theorem CoreState.Ok.bound {c : CoreState} (h : c.Ok) (hbusy : c.busy = false) (w : Window) :
    CoreState.Ok { c with out := some w } := by
  rw [CoreState.ok_iff_of_not_busy _ hbusy] at h
  exact (CoreState.ok_iff_of_not_busy { c with out := some w } hbusy).mpr h

/-- The core of an accepted CMD write (42_driver.md R93): INDEX = 0 and CCTR = CTR1. -/
theorem CoreState.started_ok (c : CoreState) (i : Instr) (w : Window) (hheld : c.operandsHeld = true)
    (hout : c.out = some w) (hsize : c.size.val.toNat ≤ w.cap.toNat) : (c.started (encode i)).Ok :=
  ⟨rfl, fun _ => encode_wellFormed i, fun _ => rfl, fun _ => ⟨hheld, by simp, by simp, w, hout, hsize⟩⟩

/-- The element step takes INDEX and CCTR up together (42_driver.md R97). -/
theorem CoreState.Ok.advanced {c : CoreState} (h : c.Ok) (hlt : c.index.toNat < c.size.val.toNat) : c.advanced.Ok := by
  obtain ⟨hflags, hword, hcmd, hrun⟩ := h
  refine ⟨hflags, hword, hcmd, fun hbusy => ?_⟩
  obtain ⟨hheld, -, hcctr, hwin⟩ := hrun hbusy
  have hindex : c.advanced.index.toNat ≤ c.size.val.toNat := by
    rw [c.advanced_index_toNat hlt]
    exact hlt
  have hcounter : c.advanced.cctr = c.ctr1.val + c.advanced.index := by
    simp [hcctr, ctrInc, BitVec.add_assoc]
  exact ⟨hheld, hindex, hcounter, hwin⟩

theorem CoreState.Ok.completed {c : CoreState} (h : c.Ok) (hbusy : c.busy = true) : c.completed.Ok := by
  obtain ⟨-, hword, hcmd, -⟩ := h
  exact (CoreState.ok_iff_of_not_busy c.completed rfl).mpr ⟨hword, fun _ => hcmd (.inl hbusy)⟩

/-! ## The windows of the BUSY cores (20_memory.md R41) -/

/-- Where no other core is BUSY over a window, the window of another BUSY core does not overlap it. -/
theorem overlaps_eq_false_of_anyOtherCore {cores : List CoreState} {j k : Nat} {c : CoreState} {v w : Window}
    (hfree : anyOtherCore cores k (CoreState.busyOver w) = false) (hjk : j ≠ k) (hc : cores[j]? = some c)
    (hbusy : c.busy = true) (hout : c.out = some v) : v.overlaps w = false := by
  by_contra hover
  have hany := (anyOtherCore_eq_true cores k (CoreState.busyOver w)).mpr
    ⟨j, c, hjk, hc, (c.busyOver_eq_true w).mpr ⟨hbusy, v, hout, by simpa using hover⟩⟩
  simp [hfree] at hany

/-- Over the window of a BUSY core no other core is BUSY. -/
theorem State.BusyWindowsDisjoint.anyOtherCore_eq_false {s : State} (h : s.BusyWindowsDisjoint) {c : CoreState}
    {w : Window} (hc : s.current? = some c) (hbusy : c.busy = true) (hout : c.out = some w) :
    anyOtherCore s.cores s.sel (CoreState.busyOver w) = false := by
  by_contra hany
  obtain ⟨j, d, hj, hd, hover⟩ := (anyOtherCore_eq_true _ _ _).mp (Bool.not_eq_false _ ▸ hany)
  obtain ⟨hdbusy, v, hv, hvw⟩ := (d.busyOver_eq_true w).mp hover
  rw [h j s.sel d c v w hj hd hc hdbusy hbusy hv hout] at hvw
  cases hvw

/-- A core put back keeps the BUSY windows disjoint where, if BUSY, no other core is BUSY over its window. -/
theorem State.BusyWindowsDisjoint.setCurrent {s : State} (h : s.BusyWindowsDisjoint) (d : CoreState)
    (hfree : d.busy = true → ∀ w, d.out = some w → anyOtherCore s.cores s.sel (CoreState.busyOver w) = false) :
    (s.setCurrent d).BusyWindowsDisjoint := by
  intro j k cj ck v w hjk hj hk hjbusy hkbusy hv hw
  replace hj := s.setCurrent_getElem? d j cj hj
  replace hk := s.setCurrent_getElem? d k ck hk
  obtain ⟨rfl, rfl⟩ | ⟨hjsel, hj⟩ := hj <;> obtain ⟨rfl, rfl⟩ | ⟨hksel, hk⟩ := hk
  · exact absurd rfl hjk
  · rw [Window.overlaps_comm]
    exact overlaps_eq_false_of_anyOtherCore (hfree hjbusy v hv) hksel hk hkbusy hw
  · exact overlaps_eq_false_of_anyOtherCore (hfree hkbusy w hw) hjsel hj hjbusy hv
  · exact h j k cj ck v w hjk hj hk hjbusy hkbusy hv hw

/-! ## The invariant of the machine -/

/-- The invariant speaks of the cores and the memory only. -/
theorem State.Inv.congr {s t : State} (h : s.Inv) (hcores : t.cores = s.cores) (hmem : t.mem = s.mem) : t.Inv := by
  unfold State.Inv State.BusyWindowsDisjoint at *
  rwa [hcores, hmem]

theorem State.Inv.current_ok {s : State} (h : s.Inv) {c : CoreState} (hc : s.current? = some c) : c.Ok := by
  obtain ⟨-, hcores, -⟩ := h
  exact hcores s.sel c hc

theorem State.Inv.busyWindowsDisjoint {s : State} (h : s.Inv) : s.BusyWindowsDisjoint := by
  obtain ⟨-, -, hwindows⟩ := h
  exact hwindows

/-- An element store keeps the invariant, wherever it goes. -/
theorem State.Inv.writeElement {s : State} (h : s.Inv) (a : Nat) (v : W64) :
    (s.withMem (s.mem.writeElement s.byteOrder a v)).Inv := by
  obtain ⟨hmem, hcores, hwindows⟩ := h
  exact ⟨Memory.wf_writeElement s.mem s.byteOrder a v hmem, hcores, hwindows⟩

/-- A core put back keeps the invariant where it has its own part of it and, if BUSY, its window to itself. -/
theorem State.Inv.setCurrent {s : State} (h : s.Inv) {d : CoreState} (hd : d.Ok)
    (hfree : d.busy = true → ∀ w, d.out = some w → anyOtherCore s.cores s.sel (CoreState.busyOver w) = false) :
    (s.setCurrent d).Inv := by
  obtain ⟨hmem, hcores, hwindows⟩ := h
  refine ⟨hmem, fun k c hk => ?_, hwindows.setCurrent d hfree⟩
  obtain ⟨-, rfl⟩ | ⟨-, hk⟩ := s.setCurrent_getElem? d k c hk
  · exact hd
  · exact hcores k c hk

/-- A core that is not BUSY, put back. -/
theorem State.Inv.setCurrent_of_not_busy {s : State} (h : s.Inv) {d : CoreState} (hd : d.Ok) (hbusy : d.busy = false) :
    (s.setCurrent d).Inv :=
  h.setCurrent hd fun hb => absurd hb (by simp [hbusy])

/-- Every effect of a turn keeps the invariant. -/
theorem State.Inv.of_turnEffect {act : Action} {c : CoreState} {s t : State} (h : s.Inv) (hc : s.current? = some c)
    (he : TurnEffect act c s t) : t.Inv := by
  have hok := h.current_ok hc
  cases he with
  | quiet hcores hmem => exact h.congr hcores hmem
  | wroteOut i v a _ _ _ _ heq => exact heq ▸ h.writeElement a v
  | wroteOperand r v _ _ hbusy heq => exact heq ▸ h.setCurrent_of_not_busy (hok.setOperand hbusy r v) (by simp [hbusy])
  | bound w _ hbusy heq => exact heq ▸ h.setCurrent_of_not_busy (hok.bound hbusy w) hbusy
  | reset _ heq => exact heq ▸ h.setCurrent_of_not_busy c.afterReset_ok rfl
  | started i _ w _ _ _ hheld hout hsize hfree heq =>
    refine heq ▸ h.setCurrent (c.started_ok i w hheld hout hsize) fun _ v hv => ?_
    obtain rfl : w = v := Option.some.inj (hout.symm.trans hv)
    exact hfree
  | stored i a _ hbusy _ hlt _ heq =>
    exact heq ▸ (h.writeElement a _).setCurrent (hok.advanced hlt) fun _ w hw =>
      h.busyWindowsDisjoint.anyOtherCore_eq_false hc hbusy hw
  | completed i _ hbusy _ _ heq => exact heq ▸ h.setCurrent_of_not_busy (hok.completed hbusy) rfl

/-- Settles O47, by the effects a turn can have. -/
theorem invariantKept : Obligations.InvariantKept := by
  intro s t h hstep
  obtain ⟨-, rfl⟩ | ⟨u, s', c, -, hturn, hc, -, hout⟩ := step_cases s t hstep
  · exact h
  · obtain ⟨hcores, hmem, -, -⟩ := hturn.same
    exact (h.congr hcores hmem).of_turnEffect hc (turnOutcome_cases u.act c s' t hc hout)

/-! ## Reset (10_state.md R25) -/

theorem State.resetSystem_core {n k : Nat} {c : CoreState} (h : (State.resetSystem n).cores[k]? = some c) :
    c = CoreState.reset :=
  List.eq_of_mem_replicate (List.mem_of_getElem? h)

theorem State.resetSystem_inv (n : Nat) : (State.resetSystem n).Inv := by
  refine ⟨rfl, fun k c hc => ?_, fun j k cj ck v w _ hj _ hbusy => ?_⟩
  · exact State.resetSystem_core hc ▸ CoreState.reset_ok
  · rw [State.resetSystem_core hj] at hbusy
    cases hbusy

/-- Settles O48: no core of a system after reset is BUSY, DONE or holds a CMD. -/
theorem invariantAtReset : Obligations.InvariantAtReset :=
  ⟨State.resetSystem_inv 1, State.resetSystem_inv⟩

/-- Settles O40: the one core is `CoreState.reset`, and with nothing queued and no core BUSY the machine waits. -/
theorem resetState : Obligations.ResetState := by
  have hwaits : step State.reset = .next State.reset := step_of_idle State.reset rfl rfl
  exact ⟨CoreState.reset, rfl, rfl, rfl, rfl, rfl, rfl, rfl, rfl, rfl, rfl, rfl, rfl, hwaits⟩

end Sys2Proof.Machine
end

section
/-! PROOF. The output memory (20_memory.md): what an element store leaves of other elements, the element store a step can
make, and the elements of BUSY windows. -/

namespace Sys2Proof.Machine

/-! ## Elements lie at multiples of eight (20_memory.md R31) -/

/-- Elements at different addresses share no byte. -/
theorem Window.address_disjoint_of_ne (v w : Window) (i j : Nat) (h : v.address i ≠ w.address j) :
    w.address j + 8 ≤ v.address i ∨ v.address i + 8 ≤ w.address j := by
  unfold Window.address at *
  omega

theorem Window.address_inj (w : Window) {i j : Nat} : w.address i = w.address j ↔ i = j := by
  unfold Window.address
  omega

/-- An element store leaves every element at another address alone. -/
theorem Memory.readElement?_writeElement_of_ne (m : Memory) (o : ByteOrder) (v w : Window) (i j : Nat) (x : W64)
    (h : v.address i ≠ w.address j) :
    Memory.readElement? (Memory.writeElement m o (v.address i) x) o (w.address j) =
      Memory.readElement? m o (w.address j) :=
  Memory.readElement?_writeElement_of_disjoint m o _ _ x (v.address_disjoint_of_ne w i j h)

/-- Settles O34: the element reads its bytes back, and an element at another address shares none of them. -/
theorem elementStoreIsReadBack : Obligations.ElementStoreIsReadBack := fun m o v w i j x _ _ =>
  ⟨Memory.readElement?_writeElement_self m o (v.address i) x, Memory.readElement?_writeElement_of_ne m o v w i j x⟩

/-- The byte that an element store leaves at each place of the element. -/
theorem Memory.read?_writeElement_add (m : Memory) (o : ByteOrder) (a : Nat) (x : W64) {j : Nat} (hj : j < 8) :
    Memory.read? (Memory.writeElement m o a x) (a + j) = (elementBytes o x)[j]? := by
  unfold Memory.writeElement
  rw [Memory.read?_writeBytes, elementBytes_length, if_pos (by omega), Nat.add_sub_cancel_left]

theorem bytesOfWord_getElem? (x : W64) {j : Nat} (hj : j < 8) :
    (bytesOfWord x)[j]? = some (x.extractLsb' (8 * j) 8) := by
  interval_cases j <;> rfl

/-- Settles O35: a little-endian element is the bytes of the word in order, a big-endian one is their reverse. -/
theorem elementByteLayout : Obligations.ElementByteLayout := by
  intro m a x j hj
  have hlength : (bytesOfWord x).length = 8 := rfl
  constructor
  · rw [Memory.read?_writeElement_add m .little a x hj]
    exact bytesOfWord_getElem? x hj
  · rw [Memory.read?_writeElement_add m .big a x hj]
    show (bytesOfWord x).reverse[j]? = _
    rw [List.getElem?_reverse (hlength ▸ hj), hlength, bytesOfWord_getElem? x (by omega)]

/-! ## Whose element an address is -/

/-- The elements of a window are those at the addresses of its element numbers below OUT_CAP. -/
theorem Window.indexOf?_address (v w : Window) (i j : Nat) :
    v.indexOf? (w.address i) = some j ↔ j < v.cap.toNat ∧ v.address j = w.address i := by
  unfold Window.indexOf? Window.address
  split_ifs with h
  · rw [Option.some.injEq]
    omega
  · simp only [false_iff]
    omega

theorem Window.indexOf?_address_self (w : Window) {i : Nat} (hi : i < w.cap.toNat) :
    w.indexOf? (w.address i) = some i :=
  (w.indexOf?_address w i i).mpr ⟨hi, rfl⟩

theorem CoreState.owns_eq_true (a : Nat) (c : CoreState) :
    c.owns a = true ↔ c.busy = true ∧ ∃ w j, c.out = some w ∧ w.indexOf? a = some j := by
  unfold CoreState.owns
  cases c.out <;> simp [Option.isSome_iff_exists]

/-- In the proof `Window.indexOf?` stands as a variable: the kernel would else evaluate the addresses it compares, and
unfold the product with 2^68 there. -/
theorem CoreState.awaits_eq_true (a : Nat) (c : CoreState) :
    c.awaits a = true ↔ c.busy = true ∧ ∃ w j, c.out = some w ∧ w.indexOf? a = some j ∧ c.index.toNat ≤ j := by
  unfold CoreState.awaits
  obtain ⟨index, hindex⟩ : ∃ f, f = Window.indexOf? := ⟨_, rfl⟩
  rw [← hindex]
  cases c.out with
  | none => simp
  | some w => cases hj : index w a <;> simp [hj]

/-- No element of one BUSY core's window is an element of another's (20_memory.md R41). -/
theorem State.BusyWindowsDisjoint.address_ne {s : State} (h : s.BusyWindowsDisjoint) {j k : Nat} {c d : CoreState}
    {v w : Window} (hjk : j ≠ k) (hc : s.cores[j]? = some c) (hd : s.cores[k]? = some d) (hcbusy : c.busy = true)
    (hdbusy : d.busy = true) (hv : c.out = some v) (hw : d.out = some w) {m i : Nat} (hm : m < v.cap.toNat)
    (hi : i < w.cap.toNat) : v.address m ≠ w.address i := by
  have hapart := v.address_disjoint w (h j k c d v w hjk hc hd hcbusy hdbusy hv hw) m i hm hi
  omega

/-- Settles O42: no other BUSY core has the element, and the core itself awaits it under its own number. -/
theorem awaitedElements : Obligations.AwaitedElements := by
  intro s k c w i hinv hc hbusy hw hi
  rw [List.any_eq_true]
  constructor
  · rintro ⟨d, hmem, hawaits⟩
    obtain ⟨j, hd⟩ := List.mem_iff_getElem?.mp hmem
    obtain ⟨hdbusy, v, m, hv, hm, hindex⟩ := (d.awaits_eq_true _).mp hawaits
    obtain ⟨hmcap, haddr⟩ := (v.indexOf?_address w i m).mp hm
    by_cases hjk : j = k
    · obtain rfl : d = c := Option.some.inj (hd.symm.trans (hjk ▸ hc))
      obtain rfl : v = w := Option.some.inj (hv.symm.trans hw)
      rwa [← v.address_inj.mp haddr]
    · exact absurd haddr (hinv.busyWindowsDisjoint.address_ne hjk hd hc hdbusy hbusy hv hw hmcap hi)
  · intro hindex
    exact ⟨c, List.mem_of_getElem? hc, (c.awaits_eq_true _).mpr ⟨hbusy, w, i, hw, w.indexOf?_address_self hi, hindex⟩⟩

/-! ## The element store a step can make -/

/-- Everything a turn with action `act` at core `c` can make of the memory `m`. -/
inductive MemChange (cores : List CoreState) (m : Memory) (o : ByteOrder) : Action → CoreState → Memory → Prop where
  /-- A turn that stores nothing. -/
  | same (act : Action) (c : CoreState) : MemChange cores m o act c m
  /-- A host write to OUT, of an element that no BUSY core owns. -/
  | wroteOut (c : CoreState) (w : Window) (i : Nat) (x : W64)
      (hfree : cores.any (CoreState.owns (w.address i)) = false) :
      MemChange cores m o (.wrOut i x) c (m.writeElement o (w.address i) x)
  /-- An element step, which stores element INDEX of the core's own window. -/
  | stored (c : CoreState) (w : Window) (x : W64) (hbusy : c.busy = true) (hout : c.out = some w)
      (hcap : c.index.toNat < w.cap.toNat) :
      MemChange cores m o .drive c (m.writeElement o (w.address c.index.toNat) x)

/-- A turn makes one of those changes of the memory. -/
theorem TurnEffect.memChange {act : Action} {c : CoreState} {s t : State} (h : TurnEffect act c s t) :
    MemChange s.cores s.mem s.byteOrder act c t.mem := by
  cases h with
  | quiet _ hmem => exact hmem ▸ .same act c
  | wroteOut i x a hact _ haddr howns heq =>
    obtain ⟨w, -, -, rfl⟩ := (outAddress?_eq_some c.out i a).mp haddr
    subst hact heq
    exact .wroteOut c w i x howns
  | stored i a hact hbusy _ _ haddr heq =>
    obtain ⟨w, hout, hcap, rfl⟩ := (outAddress?_eq_some c.out _ a).mp haddr
    subst hact heq
    exact .stored c w _ hbusy hout hcap
  | wroteOperand _ _ _ _ _ heq | bound _ _ _ heq | reset _ heq | started _ _ _ _ _ _ _ _ _ _ heq
  | completed _ _ _ _ _ heq => exact heq ▸ .same act c

/-- A step that answers a next state waits, or makes one of those changes by the turn it takes. -/
theorem step_memChange {s t : State} (h : step s = .next t) :
    t = s ∨ ∃ (u : Turn) (c : CoreState), s.turn? = some u ∧ s.cores[u.core]? = some c ∧
      MemChange s.cores s.mem s.byteOrder u.act c t.mem := by
  obtain ⟨-, rfl⟩ | ⟨u, s', c, hturn, hof, hc, -, hout⟩ := step_cases s t h
  · exact .inl rfl
  · obtain ⟨hcores, hmem, horder, hsel⟩ := hof.same
    have hchange := (turnOutcome_cases u.act c s' t hc hout).memChange
    rw [State.current?_eq, hcores, hsel] at hc
    rw [hcores, hmem, horder] at hchange
    exact .inr ⟨u, c, hturn, hc, hchange⟩

/-- The byte order is fixed (20_memory.md R31; log 11). -/
theorem step_byteOrder {s t : State} (h : step s = .next t) : t.byteOrder = s.byteOrder := by
  obtain ⟨-, -, horder⟩ := otherCoresUntouched s t h
  exact horder

/-- An element that no BUSY core owns is no element of a BUSY core's window. -/
theorem address_ne_of_not_owned {cores : List CoreState} {k : Nat} {c : CoreState} {w : Window} {a j : Nat}
    (hfree : cores.any (CoreState.owns a) = false) (hc : cores[k]? = some c) (hbusy : c.busy = true)
    (hw : c.out = some w) (hj : j < w.cap.toNat) : a ≠ w.address j := by
  rintro rfl
  have howns : c.owns (w.address j) = true :=
    (c.owns_eq_true _).mpr ⟨hbusy, w, j, hw, w.indexOf?_address_self hj⟩
  exact List.any_eq_false.mp hfree c (List.mem_of_getElem? hc) howns

/-- A BUSY core has INDEX <= OUT_CAP (10_state.md R15, 42_driver.md R93 (4)). -/
theorem CoreState.Ok.index_le_cap {c : CoreState} (h : c.Ok) (hbusy : c.busy = true) {w : Window}
    (hw : c.out = some w) : c.index.toNat ≤ w.cap.toNat := by
  obtain ⟨-, -, -, hrun⟩ := h
  obtain ⟨-, hindex, -, v, hv, hcap⟩ := hrun hbusy
  obtain rfl : v = w := Option.some.inj (hv.symm.trans hw)
  exact hindex.trans hcap

/-- Settles O53, by the stores a step can make: the host's go to no BUSY core's element, another driver's to its own
window, and the core's own driver's to element INDEX. -/
theorem writtenElementsAreFinal : Obligations.WrittenElementsAreFinal := by
  intro s t k c w j hinv hstep hc hbusy hw hj
  have hjcap : j < w.cap.toNat := by
    obtain ⟨-, hok, -⟩ := hinv
    exact hj.trans_le ((hok k c hc).index_le_cap hbusy hw)
  rw [step_byteOrder hstep]
  obtain rfl | ⟨⟨n, act⟩, d, -, hd, hchange⟩ := step_memChange hstep
  · rfl
  · generalize t.mem = m at hchange ⊢
    cases hchange with
    | same => rfl
    | wroteOut _ v i x hfree =>
      exact Memory.readElement?_writeElement_of_ne _ _ v w i j x (address_ne_of_not_owned hfree hc hbusy hw hjcap)
    | stored _ v x hdbusy hv hcap =>
      refine Memory.readElement?_writeElement_of_ne _ _ v w _ j x ?_
      by_cases hnk : n = k
      · obtain rfl : d = c := Option.some.inj (hd.symm.trans (hnk ▸ hc))
        obtain rfl : v = w := Option.some.inj (hv.symm.trans hw)
        exact fun haddr => hj.ne' (v.address_inj.mp haddr)
      · exact hinv.busyWindowsDisjoint.address_ne hnk hd hc hdbusy hbusy hv hw hcap hjcap

/-! ## The first of the host's turns -/

theorem State.turn?_of_inbox {s : State} {u : Turn} {ts : List Turn} (h : s.inbox = u :: ts) : s.turn? = some u := by
  unfold State.turn? nextTurn?
  rw [h]
  rfl

/-- Settles O55: a driver's turn stores, if at all, to its own core's window. -/
theorem driversKeepToTheirWindows : Obligations.DriversKeepToTheirWindows := by
  intro s t ts j k c w i hinv hinbox hjk hstep hc hbusy hw hi
  rw [step_byteOrder hstep]
  obtain rfl | ⟨u, d, hturn, hd, hchange⟩ := step_memChange hstep
  · rfl
  · obtain rfl : u = ⟨j, .drive⟩ := Option.some.inj (hturn.symm.trans (State.turn?_of_inbox hinbox))
    generalize t.mem = m at hchange ⊢
    cases hchange with
    | same => rfl
    | stored _ v x hdbusy hv hcap =>
      exact Memory.readElement?_writeElement_of_ne _ _ v w _ i x
        (hinv.busyWindowsDisjoint.address_ne hjk hd hc hdbusy hbusy hv hw hcap hi)

/-- A step with turns queued takes the first of them, at a core of the system. -/
theorem step_cases_of_inbox {s t : State} {u : Turn} {ts : List Turn} (hinbox : s.inbox = u :: ts)
    (h : step s = .next t) :
    ∃ c, ((s.withInbox ts).withSel u.core).current? = some c ∧
      turnOutcome u.act c ((s.withInbox ts).withSel u.core) = .next t := by
  obtain ⟨hnone, -⟩ | ⟨u', s', c, hturn, hof, hc, -, hout⟩ := step_cases s t h
  · rw [State.turn?_of_inbox hinbox] at hnone
    cases hnone
  · cases hof with
    | host _ ts' h' =>
      obtain ⟨rfl, rfl⟩ := List.cons.inj (hinbox.symm.trans h')
      exact ⟨c, hc, hout⟩
    | driver _ hempty | free _ _ _ hempty => simp [hinbox] at hempty

/-- Settles O46: of the effects a turn can have a host read has the quiet one, and only a poll of WAIT queues turns. -/
theorem hostReadsHaveNoEffect : Obligations.HostReadsHaveNoEffect := by
  intro s t ts k act hinbox hread hstep
  obtain ⟨c, hc, hout⟩ := step_cases_of_inbox hinbox hstep
  have hqueue : t.inbox = ts := by
    obtain hsame | ⟨rfl, -⟩ := turnOutcome_inbox _ _ _ _ hout
    · exact hsame
    · simp at hread
  have heffect : TurnEffect act c _ t := turnOutcome_cases _ _ _ _ hc hout
  cases heffect with
  | quiet hcores hmem _ horder => exact ⟨hcores, hmem, horder, hqueue⟩
  | wroteOut _ _ _ hact | wroteOperand _ _ hact | bound _ hact | reset hact | started _ _ _ hact | stored _ _ hact
  | completed _ hact => simp [hact] at hread

/-- A turn that binds OUT does what the binding answers. -/
theorem turnOutcome_bind (c : CoreState) (w : Window) (s : State) :
    turnOutcome (.bind w) c s = outcomeOf (bindOut c w s) := rfl

/-- Settles O44, at a BUSY core and at one that is not. -/
theorem bindingOfOut : Obligations.BindingOfOut := by
  intro s ts k c w hinbox hc
  rw [step_of_turn s _ ts c hinbox hc, turnOutcome_bind]
  unfold bindOut
  split <;> rfl

end Sys2Proof.Machine
end

section
/-! PROOF. The command word (30_encoding.md R44 to R51): the decoder and the encoder are inverse to one another, and
every other word is reserved. -/

namespace Sys2Proof

/-- The encoding of every command decodes to it (30_encoding.md R51). -/
@[simp] theorem decode_encode (i : Instr) : decode (encode i) = .ok i := by
  cases i <;> rfl

/-- Each DIST value selects the one command that has it (30_encoding.md R46). -/
theorem distCode_commandOfDist : ∀ d : BitVec 2, distCode (commandOfDist d) = d := by
  decide

/-- A word is its two fields, RSVZ above DIST (30_encoding.md R44). -/
theorem reservedField_append_distField (w : W64) : reservedField w ++ distField w = w := by
  have hjoin : w.extractLsb' (0 + 2) 62 ++ w.extractLsb' 0 2 = w.extractLsb' 0 (62 + 2) :=
    BitVec.extractLsb'_append_extractLsb'_eq_extractLsb' (by omega)
  exact hjoin.trans BitVec.extractLsb'_eq_self

/-- The decoder answers the command whose encoding the word is, and no other (30_encoding.md R51). -/
theorem decode_eq_ok_iff (w : W64) (i : Instr) : decode w = .ok i ↔ w = encode i := by
  constructor
  · intro h
    unfold decode at h
    split at h
    case isTrue hzero =>
      obtain rfl : commandOfDist (distField w) = i := Except.ok.inj h
      calc w = reservedField w ++ distField w := (reservedField_append_distField w).symm
        _ = encode (commandOfDist (distField w)) := by rw [hzero, encode, distCode_commandOfDist]
    case isFalse => cases h
  · rintro rfl
    exact decode_encode i

/-- The reserved words are those with a bit of RSVZ set (30_encoding.md R48). -/
theorem decode_eq_error_iff (w : W64) : decode w = .error .reservedCommand ↔ reservedField w ≠ 0#62 := by
  unfold decode
  split <;> simp [*]

/-- The DIST field of a command's word is the command's code (30_encoding.md R46). -/
theorem distField_encode (i : Instr) : distField (encode i) = distCode i := by
  cases i <;> rfl

/-- Settles O1: a word is its two fields, and the codes of DIST are one to one with the commands. -/
theorem decodeIffEncode : Obligations.DecodeIffEncode := by
  intro w
  refine ⟨decode_eq_ok_iff w, decode_eq_error_iff w, fun i h => ?_, rfl, rfl, rfl, rfl⟩
  rw [(decode_eq_ok_iff w i).mp h]
  exact (distField_encode i).symm

/-- Settles O2: the table's words are the four encodings, and the other two have a bit of RSVZ set. -/
theorem tableWordsDecode : Obligations.TableWordsDecode :=
  ⟨decode_encode .distUint64, decode_encode .distUniform01, decode_encode .distUniform11, decode_encode .distNormal,
    (decode_eq_error_iff _).mpr (by decide), (decode_eq_error_iff _).mpr (by decide)⟩

end Sys2Proof
end

section
/-! PROOF. The host's register transactions and the poll of WAIT (30_encoding.md R47 to R54): what a turn of each
answers. -/

namespace Sys2Proof.Machine

/-! ## Register transactions (30_encoding.md R47, R49) -/

theorem turnOutcome_rd (r : BitVec 4) (c : CoreState) (s : State) :
    turnOutcome (.rd r) c s = outcomeOf (readRegisterAt c r s) := rfl

theorem turnOutcome_wr {r : BitVec 4} (hr : r ≠ 5#4) (v : W64) (c : CoreState) (s : State) :
    turnOutcome (.wr r v) c s = outcomeOf (writeRegisterAt c r v s) := by
  have hfetch : fetchAction (.wr r v) c s = .done (outcomeOf (writeRegisterAt c r v s)) := if_neg hr
  rw [turnOutcome, hfetch]

/-- No register has one of the numbers 9 to 15 (10_state.md R19). -/
theorem CoreState.readRegister_reserved (c : CoreState) {r : BitVec 4} (hr : 9 ≤ r.toNat) :
    c.readRegister r = .error .reservedRegister := by
  have hne : ∀ n : BitVec 4, n.toNat < 9 → r ≠ n := by
    rintro n hn rfl
    omega
  simp [CoreState.readRegister, hne]

/-- A write of a number without a register is refused before anything else is looked at (60_exceptions.md R118). -/
theorem CoreState.writeRegister_reserved (c : CoreState) {r : BitVec 4} (v : W64) (hr : 9 ≤ r.toNat) :
    c.writeRegister r v = .error .reservedRegister :=
  if_pos (show 8#4 < r from BitVec.lt_def.mpr hr)

/-- STATUS, INDEX and VERSION are read-only (10_state.md R19). -/
theorem CoreState.writeRegister_readOnly (c : CoreState) {r : BitVec 4} (v : W64) (hlow : 6 ≤ r.toNat)
    (hhigh : r.toNat ≤ 8) : c.writeRegister r v = .error .writeReadOnly := by
  have hnot : ¬8#4 < r := fun h => absurd (BitVec.lt_def.mp h) hhigh.not_gt
  have hread : 5#4 < r := BitVec.lt_def.mpr hlow
  unfold CoreState.writeRegister
  rw [if_neg hnot, if_pos hread]

/-- A host write of a register that refuses it is refused for that reason. -/
theorem step_wr_refused {s : State} {ts : List Turn} {k : Nat} {c : CoreState} {r : BitVec 4} {v : W64} {e : Refusal}
    (hinbox : s.inbox = ⟨k, .wr r v⟩ :: ts) (hc : s.cores[k]? = some c) (hr : 6 ≤ r.toNat)
    (h : c.writeRegister r v = .error e) : step s = .refused e := by
  have hcmd : r ≠ 5#4 := by
    rintro rfl
    exact absurd hr (by decide)
  rw [step_of_turn s _ ts c hinbox hc, turnOutcome_wr hcmd, writeRegisterAt, h]
  rfl

/-- Settles O38: the register's own refusal is the step's, as CMD is none of these numbers. -/
theorem reservedTransactions : Obligations.ReservedTransactions := by
  intro s ts k c r v hc
  refine ⟨fun hr hinbox => ?_, fun hr hinbox => ?_, fun hlow hhigh hinbox => ?_⟩
  · rw [step_of_turn s _ ts c hinbox hc, turnOutcome_rd, readRegisterAt, c.readRegister_reserved hr]
    rfl
  · exact step_wr_refused hinbox hc (by omega) (c.writeRegister_reserved v hr)
  · exact step_wr_refused hinbox hc hlow (c.writeRegister_readOnly v hlow hhigh)

/-! ## The poll of WAIT (30_encoding.md R54) -/

/-- STATUS has DONE in bit 1 and BUSY in bit 0 (10_state.md R16). -/
theorem statusWord_eq_or (busy done : Bool) :
    statusWord busy done = (if done then 2#64 else 0#64) ||| (if busy then 1#64 else 0#64) := by
  cases busy <;> cases done <;> rfl

/-- With no core BUSY no driver has a step. -/
theorem busyCores_of_idle {s : State} (h : ∀ j, ¬s.IsBusy j) : busyCores s.cores = [] :=
  List.eq_nil_iff_forall_not_mem.mpr fun j hj => h j ((mem_busyCores s.cores j).mp hj)

/-- With two cores BUSY the driver of some BUSY core is drawn (log 6). -/
theorem nextDriver?_several (s : State) {i j : Nat} (hij : i ≠ j) (hi : s.IsBusy i) (hj : s.IsBusy j) :
    ∃ m, s.IsBusy m ∧ nextDriver? s = some (m, s.drawn) := by
  have hi' := (mem_busyCores s.cores i).mpr hi
  have hj' := (mem_busyCores s.cores j).mpr hj
  cases h : nextDriver? s with
  | none =>
    rw [(nextDriver?_none s).mp h] at hi'
    cases hi'
  | some d =>
    obtain ⟨m, s'⟩ := d
    obtain ⟨hm, ⟨hlone, -⟩ | rfl⟩ := nextDriver?_some s s' m h
    · rw [hlone, List.mem_singleton] at hi' hj'
      exact absurd (hi'.trans hj'.symm) hij
    · exact ⟨m, (mem_busyCores s.cores m).mp hm, rfl⟩

/-- A poll that reads DONE = 1 ends the WAIT. -/
theorem waitPoll_of_done {c : CoreState} (s : State) (h : c.done = true) :
    waitPoll c s = s.withReply (statusWord c.busy c.done) := by
  unfold waitPoll
  exact if_pos h

/-- A poll that reads DONE = 0 where no driver has a step is queued again. -/
theorem waitPoll_of_no_driver {c : CoreState} (s : State) (hdone : c.done = false)
    (h : busyCores s.cores = []) :
    waitPoll c s = (s.withReply (statusWord c.busy c.done)).withInbox (⟨s.sel, .wait⟩ :: s.inbox) := by
  have hnone : nextDriver? (s.withReply (statusWord c.busy c.done)) = none := (nextDriver?_none _).mpr h
  unfold waitPoll
  simp only [hnone]
  rw [if_neg (by simp [hdone])]
  rfl

/-- A poll that reads DONE = 0 leaves the driver that comes next a turn, and is queued again after it. -/
theorem waitPoll_of_driver {c : CoreState} (s : State) {t : State} {j : Nat} (hdone : c.done = false)
    (h : nextDriver? (s.withReply (statusWord c.busy c.done)) = some (j, t)) :
    waitPoll c s = t.withInbox (⟨j, .drive⟩ :: ⟨s.sel, .wait⟩ :: t.inbox) := by
  unfold waitPoll
  simp only [h]
  rw [if_neg (by simp [hdone])]

/-- A queued WAIT is one poll. -/
theorem step_wait {s : State} {ts : List Turn} {k : Nat} {c : CoreState} (hinbox : s.inbox = ⟨k, .wait⟩ :: ts)
    (hc : s.cores[k]? = some c) : step s = .next (waitPoll c ((s.withInbox ts).withSel k)) :=
  step_of_turn s _ ts c hinbox hc

/-- Settles O45, by which driver comes next: none, the lone BUSY core's, or a drawn one. -/
theorem waitPollsStatus : Obligations.WaitPollsStatus := by
  intro s ts k c hinbox hc
  rw [step_wait hinbox hc, ← statusWord_eq_or]
  refine ⟨fun hdone => ?_, fun hdone hidle => ?_, fun j hdone honly hbusy => ?_, fun i j hdone hij hi hj => ?_⟩
  · rw [waitPoll_of_done _ hdone]
  · rw [waitPoll_of_no_driver ((s.withInbox ts).withSel k) hdone (busyCores_of_idle hidle)]
    rfl
  · have hlone := busyCores_of_onlyBusy s j honly hbusy
    rw [waitPoll_of_driver ((s.withInbox ts).withSel k) hdone (nextDriver?_lone _ j hlone)]
    rfl
  · obtain ⟨m, hm, hnext⟩ :=
      nextDriver?_several (((s.withInbox ts).withSel k).withReply (statusWord c.busy c.done)) hij hi hj
    refine ⟨m, hm, ?_⟩
    rw [waitPoll_of_driver _ hdone hnext]
    rfl

end Sys2Proof.Machine
end

section
/-! PROOF. The command line as host actions (30_encoding.md R55 (a)): its operand writes, its CMD write, and its WAIT,
each poll of which leaves the running command one step until DONE = 1. -/

namespace Sys2Proof.Machine

/-! ## Runs of the machine -/

theorem run_one {s t : State} (h : step s = .next t) : Host.Core.run core 1 s = .next t := by
  have hstep : core.step s = .next t := h
  simp only [Host.Core.run, hstep]

/-- A run, continued by another. -/
theorem run_trans {m n : Nat} {s t u : State} (hst : Host.Core.run core m s = .next t)
    (htu : Host.Core.run core n t = .next u) : Host.Core.run core (m + n) s = .next u := by
  induction m generalizing s with
  | zero =>
    obtain rfl : s = t := Host.Outcome.next.inj hst
    rwa [Nat.zero_add]
  | succ m ih =>
    rw [Nat.succ_add]
    simp only [Host.Core.run] at hst ⊢
    cases hstep : core.step s with
    | next s' =>
      rw [hstep] at hst
      exact ih hst
    | fault | refused =>
      rw [hstep] at hst
      cases hst

/-! ## The five operand writes (42_driver.md R92) -/

/-- Register numbers and the values to write to them. -/
abbrev Writes := List (BitVec 4 × W64)

/-- The host's writes at core `k`, in order. -/
def operandTurns (k : Nat) (ws : Writes) : List Turn := ws.map fun w => ⟨k, .wr w.1 w.2⟩

/-- The core after those writes. -/
def CoreState.setOperands (c : CoreState) (ws : Writes) : CoreState := ws.foldl (fun d w => d.setOperand w.1 w.2) c

theorem CoreState.writeRegister_operand {c : CoreState} (hbusy : c.busy = false) {r : BitVec 4} (hr : r.toNat < 5)
    (v : W64) : c.writeRegister r v = .ok (c.setOperand r v) := by
  have hlow : ∀ n : BitVec 4, 5 ≤ n.toNat → ¬n < r := fun n hn h => by
    have := BitVec.lt_def.mp h
    omega
  unfold CoreState.writeRegister
  rw [if_neg (hlow 8#4 (by decide)), if_neg (hlow 5#4 (by decide)), if_neg (by simp [hbusy])]

/-- A host write of an operand register of a core that is not BUSY. -/
theorem step_operandWrite {s : State} {ts : List Turn} {k : Nat} {c : CoreState} {r : BitVec 4} {v : W64}
    (hinbox : s.inbox = ⟨k, .wr r v⟩ :: ts) (hc : s.cores[k]? = some c) (hbusy : c.busy = false) (hr : r.toNat < 5) :
    step s = .next (((s.withInbox ts).withSel k).setCurrent (c.setOperand r v)) := by
  have hcmd : r ≠ 5#4 := by
    rintro rfl
    exact absurd hr (by decide)
  rw [step_of_turn s _ ts c hinbox hc, turnOutcome_wr hcmd, writeRegisterAt, c.writeRegister_operand hbusy hr]
  rfl

/-- Queued writes of operand registers leave a core that is not BUSY with the registers set, and the memory alone. -/
theorem run_operandWrites {k : Nat} {ts : List Turn} (ws : Writes) {s : State} {c : CoreState}
    (hinbox : s.inbox = operandTurns k ws ++ ts) (hc : s.cores[k]? = some c) (hbusy : c.busy = false)
    (hws : ∀ w ∈ ws, w.1.toNat < 5) :
    ∃ t, Host.Core.run core ws.length s = .next t ∧ t.inbox = ts ∧
      t.cores = ((s.withSel k).setCurrent (c.setOperands ws)).cores ∧ t.mem = s.mem := by
  induction ws generalizing s c with
  | nil => exact ⟨s, rfl, hinbox, ((s.withSel k).set_current_self c hc).symm, rfl⟩
  | cons w ws ih =>
    obtain ⟨hw, hws⟩ := List.forall_mem_cons.mp hws
    have hstep := step_operandWrite hinbox hc hbusy hw
    have hcurrent := ((s.withInbox (operandTurns k ws ++ ts)).withSel k).setCurrent_current? (c.setOperand w.1 w.2) c hc
    obtain ⟨t, hrun, hin, hcores, hmem⟩ := ih rfl hcurrent (by simp [hbusy]) hws
    refine ⟨t, ?_, hin, hcores.trans (List.set_set _), hmem⟩
    rw [List.length_cons, Nat.add_comm]
    exact run_trans (run_one hstep) hrun

/-- The operand writes of a command line (30_encoding.md R55 (a)). -/
def operandWrites (l : CommandLine) : Writes :=
  [(0#4, BitVec.ofNat 64 l.size), (1#4, BitVec.ofNat 64 l.key0), (2#4, BitVec.ofNat 64 l.key1),
   (3#4, BitVec.ofNat 64 l.counter0), (4#4, BitVec.ofNat 64 l.counter1)]

/-- The core with a command line's scalars in its operand registers. -/
def CoreState.withOperands (c : CoreState) (l : CommandLine) : CoreState :=
  { c with
    size := Reg.of (BitVec.ofNat 64 l.size)
    key0 := Reg.of (BitVec.ofNat 64 l.key0)
    key1 := Reg.of (BitVec.ofNat 64 l.key1)
    ctr0 := Reg.of (BitVec.ofNat 64 l.counter0)
    ctr1 := Reg.of (BitVec.ofNat 64 l.counter1) }

theorem operandWrites_lt (l : CommandLine) : ∀ w ∈ operandWrites l, w.1.toNat < 5 := by
  simp [operandWrites]

theorem commandTurns_eq (k : Nat) (l : CommandLine) :
    commandTurns k l = operandTurns k (operandWrites l) ++ [⟨k, .wr 5#4 (encode l.command)⟩, ⟨k, .wait⟩] := rfl

theorem CoreState.setOperands_operandWrites (c : CoreState) (l : CommandLine) :
    c.setOperands (operandWrites l) = c.withOperands l := rfl

/-! ## The command while it runs (42_driver.md R93, R97) -/

/-- Element `j` of command `i` with the operands of `c` (42_driver.md R100). -/
def CoreState.elementAt (c : CoreState) (i : Instr) (j : Nat) : W64 :=
  transformOf i (mix c.key0.val c.key1.val c.ctr0.val (c.ctr1.val + BitVec.ofNat 64 j)).1
    (mix c.key0.val c.key1.val c.ctr0.val (c.ctr1.val + BitVec.ofNat 64 j)).2

/-- The core that runs command `i` with the operands of `c`, `n` elements written. -/
def CoreState.runningAt (c : CoreState) (i : Instr) (n : Nat) : CoreState :=
  { c.started (encode i) with index := BitVec.ofNat 64 n, cctr := c.ctr1.val + BitVec.ofNat 64 n }

theorem CoreState.runningAt_zero (c : CoreState) (i : Instr) : c.runningAt i 0 = c.started (encode i) := by
  unfold CoreState.runningAt
  rw [BitVec.add_zero]
  rfl

theorem CoreState.advanced_runningAt (c : CoreState) (i : Instr) (n : Nat) :
    (c.runningAt i n).advanced = c.runningAt i (n + 1) := by
  unfold CoreState.runningAt
  rw [BitVec.ofNat_add, ← BitVec.add_assoc]
  rfl

theorem CoreState.runningAt_index_toNat {c : CoreState} (i : Instr) {n : Nat} (hn : n ≤ c.size.val.toNat) :
    (c.runningAt i n).index.toNat = n :=
  (BitVec.toNat_ofNat n 64).trans (Nat.mod_eq_of_lt (hn.trans_lt c.size.val.isLt))

theorem CoreState.transformOf_block_runningAt (c : CoreState) (i : Instr) (n : Nat) :
    transformOf i (c.runningAt i n).block.1 (c.runningAt i n).block.2 = c.elementAt i n := rfl

/-- A turn of a BUSY core's driver runs the command that its CMD decodes to. -/
theorem turnOutcome_drive {c : CoreState} {i : Instr} (hbusy : c.busy = true) (hi : decode c.cmd.val = .ok i)
    (s : State) : turnOutcome .drive c s = exec i s := by
  have hfetch : fetchAction .drive c s = .run i s := by
    simp [fetchAction, driverTurn, hbusy, hi]
  rw [turnOutcome, hfetch]

/-- A write of a command's word at a core that is not BUSY runs the command. -/
theorem turnOutcome_commandWrite {c : CoreState} (hbusy : c.busy = false) (i : Instr) (s : State) :
    turnOutcome (.wr 5#4 (encode i)) c s = exec i s := by
  have hfetch : fetchAction (.wr 5#4 (encode i)) c s = .run i s := by
    simp [fetchAction, commandWrite, hbusy]
  rw [turnOutcome, hfetch]

/-- Core `k` is the one BUSY core; it runs command `i` with the operands of `c` and has written the first `n` elements
of its window `w`, and of the memory `m` at the start nothing outside them has changed. -/
structure Filling (i : Instr) (c : CoreState) (w : Window) (m : Memory) (k n : Nat) (s : State) : Prop where
  running : s.cores[k]? = some (c.runningAt i n)
  lone : s.OnlyBusy k
  filled : ∀ j, j < n → Memory.readElement? s.mem s.byteOrder (w.address j) = some (c.elementAt i j)
  outside : Memory.SameOutside m s.mem (w.address 0) (8 * n)

/-- `Filling` speaks of the cores, the memory and the byte order only. -/
theorem Filling.congr {i : Instr} {c : CoreState} {w : Window} {m : Memory} {k n : Nat} {s t : State}
    (h : Filling i c w m k n s) (hcores : t.cores = s.cores) (hmem : t.mem = s.mem)
    (horder : t.byteOrder = s.byteOrder) : Filling i c w m k n t := by
  obtain ⟨hrunning, hlone, hfilled, houtside⟩ := h
  unfold State.OnlyBusy at hlone
  rw [← hcores] at hrunning hlone
  rw [← hmem, ← horder] at hfilled
  rw [← hmem] at houtside
  exact ⟨hrunning, hlone, hfilled, houtside⟩

/-- A BUSY core put back among cores that are not. -/
theorem State.setCurrent_onlyBusy {s : State} {d : CoreState} (hbusy : d.busy = true)
    (hidle : ∀ (j : Nat) (e : CoreState), j ≠ s.sel → s.cores[j]? = some e → e.busy = false) :
    (s.setCurrent d).OnlyBusy s.sel := by
  intro j e he
  obtain ⟨rfl, rfl⟩ | ⟨hj, he⟩ := s.setCurrent_getElem? d j e he
  · exact iff_of_true hbusy rfl
  · exact iff_of_false (by simp [hidle j e hj he]) hj

/-- Where no core is BUSY none is BUSY over a window. -/
theorem anyOtherCore_busyOver_of_idle {cores : List CoreState} (k : Nat) (w : Window)
    (hidle : ∀ (j : Nat) (e : CoreState), cores[j]? = some e → e.busy = false) :
    anyOtherCore cores k (CoreState.busyOver w) = false := by
  by_contra hany
  obtain ⟨j, e, -, he, hover⟩ := (anyOtherCore_eq_true _ _ _).mp (Bool.not_eq_false _ ▸ hany)
  obtain ⟨hbusy, -⟩ := (e.busyOver_eq_true w).mp hover
  simp [hidle j e he] at hbusy

/-- The start of a command, where no core is BUSY. -/
theorem exec_start (i : Instr) (s : State) {c : CoreState} {w : Window} (hc : s.current? = some c)
    (hidle : ∀ (j : Nat) (e : CoreState), s.cores[j]? = some e → e.busy = false) (hheld : c.operandsHeld = true)
    (hout : c.out = some w) (hcap : c.size.val.toNat ≤ w.cap.toNat) :
    ∃ t, exec i s = .next t ∧ t.inbox = s.inbox ∧ Filling i c w s.mem s.sel 0 t := by
  have hfree := anyOtherCore_busyOver_of_idle s.sel w hidle
  refine ⟨s.setCurrent (c.started (encode i)), ?_, rfl, ⟨?_, ?_, ?_, ?_⟩⟩
  · rw [exec_eq_runCommand]
    exact runCommand_start i _ s c w hc (hidle _ c hc) hheld hout hcap hfree
  · rw [c.runningAt_zero]
    exact s.setCurrent_current? _ c hc
  · exact State.setCurrent_onlyBusy rfl fun j e _ => hidle j e
  · exact fun j hj => absurd hj j.not_lt_zero
  · exact fun x _ => rfl

section
variable {i : Instr} {c : CoreState} {w : Window} {m : Memory} {k n : Nat} {s : State}

theorem Filling.isBusy (h : Filling i c w m k n s) : s.IsBusy k := ⟨_, h.running, rfl⟩

/-- An element step of the running command (42_driver.md R97). -/
theorem Filling.exec_element (h : Filling i c w m k n s) (hsel : s.sel = k) (hout : c.out = some w)
    (hcap : c.size.val.toNat ≤ w.cap.toNat) (hn : n < c.size.val.toNat) :
    ∃ t, exec i s = .next t ∧ t.inbox = s.inbox ∧ Filling i c w m k (n + 1) t := by
  subst hsel
  obtain ⟨hrunning, hlone, hfilled, houtside⟩ := h
  have hindex := c.runningAt_index_toNat i hn.le
  have haddr : (c.runningAt i n).storeAddress? = some (w.address n) :=
    (outAddress?_eq_some _ _ _).mpr ⟨w, hout, hindex.symm ▸ hn.trans_le hcap, by rw [hindex]⟩
  have hexec := runCommand_element i (transformOf i) s _ _ hrunning rfl rfl (hindex.symm ▸ hn) haddr
  rw [← exec_eq_runCommand, c.advanced_runningAt, c.transformOf_block_runningAt] at hexec
  refine ⟨_, hexec, rfl, ⟨?_, ?_, fun j hj => ?_, fun x hx => ?_⟩⟩
  · exact State.setCurrent_current? _ _ _ hrunning
  · refine State.setCurrent_onlyBusy rfl fun j e hj he => ?_
    exact Bool.eq_false_iff.mpr fun hbusy => hj ((hlone j e he).mp hbusy)
  · obtain hj | rfl := Nat.lt_succ_iff_lt_or_eq.mp hj
    · rw [← hfilled j hj]
      exact Memory.readElement?_writeElement_of_ne _ _ w w n j _ fun he => hj.ne' (w.address_inj.mp he)
    · exact Memory.readElement?_writeElement_self _ _ _ _
  · rw [← houtside x (by omega)]
    exact Memory.read?_writeElement_outside _ _ _ _ x (by rw [w.address_add n]; omega)

/-- A turn of the running command's driver runs its next phase. -/
theorem Filling.step_drive (h : Filling i c w m k n s) {ts : List Turn} (hinbox : s.inbox = ⟨k, .drive⟩ :: ts) :
    step s = exec i ((s.withInbox ts).withSel k) := by
  rw [step_of_turn s _ ts _ hinbox h.running, turnOutcome_drive rfl (decode_encode i)]

/-- A poll of WAIT at the running core leaves its driver a turn. -/
theorem Filling.step_wait (h : Filling i c w m k n s) {ts : List Turn} (hinbox : s.inbox = ⟨k, .wait⟩ :: ts) :
    ∃ t, step s = .next t ∧ t.inbox = ⟨k, .drive⟩ :: ⟨k, .wait⟩ :: ts ∧ Filling i c w m k n t := by
  obtain ⟨-, -, hlone, -⟩ := waitPollsStatus s ts k _ hinbox h.running
  exact ⟨_, hlone k rfl h.lone h.isBusy, rfl, h.congr rfl rfl rfl⟩

/-- Two steps of a WAIT at the running core, a poll and the driver's turn that it leaves, write one element. -/
theorem Filling.run_element (h : Filling i c w m k n s) (hout : c.out = some w) (hcap : c.size.val.toNat ≤ w.cap.toNat)
    (hn : n < c.size.val.toNat) {ts : List Turn} (hinbox : s.inbox = ⟨k, .wait⟩ :: ts) :
    ∃ t, Host.Core.run core 2 s = .next t ∧ t.inbox = ⟨k, .wait⟩ :: ts ∧ Filling i c w m k (n + 1) t := by
  obtain ⟨p, hpoll, hpin, hp⟩ := h.step_wait hinbox
  have hturn : Filling i c w m k n ((p.withInbox (⟨k, .wait⟩ :: ts)).withSel k) := hp.congr rfl rfl rfl
  obtain ⟨t, hexec, htin, ht⟩ := hturn.exec_element rfl hout hcap hn
  exact ⟨t, run_trans (run_one hpoll) (run_one ((hp.step_drive hpin).trans hexec)), htin, ht⟩

/-- From the start on, `2n` steps of a WAIT write the first `n` elements. -/
theorem Filling.run_elements (h : Filling i c w m k 0 s) (hout : c.out = some w)
    (hcap : c.size.val.toNat ≤ w.cap.toNat) (hn : n ≤ c.size.val.toNat) {ts : List Turn}
    (hinbox : s.inbox = ⟨k, .wait⟩ :: ts) :
    ∃ t, Host.Core.run core (2 * n) s = .next t ∧ t.inbox = ⟨k, .wait⟩ :: ts ∧ Filling i c w m k n t := by
  induction n with
  | zero => exact ⟨s, rfl, hinbox, h⟩
  | succ n ih =>
    obtain ⟨p, hprun, hpin, hp⟩ := ih (Nat.le_of_succ_le hn)
    obtain ⟨t, htrun, htin, ht⟩ := hp.run_element hout hcap hn hpin
    exact ⟨t, run_trans hprun htrun, htin, ht⟩

/-- The completion step of the running command (42_driver.md R98). -/
theorem Filling.exec_complete (h : Filling i c w m k c.size.val.toNat s) (hsel : s.sel = k) :
    exec i s = .next (s.setCurrent (c.runningAt i c.size.val.toNat).completed) := by
  subst hsel
  rw [exec_eq_runCommand]
  exact runCommand_complete i _ s _ h.running rfl rfl (by simp [CoreState.runningAt])

/-- With all elements written, a WAIT is a poll, the completion step and the poll that reads DONE = 1. -/
theorem Filling.run_completion (h : Filling i c w m k c.size.val.toNat s) {ts : List Turn}
    (hinbox : s.inbox = ⟨k, .wait⟩ :: ts) :
    ∃ t, Host.Core.run core 3 s = .next t ∧ t.inbox = ts ∧ t.reply = some 2#64 ∧
      t.cores[k]? = some (c.runningAt i c.size.val.toNat).completed ∧
      (∀ j, j < c.size.val.toNat →
        Memory.readElement? t.mem t.byteOrder (w.address j) = some (c.elementAt i j)) ∧
      Memory.SameOutside m t.mem (w.address 0) (8 * c.size.val.toNat) := by
  obtain ⟨p, hpoll, hpin, hp⟩ := h.step_wait hinbox
  have hturn : Filling i c w m k c.size.val.toNat ((p.withInbox (⟨k, .wait⟩ :: ts)).withSel k) := hp.congr rfl rfl rfl
  have hcomplete := (hp.step_drive hpin).trans (hturn.exec_complete rfl)
  have hcore := State.setCurrent_current? ((p.withInbox (⟨k, .wait⟩ :: ts)).withSel k)
    (c.runningAt i c.size.val.toNat).completed _ hturn.running
  obtain ⟨hdone, -⟩ := waitPollsStatus _ ts k _ rfl hcore
  exact ⟨_, run_trans (run_one hpoll) (run_trans (run_one hcomplete) (run_one (hdone rfl))), rfl, by simp, hcore,
    hp.filled, hp.outside⟩

end

/-! ## The whole line (30_encoding.md R53, R55 (a)) -/

/-- The scalars of a well-formed line fit in registers (30_encoding.md R45). -/
theorem CommandLine.toNat_scalars {l : CommandLine} (h : l.wellFormed = true) :
    (BitVec.ofNat 64 l.size).toNat = l.size ∧ (BitVec.ofNat 64 l.key0).toNat = l.key0 ∧
      (BitVec.ofNat 64 l.key1).toNat = l.key1 ∧ (BitVec.ofNat 64 l.counter0).toNat = l.counter0 ∧
      (BitVec.ofNat 64 l.counter1).toNat = l.counter1 := by
  simp only [CommandLine.wellFormed, Bool.and_eq_true, decide_eq_true_eq] at h
  obtain ⟨⟨⟨⟨⟨-, hsize⟩, hkey0⟩, hkey1⟩, hcounter0⟩, hcounter1⟩ := h
  simp only [BitVec.toNat_ofNat]
  exact ⟨Nat.mod_eq_of_lt hsize, Nat.mod_eq_of_lt hkey0, Nat.mod_eq_of_lt hkey1, Nat.mod_eq_of_lt hcounter0,
    Nat.mod_eq_of_lt hcounter1⟩

/-- The six writes of a command line leave its command running, and its WAIT to come. -/
theorem run_commandLine_writes {l : CommandLine} {s : State} {k : Nat} {c : CoreState} {w : Window}
    (hinbox : s.inbox = commandTurns k l) (hc : s.cores[k]? = some c)
    (hidle : ∀ (j : Nat) (e : CoreState), s.cores[j]? = some e → e.busy = false) (hout : c.out = some w)
    (hcap : (BitVec.ofNat 64 l.size).toNat ≤ w.cap.toNat) :
    ∃ t, Host.Core.run core 6 s = .next t ∧ t.inbox = [⟨k, .wait⟩] ∧
      Filling l.command (c.withOperands l) w s.mem k 0 t := by
  obtain ⟨p, hprun, hpin, hpcores, hpmem⟩ :=
    run_operandWrites (operandWrites l) (hinbox.trans (commandTurns_eq k l)) hc (hidle k c hc) (operandWrites_lt l)
  rw [c.setOperands_operandWrites] at hpcores
  have hcore : p.cores[k]? = some (c.withOperands l) := by
    rw [hpcores]
    exact (s.withSel k).setCurrent_current? (c.withOperands l) c hc
  have hpidle : ∀ (j : Nat) (e : CoreState), p.cores[j]? = some e → e.busy = false := by
    intro j e he
    rw [hpcores] at he
    obtain ⟨-, rfl⟩ | ⟨-, he⟩ := (s.withSel k).setCurrent_getElem? (c.withOperands l) j e he
    · exact hidle k c hc
    · exact hidle j e he
  have hstep := step_of_turn p _ _ _ hpin hcore
  rw [turnOutcome_commandWrite (hpidle k _ hcore)] at hstep
  obtain ⟨t, hexec, htin, ht⟩ := exec_start l.command ((p.withInbox [⟨k, .wait⟩]).withSel k) hcore hpidle rfl hout hcap
  exact ⟨t, run_trans hprun (run_one (hstep.trans hexec)), htin, hpmem ▸ ht⟩

/-- Settles O19: six writes, two steps of WAIT for each element, and three at its end. -/
theorem commandLineFillsOut : Obligations.CommandLineFillsOut := by
  intro l s k c w hl hinbox hc hidle hout hcap
  obtain ⟨hsize, hkey0, hkey1, hctr0, hctr1⟩ := CommandLine.toNat_scalars hl
  obtain ⟨p, hprun, hpin, hp⟩ := run_commandLine_writes hinbox hc hidle hout (hsize.symm ▸ hcap)
  have hn : (c.withOperands l).size.val.toNat = l.size := hsize
  obtain ⟨q, hqrun, hqin, hq⟩ := hp.run_elements hout (hn.symm ▸ hcap) le_rfl hpin
  obtain ⟨t, htrun, htin, hreply, hcore, hfilled, houtside⟩ := hq.run_completion hqin
  rw [hn] at hqrun hcore hfilled houtside
  have hrun := run_trans hprun (run_trans hqrun htrun)
  rw [show 6 + (2 * l.size + 3) = 2 * l.size + 9 by omega] at hrun
  exact ⟨t, _, hrun, htin, hreply, hcore, rfl, rfl, hsize, hsize, hkey0, hkey1, hctr0, hctr1, rfl, hfilled, houtside⟩

end Sys2Proof.Machine
end

section
/-! PROOF. The block mixer (40_mixer.md R57 to R63): what its operations are, MIX as the unrolled list of them, and the
inverse of each, which makes MIX a bijection of the counters. -/

namespace Sys2Proof.Machine

/-! ## The operations (40_mixer.md R58, R59, R60) -/

theorem ksInit_eq (k0 k1 : W64) : ksInit k0 k1 = ⟨k0, k1, 0x1BD11BDAA9FC1A22#64 ^^^ k0 ^^^ k1⟩ := rfl

theorem inject_eq (k : KeySchedule) (s : Nat) (x : MixWords) :
    inject k s x = ⟨x.x0 + k.word s, x.x1 + k.word (s + 1) + BitVec.ofNat 64 s⟩ := rfl

theorem round_eq (d : Nat) (x : MixWords) :
    round d x = ⟨x.x0 + x.x1, x.x1.rotateLeft (rotAmount d) ^^^ (x.x0 + x.x1)⟩ := rfl

theorem rotAmount_eq (d : Nat) : rotAmount d = [16, 42, 12, 31, 16, 32, 24, 21].getD (d % 8) 0 := rfl

/-- The key schedule's words come round with period three (40_mixer.md R59). -/
theorem KeySchedule.word_mod (k : KeySchedule) (n : Nat) :
    k.word (3 * n) = k.ks0 ∧ k.word (3 * n + 1) = k.ks1 ∧ k.word (3 * n + 2) = k.ks2 := by
  simp [KeySchedule.word]

/-- Settles O21: the equation of each operation, with the key schedule's word at each place of R59's table. -/
theorem mixerOperations : Obligations.MixerOperations := by
  intro k0 k1 x p
  obtain ⟨w0, w1, w2⟩ := (ksInit k0 k1).word_mod 0
  obtain ⟨w3, w4, w5⟩ := (ksInit k0 k1).word_mod 1
  obtain ⟨w6, -, -⟩ := (ksInit k0 k1).word_mod 2
  refine ⟨ksInit_eq k0 k1, ?_, ?_, ?_, ?_, ?_, ?_, fun d _ => ?_⟩
  · rw [inject_eq, w0, w1, ksInit_eq]
  · rw [inject_eq, w1, w2, ksInit_eq]
  · rw [inject_eq, w2, w3, ksInit_eq]
  · rw [inject_eq, w3, w4, ksInit_eq]
  · rw [inject_eq, w4, w5, ksInit_eq]
  · rw [inject_eq, w5, w6, ksInit_eq]
  · rw [round_eq, rotAmount_eq]

/-! ## The unrolled list (40_mixer.md R61, R62) -/

/-- A turn of MIX's loop that is not the last of its four is the round alone. -/
theorem mixRound_of_ne (k : KeySchedule) (x : MixWords) {d : Nat} (h : d % 4 ≠ 3) : mixRound k x d = round d x :=
  if_neg h

/-- The last of four turns ends with the next injection. -/
theorem mixRound_last (k : KeySchedule) (x : MixWords) (n : Nat) :
    mixRound k x (4 * n + 3) = inject k (n + 1) (round (4 * n + 3) x) := by
  have hnext : (4 * n + 3 + 1) / 4 = n + 1 := by omega
  rw [← hnext]
  exact if_pos (Nat.mul_add_mod 4 n 3)

/-- Four turns of MIX's loop from a multiple of four on: their rounds, and the injection that follows them. -/
theorem foldl_mixRound_four (k : KeySchedule) (n : Nat) (x : MixWords) :
    (List.range' (4 * n) 4).foldl (mixRound k) x =
      inject k (n + 1) (round (4 * n + 3) (round (4 * n + 2) (round (4 * n + 1) (round (4 * n) x)))) := by
  change mixRound k (mixRound k (mixRound k (mixRound k x (4 * n)) (4 * n + 1)) (4 * n + 2)) (4 * n + 3) = _
  rw [mixRound_last, mixRound_of_ne k _ (by omega), mixRound_of_ne k _ (by omega), mixRound_of_ne k _ (by omega)]

/-- The twenty turns of MIX's loop, in fours. -/
theorem range_rounds : List.range Config.rounds =
    List.range' (4 * 0) 4 ++ List.range' (4 * 1) 4 ++ List.range' (4 * 2) 4 ++ List.range' (4 * 3) 4 ++
      List.range' (4 * 4) 4 := rfl

/-- Settles O22: the loop in fours, with the table's entry for the amount of each round. -/
theorem mixUnrolled : Obligations.MixUnrolled := by
  intro k0 k1 c0 c1
  rw [mix, range_rounds]
  simp only [List.foldl_append, foldl_mixRound_four]
  rfl

/-! ## The inverses (40_mixer.md R63) -/

/-- A rotation to the right undoes the one to the left. -/
theorem rotateRight_rotateLeft {w : Nat} (v : BitVec w) (n : Nat) : (v.rotateLeft n).rotateRight n = v := by
  ext i hi
  rw [BitVec.getElem_rotateRight]
  split
  · have hlow : ¬n % w + i < n % w := by omega
    simp [BitVec.getElem_rotateLeft, hlow]
  · have hhigh : i - (w - n % w) < n % w := by omega
    have hi' : w - n % w + (i - (w - n % w)) = i := by omega
    simp [BitVec.getElem_rotateLeft, hhigh, hi']

/-- The inverse of INJECT(s): it subtracts what INJECT(s) added. -/
theorem inject_inverse (k : KeySchedule) (s : Nat) (x : MixWords) :
    x = ⟨(inject k s x).x0 - k.word s, (inject k s x).x1 - k.word (s + 1) - BitVec.ofNat 64 s⟩ := by
  rw [inject_eq, BitVec.add_assoc, BitVec.sub_sub]
  simp only [BitVec.add_sub_cancel]

/-- ROUND(d) leaves the rotated word of X1 as the xor of its two words. -/
theorem round_xor (d : Nat) (x : MixWords) :
    (round d x).x1 ^^^ (round d x).x0 = x.x1.rotateLeft (rotAmount d) := by
  rw [round_eq, BitVec.xor_assoc, BitVec.xor_self, BitVec.xor_zero]

/-- The inverse of ROUND(d): it takes X1 out of the xor, then X1 from X0. -/
theorem round_inverse (d : Nat) (x : MixWords) :
    x = ⟨(round d x).x0 - ((round d x).x1 ^^^ (round d x).x0).rotateRight (rotAmount d),
      ((round d x).x1 ^^^ (round d x).x0).rotateRight (rotAmount d)⟩ := by
  rw [round_xor, rotateRight_rotateLeft, round_eq, BitVec.add_sub_cancel]

theorem inject_injective (k : KeySchedule) (s : Nat) : Function.Injective (inject k s) := by
  intro x y h
  rw [inject_inverse k s x, h, ← inject_inverse k s y]

theorem round_injective (d : Nat) : Function.Injective (round d) := by
  intro x y h
  rw [round_inverse d x, h, ← round_inverse d y]

theorem mixRound_injective (k : KeySchedule) (d : Nat) : Function.Injective fun x => mixRound k x d := by
  unfold mixRound
  split
  · exact (inject_injective k _).comp (round_injective d)
  · exact round_injective d

theorem foldl_mixRound_injective (k : KeySchedule) (ds : List Nat) :
    Function.Injective fun x => ds.foldl (mixRound k) x := by
  induction ds with
  | nil => exact Function.injective_id
  | cons d ds ih => exact ih.comp (mixRound_injective k d)

@[ext] theorem MixWords.ext {x y : MixWords} (h0 : x.x0 = y.x0) (h1 : x.x1 = y.x1) : x = y :=
  congrArg₂ MixWords.mk h0 h1

/-- For each key MIX takes distinct counters to distinct blocks. -/
theorem mix_injective (k0 k1 : W64) : Function.Injective fun c : W64 × W64 => mix k0 k1 c.1 c.2 := by
  intro c d h
  obtain ⟨h0, h1⟩ := Prod.mk.inj h
  have hwords := foldl_mixRound_injective (ksInit k0 k1) (List.range Config.rounds) (MixWords.ext h0 h1)
  obtain ⟨hc0, hc1⟩ := MixWords.mk.inj (inject_injective (ksInit k0 k1) 0 hwords)
  exact Prod.ext hc0 hc1

/-- Settles O23: the steps' inverses make MIX injective, and so, on finitely many counters, a bijection. -/
theorem mixIsBijective : Obligations.MixIsBijective :=
  ⟨fun k0 k1 => Finite.injective_iff_bijective.mp (mix_injective k0 k1), inject_inverse, round_inverse⟩

end Sys2Proof.Machine
end

section
/-! PROOF. The two converters and the uniform transforms (41_distributions.md R70 to R80): the fields of a pattern put
together from sign, exponent and fraction, and the number that a left-justified integer gives. -/

namespace Sys2Proof.Machine

/-- Settles O24: each arm of the selection is the transform the rule names. -/
theorem transformSelection : Obligations.TransformSelection := fun _ _ => ⟨rfl, rfl, rfl, rfl⟩

/-! ## Patterns from their fields (41_distributions.md R72) -/

/-- The exponent and fraction fields side by side are a magnitude pattern. -/
theorem binary64_eq_sign_mag (sgn : Bool) (e f : Nat) (hf : f < 2 ^ 52) :
    binary64 sgn e f = BitVec.ofBool sgn ++ BitVec.ofNat 63 (e * 2 ^ 52 + f) := by
  have hmag : (BitVec.ofNat 11 e ++ BitVec.ofNat 52 f : BitVec 63) = BitVec.ofNat 63 (e * 2 ^ 52 + f) := by
    apply BitVec.eq_of_toNat_eq
    simp only [BitVec.toNat_append, BitVec.toNat_ofNat, Nat.mod_eq_of_lt hf]
    rw [← Nat.shiftLeft_add_eq_or_of_lt hf, Nat.shiftLeft_eq]
    omega
  unfold binary64
  rw [hmag]

theorem binary64_fields (sgn : Bool) (e f : Nat) (he : e < 2 ^ 11) (hf : f < 2 ^ 52) :
    f64Sign (binary64 sgn e f) = sgn ∧ f64Exponent (binary64 sgn e f) = e ∧ f64Fraction (binary64 sgn e f) = f := by
  obtain ⟨hsgn, hexp, hfrac⟩ := f64_fields sgn (e * 2 ^ 52 + f) (by omega)
  rw [binary64_eq_sign_mag sgn e f hf]
  exact ⟨hsgn, by omega, by omega⟩

@[simp] theorem f64_zero : f64 0#64 = 0 := by decide

/-! ## Left-justified integers (41_distributions.md R76, R79) -/

theorem fractionOf_lt (m : Nat) : fractionOf m < 2 ^ 52 := Nat.mod_lt _ (by positivity)

theorem log2_le_of_lt {m : Nat} (hm : m ≠ 0) (hlt : m < 2 ^ 53) : Nat.log2 m ≤ 52 :=
  Nat.lt_succ_iff.mp ((Nat.log2_lt hm).mpr hlt)

/-- With the leading one that the pattern leaves out, the fraction is the integer shifted up to 53 bits. -/
theorem implicitOne_add_fractionOf {m : Nat} (hm : m ≠ 0) (hlt : m < 2 ^ 53) :
    2 ^ 52 + fractionOf m = m * 2 ^ (52 - Nat.log2 m) := by
  have hlog := log2_le_of_lt hm hlt
  have hlow : 2 ^ 52 ≤ m * 2 ^ (52 - Nat.log2 m) := by
    calc 2 ^ 52 = 2 ^ Nat.log2 m * 2 ^ (52 - Nat.log2 m) := by rw [← pow_add]; congr 1; omega
      _ ≤ m * 2 ^ (52 - Nat.log2 m) := Nat.mul_le_mul_right _ (Nat.log2_self_le hm)
  have hhigh : m * 2 ^ (52 - Nat.log2 m) < 2 ^ 53 := by
    calc m * 2 ^ (52 - Nat.log2 m) < 2 ^ (Nat.log2 m + 1) * 2 ^ (52 - Nat.log2 m) :=
          Nat.mul_lt_mul_of_pos_right Nat.lt_log2_self (by positivity)
      _ = 2 ^ 53 := by rw [← pow_add]; congr 1; omega
  unfold fractionOf
  omega

/-- The number such a pattern denotes: the integer, scaled by the exponent's bias. -/
theorem f64_binary64_fractionOf (sgn : Bool) {m : Nat} (hm : m ≠ 0) (hlt : m < 2 ^ 53) (b : Nat) (hb : 1 ≤ b)
    (hb' : b < 1024) :
    f64 (binary64 sgn (Nat.log2 m + b) (fractionOf m)) = (if sgn then -1 else 1) * (m : ℚ) * 2 ^ ((b : ℤ) - 1023) := by
  have hlog := log2_le_of_lt hm hlt
  obtain ⟨hsgn, hexp, hfrac⟩ := binary64_fields sgn (Nat.log2 m + b) (fractionOf m) (by omega) (fractionOf_lt m)
  have hone : (1 : ℚ) + fractionOf m / 2 ^ 52 = m / 2 ^ Nat.log2 m := by
    have hsum : (2 : ℚ) ^ 52 + fractionOf m = m * 2 ^ (52 - Nat.log2 m) := by
      exact_mod_cast implicitOne_add_fractionOf hm hlt
    have hpow : (2 : ℚ) ^ 52 = 2 ^ Nat.log2 m * 2 ^ (52 - Nat.log2 m) := by rw [← pow_add]; congr 1; omega
    rw [eq_div_iff (by positivity), one_add_div (by positivity), hsum, hpow]
    field_simp
  have hexpn : ((Nat.log2 m + b : ℕ) : ℤ) - 1023 = (Nat.log2 m : ℤ) + ((b : ℤ) - 1023) := by push_cast; ring
  unfold f64
  rw [hsgn, hexp, hfrac, if_neg (by omega), hone, hexpn, zpow_add₀ two_ne_zero, zpow_natCast]
  field_simp

/-! ## The converters (41_distributions.md R76, R79) -/

theorem u53ToF64_zero : u53ToF64 0#53 = 0#64 := rfl

theorem u53ToF64_of_ne {k : BitVec 53} (h : k ≠ 0#53) :
    u53ToF64 k = binary64 false (Nat.log2 k.toNat + 970) (fractionOf k.toNat) := if_neg h

theorem s53ToF64_zero : s53ToF64 0#53 = 0#64 := rfl

theorem s53ToF64_of_ne {t : BitVec 53} (h : t ≠ 0#53) :
    s53ToF64 t = binary64 (decide (t.toInt < 0)) (Nat.log2 t.toInt.natAbs + 971) (fractionOf t.toInt.natAbs) := if_neg h

theorem toNat_ne_zero_of_ne {k : BitVec 53} (h : k ≠ 0#53) : k.toNat ≠ 0 := fun h0 => h (BitVec.eq_of_toNat_eq h0)

theorem natAbs_toInt_ne_zero_of_ne {t : BitVec 53} (h : t ≠ 0#53) : t.toInt.natAbs ≠ 0 := fun h0 =>
  h (BitVec.eq_of_toInt_eq (Int.natAbs_eq_zero.mp h0))

/-- A 53-bit word read as signed is from -2^52 on and below 2^52. -/
theorem toInt_range (t : BitVec 53) : -2 ^ 52 ≤ t.toInt ∧ t.toInt < 2 ^ 52 :=
  ⟨BitVec.le_toInt t, BitVec.toInt_lt⟩

theorem natAbs_toInt_lt (t : BitVec 53) : t.toInt.natAbs < 2 ^ 53 := by
  obtain ⟨hlow, hhigh⟩ := toInt_range t
  omega

theorem sign_mul_natAbs (i : ℤ) : (if decide (i < 0) = true then -1 else 1) * (i.natAbs : ℚ) = i := by
  rw [Nat.cast_natAbs]
  rcases lt_or_ge i 0 with h | h
  · simp [h, abs_of_neg h]
  · simp [h, abs_of_nonneg h]

theorem f64_u53ToF64 (k : BitVec 53) : f64 (u53ToF64 k) = (k.toNat : ℚ) / 2 ^ 53 := by
  by_cases h : k = 0#53
  · subst h
    simp [u53ToF64_zero]
  · rw [u53ToF64_of_ne h, f64_binary64_fractionOf false (toNat_ne_zero_of_ne h) k.isLt 970 (by norm_num) (by norm_num)]
    norm_num
    ring

theorem f64_s53ToF64 (t : BitVec 53) : f64 (s53ToF64 t) = (t.toInt : ℚ) / 2 ^ 52 := by
  by_cases h : t = 0#53
  · subst h
    simp [s53ToF64_zero]
  · rw [s53ToF64_of_ne h, f64_binary64_fractionOf _ (natAbs_toInt_ne_zero_of_ne h) (natAbs_toInt_lt t) 971 (by norm_num)
      (by norm_num), sign_mul_natAbs]
    norm_num
    ring

theorem u53ToF64_fields {k : BitVec 53} (h : k ≠ 0#53) :
    f64Sign (u53ToF64 k) = false ∧ f64Exponent (u53ToF64 k) = Nat.log2 k.toNat + 970 ∧
      f64Fraction (u53ToF64 k) = fractionOf k.toNat := by
  have hlog := log2_le_of_lt (toNat_ne_zero_of_ne h) k.isLt
  rw [u53ToF64_of_ne h]
  exact binary64_fields _ _ _ (by omega) (fractionOf_lt _)

theorem s53ToF64_fields {t : BitVec 53} (h : t ≠ 0#53) :
    f64Sign (s53ToF64 t) = decide (t.toInt < 0) ∧ f64Exponent (s53ToF64 t) = Nat.log2 t.toInt.natAbs + 971 ∧
      f64Fraction (s53ToF64 t) = fractionOf t.toInt.natAbs := by
  have hlog := log2_le_of_lt (natAbs_toInt_ne_zero_of_ne h) (natAbs_toInt_lt t)
  rw [s53ToF64_of_ne h]
  exact binary64_fields _ _ _ (by omega) (fractionOf_lt _)

/-- Settles O25, by the value of a left-justified integer and the fields it is put together from. -/
theorem convertersAreExact : Obligations.ConvertersAreExact :=
  ⟨fun k => ⟨f64_u53ToF64 k, fun h => h ▸ u53ToF64_zero, u53ToF64_fields⟩,
    fun t => ⟨f64_s53ToF64 t, fun h => h ▸ s53ToF64_zero, s53ToF64_fields⟩⟩

/-- U53_TO_F64 gives a normal number or +0.0 (41_distributions.md R88). -/
theorem u53ToF64_isNormalOrZero (k : BitVec 53) : IsNormalOrZero (u53ToF64 k) := by
  by_cases h : k = 0#53
  · exact .inl (h ▸ u53ToF64_zero)
  · obtain ⟨-, hexp, -⟩ := u53ToF64_fields h
    have hlog := log2_le_of_lt (toNat_ne_zero_of_ne h) k.isLt
    exact .inr (by omega)

/-- S53_TO_F64 gives a normal number or +0.0 (41_distributions.md R88). -/
theorem s53ToF64_isNormalOrZero (t : BitVec 53) : IsNormalOrZero (s53ToF64 t) := by
  by_cases h : t = 0#53
  · exact .inl (h ▸ s53ToF64_zero)
  · obtain ⟨-, hexp, -⟩ := s53ToF64_fields h
    have hlog := log2_le_of_lt (natAbs_toInt_ne_zero_of_ne h) (natAbs_toInt_lt t)
    exact .inr (by omega)

/-! ## The uniform transforms (41_distributions.md R73, R75, R77, R78, R80) -/

theorem toNat_top53 (x : W64) : (top53 x).toNat = x.toNat / 2 ^ 11 := by
  unfold top53
  rw [BitVec.extractLsb'_toNat, Nat.shiftRight_eq_div_pow]
  omega

theorem msb_top53 (x : W64) : (top53 x).msb = x.getLsbD 63 := by
  simp [top53, BitVec.msb_eq_getLsbD_last]

theorem f64_asUniform01 (x : W64) : f64 (asUniform01 x) = ((x.toNat / 2 ^ 11 : ℕ) : ℚ) / 2 ^ 53 := by
  rw [asUniform01, f64_u53ToF64, toNat_top53]

theorem f64Sign_asUniform01 (x : W64) : f64Sign (asUniform01 x) = false := by
  unfold asUniform01
  by_cases h : top53 x = 0#53
  · rw [h]
    decide
  · exact (u53ToF64_fields h).1

/-- Settles O26: the value is the word's top 53 bits, and 2048 words share those. -/
theorem uniform01Range : Obligations.Uniform01Range := by
  refine ⟨fun x => ⟨f64_asUniform01 x, ?_, ?_, f64Sign_asUniform01 x⟩, fun j x _ => ?_⟩
  · rw [f64_asUniform01]
    positivity
  · have htop : x.toNat / 2 ^ 11 < 2 ^ 53 := by omega
    rw [f64_asUniform01, div_lt_one (by positivity)]
    exact_mod_cast htop
  · rw [f64_asUniform01, div_left_inj' (by positivity), Nat.cast_inj]
    omega

theorem f64_asUniform11 (x : W64) : f64 (asUniform11 x) = ((top53 x).toInt : ℚ) / 2 ^ 52 := f64_s53ToF64 _

theorem asUniform11_range (x : W64) : -1 ≤ f64 (asUniform11 x) ∧ f64 (asUniform11 x) ≤ 1 - 1 / 2 ^ 52 := by
  obtain ⟨hlow, hhigh⟩ := toInt_range (top53 x)
  have hlow' : (-2 ^ 52 : ℚ) ≤ (top53 x).toInt := by exact_mod_cast hlow
  have hhigh' : ((top53 x).toInt : ℚ) + 1 ≤ 2 ^ 52 := by exact_mod_cast hhigh
  rw [f64_asUniform11, le_div_iff₀ (by positivity), div_le_iff₀ (by positivity)]
  constructor <;> linarith

/-- The pattern of -0.0 is none of a normal number or of +0.0. -/
theorem asUniform11_ne_negZero (x : W64) : asUniform11 x ≠ 0x8000000000000000#64 := by
  intro h
  have hpattern : IsNormalOrZero (asUniform11 x) := s53ToF64_isNormalOrZero _
  rw [h] at hpattern
  revert hpattern
  unfold IsNormalOrZero
  decide

theorem f64_asUniform11_eq (x : W64) :
    f64 (asUniform11 x) = 2 * f64 (asUniform01 x) - (if x.getLsbD 63 then 2 else 0) := by
  have hval : f64 (asUniform01 x) = ((top53 x).toNat : ℚ) / 2 ^ 53 := f64_u53ToF64 _
  rw [f64_asUniform11, hval, BitVec.toInt_eq_msb_cond, msb_top53]
  split
  · push_cast
    ring
  · push_cast
    ring

/-- Each signed value is that of some word: the 53 bits, with eleven more below. -/
theorem exists_f64_asUniform11 (j : ℤ) (hlow : -2 ^ 52 ≤ j) (hhigh : j < 2 ^ 52) :
    ∃ x : W64, f64 (asUniform11 x) = (j : ℚ) / 2 ^ 52 := by
  have htop : top53 (BitVec.ofInt 53 j ++ 0#11) = BitVec.ofInt 53 j := by
    unfold top53
    exact BitVec.extractLsb'_append_eq_left
  refine ⟨BitVec.ofInt 53 j ++ 0#11, ?_⟩
  rw [f64_asUniform11, htop, BitVec.toInt_ofInt_eq_self (by norm_num) hlow hhigh]

/-- Settles O27: the value is the top 53 bits read as signed; bit 63 is their sign. -/
theorem uniform11Range : Obligations.Uniform11Range := by
  refine ⟨fun x => ?_, by decide, exists_f64_asUniform11⟩
  obtain ⟨hlow, hhigh⟩ := asUniform11_range x
  exact ⟨f64_asUniform11 x, hlow, hhigh, asUniform11_ne_negZero x, f64_asUniform11_eq x⟩

end Sys2Proof.Machine
end

section
/-! PROOF. The normal transform (41_distributions.md R81 to R88): where Z is zero and its bounds, and from the two patterns
that enclose |Z| that the results of NORMAL_FN are exactly those its contract allows. -/

namespace Sys2Proof.Machine

/-! ## The ideal value: zeros and sign (41_distributions.md R83, R84) -/

theorem idealZ_eq_zero_iff (ka kb : BitVec 53) : idealZ ka kb = 0 ↔ idealIsZero ka kb = true := by
  refine ⟨fun hz => ?_, idealZ_of_isZero ka kb⟩
  by_contra h
  exact idealZ_ne_zero ka kb (Bool.eq_false_of_not_eq_true h) hz

theorem idealIsZero_of_ne {ka kb : BitVec 53} (h : idealZ ka kb ≠ 0) : idealIsZero ka kb = false :=
  Bool.eq_false_of_not_eq_true fun hz => h (idealZ_of_isZero ka kb hz)

theorem idealIsZero_iff (ka kb : BitVec 53) :
    idealIsZero ka kb = true ↔ ka.toNat = 2 ^ 53 - 1 ∨ kb.toNat = 2 ^ 51 ∨ kb.toNat = 3 * 2 ^ 51 := by
  simp [idealIsZero, or_assoc]

theorem idealIsNegative_iff (kb : BitVec 53) : idealIsNegative kb = true ↔ 2 ^ 51 < kb.toNat ∧ kb.toNat < 3 * 2 ^ 51 := by
  simp [idealIsNegative]

theorem neg_two_mul_log_nonneg (ka : BitVec 53) : 0 ≤ -2 * Real.log (((ka.toNat : ℝ) + 1) / 2 ^ 53) := by
  have hle : (ka.toNat : ℝ) + 1 ≤ 2 ^ 53 := by exact_mod_cast ka.isLt
  have := Real.log_nonpos (by positivity) ((div_le_one (by positivity)).mpr hle)
  linarith

theorem zero_le_sin_quarterDistance (kb : BitVec 53) : 0 ≤ Real.sin (Real.pi * quarterDistance kb.toNat / 2 ^ 52) := by
  obtain ⟨hlow, hhigh⟩ := sin_quarterDistance_nonneg kb.toNat kb.isLt
  exact Real.sin_nonneg_of_nonneg_of_le_pi hlow (hhigh.trans (half_le_self Real.pi_pos.le))

theorem abs_neg_one_or_one (p : Prop) [Decidable p] : |(if p then -1 else 1 : ℝ)| = 1 := by split_ifs <;> simp

/-- |Z|, with the cosine as a sine of the distance from a quarter. -/
theorem abs_idealZ (ka kb : BitVec 53) :
    |idealZ ka kb| = Real.sqrt (-2 * Real.log (((ka.toNat : ℝ) + 1) / 2 ^ 53)) *
      Real.sin (Real.pi * quarterDistance kb.toNat / 2 ^ 52) := by
  rw [idealZ, cos_eq_sin_quarterDistance kb.toNat kb.isLt, abs_mul, abs_mul, abs_neg_one_or_one, one_mul,
    abs_of_nonneg (Real.sqrt_nonneg _), abs_of_nonneg (zero_le_sin_quarterDistance kb)]

/-- The machine's sign bit is the sign of Z. -/
theorem idealZ_eq_sign_mul_abs (ka kb : BitVec 53) :
    idealZ ka kb = (if idealIsNegative kb then -1 else 1) * |idealZ ka kb| := by
  rw [abs_idealZ, idealZ, cos_eq_sin_quarterDistance kb.toNat kb.isLt]
  simp only [idealIsNegative_iff]
  ring

theorem idealZ_neg_iff {ka kb : BitVec 53} (h : idealZ ka kb ≠ 0) : idealZ ka kb < 0 ↔ idealIsNegative kb = true := by
  have hpos := abs_pos.mpr h
  rw [idealZ_eq_sign_mul_abs ka kb]
  cases idealIsNegative kb
  · simp
  · simpa using h

/-! ## The bounds of |Z| (41_distributions.md R85) -/

/-- The first factor of Z is largest at ka = 0, where ua = 2^-53. -/
theorem neg_two_mul_log_le (ka : BitVec 53) :
    -2 * Real.log (((ka.toNat : ℝ) + 1) / 2 ^ 53) ≤ 106 * Real.log 2 := by
  have hlog : -2 * Real.log (((ka.toNat : ℝ) + 1) / 2 ^ 53) = 106 * Real.log 2 - 2 * Real.log ((ka.toNat : ℝ) + 1) := by
    rw [Real.log_div (by positivity) (by positivity), Real.log_pow]
    push_cast
    ring
  have hnonneg : 0 ≤ Real.log ((ka.toNat : ℝ) + 1) := Real.log_nonneg (by simp)
  linarith

theorem neg_two_mul_log_zero : -2 * Real.log ((((0#53).toNat : ℝ) + 1) / 2 ^ 53) = 106 * Real.log 2 := by
  rw [Real.log_div (by positivity) (by positivity), Real.log_pow]
  norm_num
  ring

theorem abs_idealZ_le (ka kb : BitVec 53) : |idealZ ka kb| ≤ Real.sqrt (106 * Real.log 2) := by
  rw [abs_idealZ]
  calc _ ≤ Real.sqrt (106 * Real.log 2) * 1 :=
        mul_le_mul (Real.sqrt_le_sqrt (neg_two_mul_log_le ka)) (Real.sin_le_one _) (zero_le_sin_quarterDistance kb)
          (Real.sqrt_nonneg _)
    _ = Real.sqrt (106 * Real.log 2) := mul_one _

/-- Where Z is not zero, ka is at most 2^53 - 2 and kb at least one step from a quarter. -/
theorem le_abs_idealZ {ka kb : BitVec 53} (h : idealZ ka kb ≠ 0) :
    Real.sqrt (-2 * Real.log (1 - 1 / 2 ^ 53)) * Real.sin (2 * Real.pi / 2 ^ 53) ≤ |idealZ ka kb| := by
  obtain ⟨hka, hone, hthree⟩ := (idealIsZero_eq_false ka kb).mp (idealIsZero_of_ne h)
  have hua : ((ka.toNat : ℝ) + 1) / 2 ^ 53 ≤ 1 - 1 / 2 ^ 53 := by
    have hle : (ka.toNat : ℝ) + 1 + 1 ≤ 2 ^ 53 := by
      have : ka.toNat + 1 + 1 ≤ 2 ^ 53 := by omega
      exact_mod_cast this
    rw [div_le_iff₀ (by positivity)]
    linarith
  have hlog := Real.log_le_log (by positivity) hua
  obtain ⟨-, hangle⟩ := sin_quarterDistance_nonneg kb.toNat kb.isLt
  have hd : (1 : ℝ) ≤ quarterDistance kb.toNat := by exact_mod_cast quarterDistance_pos kb.toNat hone hthree
  have hstep : 2 * Real.pi / 2 ^ 53 ≤ Real.pi * quarterDistance kb.toNat / 2 ^ 52 := by
    have := Real.pi_pos
    rw [div_le_div_iff₀ (by positivity) (by positivity)]
    nlinarith
  have hsin := Real.sin_le_sin_of_le_of_le_pi_div_two (by linarith [Real.pi_pos, show 0 < 2 * Real.pi / 2 ^ 53 by positivity])
    hangle hstep
  rw [abs_idealZ]
  exact mul_le_mul (Real.sqrt_le_sqrt (by linarith)) hsin
    (Real.sin_nonneg_of_nonneg_of_le_pi (by positivity) (by linarith [Real.pi_pos])) (Real.sqrt_nonneg _)

theorem idealZ_zero_zero : idealZ 0#53 0#53 = Real.sqrt (106 * Real.log 2) := by
  rw [idealZ, neg_two_mul_log_zero]
  simp

theorem idealZ_zero_half : idealZ 0#53 4503599627370496#53 = -Real.sqrt (106 * Real.log 2) := by
  have hangle : 2 * Real.pi * (((4503599627370496#53).toNat : ℝ) / 2 ^ 53) = Real.pi := by
    norm_num
    ring
  rw [idealZ, neg_two_mul_log_zero, hangle, Real.cos_pi, mul_neg_one]

/-- Settles O29: each factor of |Z| is monotone, with its extremes at the ends of its input's range. -/
theorem idealValueBounds : Obligations.IdealValueBounds :=
  ⟨fun ka kb => ⟨abs_idealZ_le ka kb, le_abs_idealZ⟩, idealZ_zero_zero, idealZ_zero_half⟩

/-! ## What NORMAL_FN answers, at any precision and direction (41_distributions.md R86) -/

theorem normalCandidate_of_zero (n : Nat) (up : Bool) {ka kb : BitVec 53} (h : idealZ ka kb = 0) :
    normalCandidate n up ka kb = 0#64 :=
  if_pos ((idealZ_eq_zero_iff ka kb).mp h)

theorem normalFn_of_zero {ka kb : BitVec 53} (h : idealZ ka kb = 0) : normalFn ka kb = 0#64 :=
  normalCandidate_of_zero _ _ h

/-- Settles O28: the machine's test for zero is Z's own. -/
theorem normalZeroCases : Obligations.NormalZeroCases := fun ka kb =>
  ⟨(idealZ_eq_zero_iff ka kb).trans (idealIsZero_iff ka kb), normalFn_of_zero⟩

theorem normalCandidate_isFaithful (n : Nat) (up : Bool) {ka kb : BitVec 53} (h : idealZ ka kb ≠ 0) :
    f64Exponent (normalCandidate n up ka kb) ≠ 2047 ∧ IsFaithful (normalCandidate n up ka kb) (idealZ ka kb) := by
  have hne := idealIsZero_of_ne h
  obtain ⟨hlow, hhigh⟩ := normalMagnitude_range n up ka kb hne
  rw [normalCandidate_of_ne n up ka kb hne]
  exact faithful_of_pattern _ _ _ (by omega) (by omega) h (idealZ_eq_sign_mul_abs ka kb)
    (normalMagnitude_cases n up ka kb hne)

/-- Settles O59: +0.0 where Z is zero, and elsewhere a pattern next to |Z| with the sign of Z. -/
theorem normalMeetsContract : Obligations.NormalMeetsContract := by
  intro ka kb
  by_cases h : idealZ ka kb = 0
  · rw [normalFn_of_zero h]
    exact ⟨by decide, fun _ => rfl, fun hne => absurd h hne⟩
  · obtain ⟨hfinite, hfaithful⟩ := normalCandidate_isFaithful _ _ h
    exact ⟨hfinite, fun hz => absurd hz h, fun _ => hfaithful⟩

/-- Where Z is not zero, the exponent and sign fields of a candidate and the number it denotes. -/
theorem normalCandidate_fields (n : Nat) (up : Bool) {ka kb : BitVec 53} (h : idealZ ka kb ≠ 0) :
    1 ≤ f64Exponent (normalCandidate n up ka kb) ∧ f64Exponent (normalCandidate n up ka kb) ≤ 2046 ∧
      f64Sign (normalCandidate n up ka kb) = idealIsNegative kb ∧
      ((f64 (normalCandidate n up ka kb) : ℚ) : ℝ) =
        (if idealIsNegative kb then -1 else 1) * mag (normalMagnitude n up ka kb) := by
  have hne := idealIsZero_of_ne h
  obtain ⟨hlow, hhigh⟩ := normalMagnitude_range n up ka kb hne
  obtain ⟨hsgn, hexp, -⟩ := f64_fields (idealIsNegative kb) (normalMagnitude n up ka kb) (by omega)
  rw [normalCandidate_of_ne n up ka kb hne]
  exact ⟨by omega, by omega, hsgn, f64_of_sign_mag _ _ (by omega) (by omega)⟩

/-- Neighbouring magnitudes are within one part in 2^52. -/
theorem mag_succ_le (n : Nat) : mag (n + 1) ≤ mag n * (1 + 1 / 2 ^ 52) := by
  have hn : n / 2 ^ 52 * 2 ^ 52 + n % 2 ^ 52 = n := Nat.div_add_mod' n (2 ^ 52)
  have hf : n % 2 ^ 52 < 2 ^ 52 := Nat.mod_lt _ (by positivity)
  have hmag := mag_fields (n / 2 ^ 52) (n % 2 ^ 52) hf.le
  have hsucc := mag_fields (n / 2 ^ 52) (n % 2 ^ 52 + 1) hf
  rw [← Nat.add_assoc, hn] at hsucc
  rw [hn] at hmag
  rw [hmag, hsucc, mul_assoc]
  refine mul_le_mul_of_nonneg_left ?_ (by positivity)
  have hfrac : (0 : ℝ) ≤ ((n % 2 ^ 52 : ℕ) : ℝ) / 2 ^ 52 := by positivity
  rw [Nat.cast_succ, add_div]
  nlinarith

/-- The magnitude NORMAL_FN answers is within one part in 2^52 of |Z|. -/
theorem abs_mag_sub_le (n : Nat) (up : Bool) {ka kb : BitVec 53} (h : idealZ ka kb ≠ 0) :
    |mag (normalMagnitude n up ka kb) - (|idealZ ka kb|)| ≤ 1 / 2 ^ 52 * |idealZ ka kb| := by
  rcases normalMagnitude_cases n up ka kb (idealIsZero_of_ne h) with ⟨hlow, hhigh⟩ | heq | ⟨hhigh, p, hp, hlow⟩
  · have hsucc := mag_succ_le (normalMagnitude n up ka kb)
    rw [abs_of_neg (by linarith)]
    linarith
  · rw [heq, sub_self, abs_zero]
    positivity
  · have hsucc := mag_succ_le p
    rw [hp] at hhigh ⊢
    rw [abs_of_pos (by linarith)]
    linarith

/-- Settles O31: the result has the sign of Z, and its magnitude is a neighbour of |Z|. -/
theorem normalIsCloseToZ : Obligations.NormalIsCloseToZ := by
  intro ka kb
  by_cases h : idealZ ka kb = 0
  · simp [normalFn_of_zero h, h]
  · obtain ⟨-, -, -, hval⟩ := normalCandidate_fields (Config.normalPrecision ka kb) (Config.normalUp ka kb) h
    calc |((f64 (normalFn ka kb) : ℚ) : ℝ) - idealZ ka kb|
        = |(if idealIsNegative kb then -1 else 1 : ℝ) * (mag (normalMagnitude _ _ ka kb) - (|idealZ ka kb|))| := by
          rw [normalFn, hval, mul_sub, ← idealZ_eq_sign_mul_abs]
      _ = |mag (normalMagnitude _ _ ka kb) - (|idealZ ka kb|)| := by rw [abs_mul, abs_neg_one_or_one, one_mul]
      _ ≤ 1 / 2 ^ 52 * |idealZ ka kb| := abs_mag_sub_le _ _ h

/-- Settles O30, by the fields of the result and its distance from Z, which is below 8.572 in size. -/
theorem normalIsFiniteWithSignOfZ : Obligations.NormalIsFiniteWithSignOfZ := by
  intro ka kb h
  obtain ⟨hlow, hhigh, hsgn, -⟩ := normalCandidate_fields (Config.normalPrecision ka kb) (Config.normalUp ka kb) h
  refine ⟨hlow, hhigh, ?_, ?_⟩
  · rw [normalFn, hsgn, idealZ_neg_iff h]
  · have hclose := normalIsCloseToZ ka kb
    have hlt := abs_idealZ_lt ka kb
    have htriangle := abs_sub_abs_le_abs_sub ((f64 (normalFn ka kb) : ℚ) : ℝ) (idealZ ka kb)
    have hreal : |((f64 (normalFn ka kb) : ℚ) : ℝ)| < 858 / 100 := by linarith
    have hcast : ((858 / 100 : ℚ) : ℝ) = 858 / 100 := by norm_num
    rwa [← Rat.cast_abs, ← hcast, Rat.cast_lt] at hreal

/-- NORMAL_FN gives a normal number or +0.0 (41_distributions.md R88). -/
theorem normalFn_isNormalOrZero (ka kb : BitVec 53) : IsNormalOrZero (normalFn ka kb) := by
  by_cases h : idealZ ka kb = 0
  · exact .inl (normalFn_of_zero h)
  · obtain ⟨-, hfaithful⟩ := normalCandidate_isFaithful _ _ h
    exact hfaithful.1

/-- Settles O33, transform by transform. -/
theorem transformsGiveNormalOrZero : Obligations.TransformsGiveNormalOrZero := by
  intro i o0 o1 hi
  cases i with
  | distUint64 => exact absurd rfl hi
  | distUniform01 => exact u53ToF64_isNormalOrZero _
  | distUniform11 => exact s53ToF64_isNormalOrZero _
  | distNormal => exact normalFn_isNormalOrZero _ _

/-! ## Every function under the contract (41_distributions.md R86) -/

/-- A pattern is its sign bit and its magnitude, exponent over fraction. -/
theorem eq_sign_mag (b : W64) :
    b = BitVec.ofBool (f64Sign b) ++ BitVec.ofNat 63 (f64Exponent b * 2 ^ 52 + f64Fraction b) := by
  have hfrac : f64Fraction b < 2 ^ 52 := BitVec.isLt _
  rw [← binary64_eq_sign_mag _ _ _ hfrac]
  apply BitVec.eq_of_getLsbD_eq
  intro i hi
  simp only [binary64, f64Sign, f64Exponent, f64Fraction, BitVec.ofNat_toNat, BitVec.setWidth_eq, BitVec.getLsbD_append,
    BitVec.getLsbD_extractLsb', BitVec.getLsbD_ofBool]
  by_cases hfield : i < 52
  · simp [hfield, show i < 63 by omega]
  · by_cases hexp : i < 63
    · simp [hfield, hexp, show i - 52 < 11 by omega, show 52 + (i - 52) = i by omega]
    · simp [show i = 63 by omega]

theorem sign_mul_sign (sgn : Bool) : (if sgn then -1 else 1 : ℝ) * (if sgn then -1 else 1) = 1 := by
  cases sgn <;> simp

theorem sign_mul_sign_of_ne {sgn sgn' : Bool} (h : sgn ≠ sgn') :
    (if sgn then -1 else 1 : ℝ) * (if sgn' then -1 else 1) = -1 := by
  obtain rfl := Bool.eq_not_of_ne h
  cases sgn' <;> simp

/-- A number that binary64 has is the pattern of its sign and magnitude: no other pattern denotes it. -/
theorem eq_of_sign_mul_f64 {b : W64} (hb : IsNormalOrZero b) (sgn : Bool) (p : Nat)
    (h : (if sgn then -1 else 1) * ((f64 b : ℚ) : ℝ) = mag p) : b = BitVec.ofBool sgn ++ BitVec.ofNat 63 p := by
  have hp := mag_pos p
  rcases hb with rfl | ⟨hlow, hhigh⟩
  · exact absurd (by simpa using h) hp.ne
  · have hfrac : f64Fraction b < 2 ^ 52 := BitVec.isLt _
    have hpattern := eq_sign_mag b
    have hval := f64_of_sign_mag (f64Sign b) (f64Exponent b * 2 ^ 52 + f64Fraction b) (by omega) (by omega)
    have hpos := mag_pos (f64Exponent b * 2 ^ 52 + f64Fraction b)
    rw [← hpattern] at hval
    rw [hval, ← mul_assoc] at h
    rcases eq_or_ne sgn (f64Sign b) with rfl | hne
    · rw [sign_mul_sign, one_mul] at h
      rwa [mag_strictMono.injective h] at hpattern
    · rw [sign_mul_sign_of_ne hne, neg_one_mul] at h
      linarith

theorem isNormalOrZero_sign_mag (sgn : Bool) {p : Nat} (hlow : 2 ^ 52 ≤ p) (hhigh : p < 2047 * 2 ^ 52) :
    IsNormalOrZero (BitVec.ofBool sgn ++ BitVec.ofNat 63 p) := by
  obtain ⟨-, hexp, -⟩ := f64_fields sgn p (by omega)
  exact .inr (by omega)

theorem sign_mul_eq_abs {sgn : Bool} {z : ℝ} (hs : z = (if sgn then -1 else 1) * |z|) :
    (if sgn then -1 else 1) * z = |z| := by
  conv_lhs => rw [hs]
  rw [← mul_assoc, sign_mul_sign, one_mul]

theorem sign_mul_f64 (sgn : Bool) {p : Nat} (hlow : 2 ^ 52 ≤ p) (hhigh : p < 2047 * 2 ^ 52) :
    (if sgn then -1 else 1) * ((f64 (BitVec.ofBool sgn ++ BitVec.ofNat 63 p) : ℚ) : ℝ) = mag p := by
  rw [f64_of_sign_mag sgn p hlow (by omega), ← mul_assoc, sign_mul_sign, one_mul]

/-- Clause (d) of R86 seen from zero: a faithful rounding that is not `z` itself is next to it, on the near side or the far
side, whichever sign counts as positive. -/
theorem IsFaithful.near_or_far {b : W64} {z : ℝ} (hb : IsFaithful b z) (hne : ((f64 b : ℚ) : ℝ) ≠ z) (sgn : Bool) :
    let s : ℝ := if sgn then -1 else 1
    (s * ((f64 b : ℚ) : ℝ) < s * z ∧
        ∀ c, IsNormalOrZero c → s * ((f64 c : ℚ) : ℝ) < s * z → s * ((f64 c : ℚ) : ℝ) ≤ s * ((f64 b : ℚ) : ℝ)) ∨
      (s * z < s * ((f64 b : ℚ) : ℝ) ∧
        ∀ c, IsNormalOrZero c → s * z < s * ((f64 c : ℚ) : ℝ) → s * ((f64 b : ℚ) : ℝ) ≤ s * ((f64 c : ℚ) : ℝ)) := by
  have hsides := hb.2.resolve_left hne
  cases sgn
  · simpa using hsides.2
  · simpa using hsides.2.symm

/-- Of two neighbouring patterns that have |z| between them, a faithful rounding of `z` is one or the other. -/
theorem faithful_eq_of_between {b : W64} {z : ℝ} (hb : IsFaithful b z) (hz : z ≠ 0) (sgn : Bool)
    (hs : z = (if sgn then -1 else 1) * |z|) {q : Nat} (hlow : 2 ^ 52 ≤ q) (hhigh : q + 1 < 2047 * 2 ^ 52)
    (h1 : mag q < |z|) (h2 : |z| < mag (q + 1)) :
    b = BitVec.ofBool sgn ++ BitVec.ofNat 63 q ∨ b = BitVec.ofBool sgn ++ BitVec.ofNat 63 (q + 1) := by
  have habs := sign_mul_eq_abs hs
  obtain ⟨hnear, hfar⟩ := f64_le_of_between q z b hb.1 sgn hs h1 h2
  have hq := sign_mul_f64 sgn hlow (by omega)
  have hq1 := sign_mul_f64 sgn (p := q + 1) (by omega) hhigh
  rcases hb.near_or_far (f64_ne_of_between q z hz h1 h2 b hb.1) sgn with ⟨hlt, hmax⟩ | ⟨hlt, hmin⟩
  · have hge := hmax _ (isNormalOrZero_sign_mag sgn hlow (by omega)) (by rw [hq, habs]; exact h1)
    rw [hq] at hge
    exact .inl (eq_of_sign_mul_f64 hb.1 sgn q (le_antisymm (hnear hlt) hge))
  · have hle := hmin _ (isNormalOrZero_sign_mag sgn (by omega) hhigh) (by rw [hq1, habs]; exact h2)
    rw [hq1] at hle
    exact .inr (eq_of_sign_mul_f64 hb.1 sgn (q + 1) (le_antisymm hle (hfar hlt)))

theorem normalMagnitude_false {n q : Nat} {ka kb : BitVec 53} (hlow : normalLow n ka kb = q)
    (hhigh : normalHigh n ka kb = q + 1) : normalMagnitude n false ka kb = q := by
  rw [normalMagnitude, if_pos ⟨rfl, by omega⟩, hlow]

theorem normalMagnitude_true (n : Nat) (ka kb : BitVec 53) :
    normalMagnitude n true ka kb = normalLow n ka kb + 1 := by
  rw [normalMagnitude, if_neg (by simp)]

/-- Where |Z| lies between two neighbouring magnitudes, some precision finds them, and the direction picks either. -/
theorem exists_candidate_of_between {ka kb : BitVec 53} (h : idealZ ka kb ≠ 0) {b : W64}
    (hb : IsFaithful b (idealZ ka kb)) {q : Nat} (hlow : 2 ^ 52 ≤ q) (hhigh : q + 1 < 2047 * 2 ^ 52)
    (h1 : mag q < |idealZ ka kb|) (h2 : |idealZ ka kb| < mag (q + 1)) : ∃ n up, b = normalCandidate n up ka kb := by
  have hne := idealIsZero_of_ne h
  obtain ⟨n, hnlow, hnhigh⟩ := exists_precision q ka kb hne h1 h2
  rcases faithful_eq_of_between hb h _ (idealZ_eq_sign_mul_abs ka kb) hlow hhigh h1 h2 with heq | heq
  · exact ⟨n, false, by rw [heq, normalCandidate_of_ne n false ka kb hne, normalMagnitude_false hnlow hnhigh]⟩
  · exact ⟨n, true, by rw [heq, normalCandidate_of_ne n true ka kb hne, normalMagnitude_true, hnlow]⟩

/-- Where a candidate denotes Z itself, it is the one faithful rounding of Z. -/
theorem faithful_eq_candidate_of_mag_eq {n : Nat} {up : Bool} {ka kb : BitVec 53} (h : idealZ ka kb ≠ 0) {b : W64}
    (hb : IsFaithful b (idealZ ka kb)) (heq : mag (normalMagnitude n up ka kb) = |idealZ ka kb|) :
    b = normalCandidate n up ka kb := by
  obtain ⟨-, -, -, hval⟩ := normalCandidate_fields n up h
  rw [heq, ← idealZ_eq_sign_mul_abs] at hval
  obtain ⟨-, hcandidate⟩ := normalCandidate_isFaithful n up h
  have hbval : ((f64 b : ℚ) : ℝ) = idealZ ka kb :=
    hb.2.resolve_right fun hsides => hsides.1 _ hcandidate.1 hval
  rw [normalCandidate_of_ne n up ka kb (idealIsZero_of_ne h)]
  exact eq_of_sign_mul_f64 hb.1 _ _ (by rw [hbval, heq, sign_mul_eq_abs (idealZ_eq_sign_mul_abs ka kb)])

/-- Settles O32: |Z| is the magnitude of a pattern or lies between two neighbouring ones, and either way the free values
reach every faithful rounding. -/
theorem normalAdmitsEveryContract : Obligations.NormalAdmitsEveryContract := by
  intro f hf ka kb
  obtain ⟨-, hzero, hfaithful⟩ := hf ka kb
  by_cases h : idealZ ka kb = 0
  · exact ⟨0, false, by rw [hzero h, normalCandidate_of_zero 0 false h]⟩
  · have hb := hfaithful h
    have hne := idealIsZero_of_ne h
    obtain ⟨hlow, hhigh⟩ := normalMagnitude_range 0 false ka kb hne
    rcases normalMagnitude_cases 0 false ka kb hne with ⟨h1, h2⟩ | heq | ⟨h2, q, hq, h1⟩
    · exact exists_candidate_of_between h hb (by omega) (by omega) h1 h2
    · exact ⟨0, false, faithful_eq_candidate_of_mag_eq h hb heq⟩
    · exact exists_candidate_of_between h hb (by omega) (by omega) h1 (hq ▸ h2)

end Sys2Proof.Machine
end

section
/-! PROOF. The phases of a command (42_driver.md R93, R97, R98): which step runs a command, what its start, its element
step and its completion leave, what they leave alone, and that a BUSY driver always has one of them. -/

namespace Sys2Proof.Machine

/-! ## The turns that run a command (42_driver.md R93 (1), (2), R97) -/

/-- Settles O3: a word that decodes to a command is the command's encoding. -/
theorem stepRunsWrittenCommand : Obligations.StepRunsWrittenCommand := by
  intro s ts k c w i hinbox hc hbusy hdecode
  obtain rfl := (decode_eq_ok_iff w i).mp hdecode
  rw [step_of_turn s _ ts c hinbox hc, turnOutcome_commandWrite hbusy]

/-- Settles O4: the driver's turn runs the command in CMD. -/
theorem stepRunsScheduledDriver : Obligations.StepRunsScheduledDriver := by
  intro s ts k c i hinbox hc hbusy hdecode
  rw [step_of_turn s _ ts c hinbox hc, turnOutcome_drive hbusy hdecode]

/-- Settles O5: the turn nobody queued is the driver's of the one BUSY core. -/
theorem stepRunsLoneDriver : Obligations.StepRunsLoneDriver := by
  intro s k c i hinbox honly hc hdecode
  have hbusy : c.busy = true := (honly k c hc).mpr rfl
  have hlone := busyCores_of_onlyBusy s k honly ⟨c, hc, hbusy⟩
  rw [step_of_driver s k c hinbox hlone hc, turnOutcome_drive hbusy hdecode]

theorem turnOutcome_commandWrite_busy {c : CoreState} (hbusy : c.busy = true) (w : W64) (s : State) :
    turnOutcome (.wr 5#4 w) c s = .refused .writeWhileBusy := by
  have hfetch : fetchAction (.wr 5#4 w) c s = .done (.refused .writeWhileBusy) := by
    simp [fetchAction, commandWrite, hbusy]
  rw [turnOutcome, hfetch]

theorem turnOutcome_commandWrite_reserved {c : CoreState} (hbusy : c.busy = false) {w : W64}
    (hw : reservedField w ≠ 0#62) (s : State) : turnOutcome (.wr 5#4 w) c s = .refused .reservedCommand := by
  have hfetch : fetchAction (.wr 5#4 w) c s = .done (.refused .reservedCommand) := by
    simp [fetchAction, commandWrite, hbusy, (decode_eq_error_iff w).mpr hw]
  rw [turnOutcome, hfetch]

/-- A word that is not reserved is a command's (30_encoding.md R46, R48). -/
theorem exists_eq_encode {w : W64} (hw : reservedField w = 0#62) : ∃ i, w = encode i := by
  cases h : decode w with
  | ok i => exact ⟨i, (decode_eq_ok_iff w i).mp h⟩
  | error e => exact absurd hw ((decode_eq_error_iff w).mp h)

/-! ## The start (42_driver.md R93) -/

theorem exec_of_not_busy (i : Instr) {s : State} {c : CoreState} (hc : s.current? = some c) (hbusy : c.busy = false) :
    exec i s = startCommand (encode i) c s := by
  simp [exec_eq_runCommand, runCommand, hc, hbusy]

theorem CoreState.operandsHeld_eq_false (c : CoreState) :
    c.operandsHeld = false ↔
      ¬(c.size.held = true ∧ c.key0.held = true ∧ c.key1.held = true ∧ c.ctr0.held = true ∧ c.ctr1.held = true) := by
  simp [← Bool.not_eq_true, CoreState.operandsHeld, and_assoc]

/-- Settles O7: the turn checks (1) and (2), and the start of the command that the word decodes to the other three. -/
theorem commandWriteStartsOrRefuses : Obligations.CommandWriteStartsOrRefuses := by
  intro s ts k c w hinbox hc
  have hcurrent : ((s.withInbox ts).withSel k).current? = some c := hc
  rw [step_of_turn s _ ts c hinbox hc]
  by_cases hbusy : c.busy = true
  · rw [if_pos hbusy, turnOutcome_commandWrite_busy hbusy]
  · rw [if_neg hbusy]
    rw [Bool.not_eq_true] at hbusy
    by_cases hw : w.extractLsb' 2 62 = 0#62
    · obtain ⟨i, rfl⟩ := exists_eq_encode hw
      rw [if_neg (not_not.mpr hw), turnOutcome_commandWrite hbusy, exec_of_not_busy i hcurrent hbusy,
        startCommand]
      simp only [CoreState.operandsHeld_eq_false, CoreState.started, CoreState.flagStart]
      cases c.out <;> rfl
    · rw [if_pos hw, turnOutcome_commandWrite_reserved hbusy hw]

/-- No core is BUSY over a window that no other BUSY core's window overlaps. -/
theorem anyOtherCore_busyOver_eq_false {cores : List CoreState} {k : Nat} {w : Window}
    (h : ∀ (j : Nat) (d : CoreState) (v : Window), j ≠ k → cores[j]? = some d → d.busy = true → d.out = some v →
      v.overlaps w = false) : anyOtherCore cores k (CoreState.busyOver w) = false := by
  by_contra hany
  obtain ⟨j, d, hj, hd, hover⟩ := (anyOtherCore_eq_true _ _ _).mp (Bool.not_eq_false _ ▸ hany)
  obtain ⟨hbusy, v, hv, hvw⟩ := (d.busyOver_eq_true w).mp hover
  rw [h j d v hj hd hbusy hv] at hvw
  cases hvw

/-- Settles O8: the conditions are those of the shared start. -/
theorem commandStarts : Obligations.CommandStarts := by
  intro i s c w hc hbusy hheld hout hsize hfree
  rw [exec_eq_runCommand]
  exact runCommand_start i _ s c w hc hbusy hheld hout hsize (anyOtherCore_busyOver_eq_false hfree)

/-! ## The element step (42_driver.md R97, R101 to R104) -/

section
variable {i : Instr} {s : State} {c : CoreState}

/-- The element step of a command, at the address of element INDEX. -/
theorem exec_elementStep {a : Nat} (hc : s.current? = some c) (hbusy : c.busy = true) (hcmd : c.cmd.val = encode i)
    (hlt : c.index.toNat < c.size.val.toNat) (haddr : outAddress? c.out c.index.toNat = some a) :
    exec i s = .next ((s.withMem (s.mem.writeElement s.byteOrder a
      (transformOf i c.block.1 c.block.2))).setCurrent c.advanced) := by
  rw [exec_eq_runCommand]
  exact runCommand_element i _ s c a hc hbusy hcmd hlt haddr

/-- The element step of a command, INDEX inside the bound window. -/
theorem exec_elementStep_window {w : Window} (hc : s.current? = some c) (hbusy : c.busy = true)
    (hcmd : c.cmd.val = encode i) (hlt : c.index.toNat < c.size.val.toNat) (hout : c.out = some w)
    (hcap : c.index.toNat < w.cap.toNat) :
    exec i s = .next ((s.withMem (s.mem.writeElement s.byteOrder (w.address c.index.toNat)
      (transformOf i c.block.1 c.block.2))).setCurrent c.advanced) :=
  exec_elementStep hc hbusy hcmd hlt ((outAddress?_eq_some _ _ _).mpr ⟨w, hout, hcap, rfl⟩)

/-- The element that an element step leaves at its address. -/
theorem readElement?_of_elementStep {t : State} {a : Nat} (hc : s.current? = some c) (hbusy : c.busy = true)
    (hcmd : c.cmd.val = encode i) (hlt : c.index.toNat < c.size.val.toNat)
    (haddr : outAddress? c.out c.index.toNat = some a) (h : exec i s = .next t) :
    Memory.readElement? t.mem t.byteOrder a = some (transformOf i c.block.1 c.block.2) := by
  rw [exec_elementStep hc hbusy hcmd hlt haddr] at h
  obtain rfl := Host.Outcome.next.inj h
  exact Memory.readElement?_writeElement_self _ _ _ _

/-- CCTR = CTR1 + INDEX while a command runs (10_state.md R21). -/
theorem CoreState.Ok.cctr_eq (h : c.Ok) (hbusy : c.busy = true) : c.cctr = c.ctr1.val + c.index := by
  obtain ⟨-, -, -, hrun⟩ := h
  obtain ⟨-, -, hcctr, -⟩ := hrun hbusy
  exact hcctr

end

/-- Settles O9: the transform is the first word itself. -/
theorem uint64ElementStep : Obligations.Uint64ElementStep :=
  fun _ _ _ hc hbusy hcmd hlt hout hcap => exec_elementStep_window (i := .distUint64) hc hbusy hcmd hlt hout hcap

/-- Settles O10: the transform converts the first word's top 53 bits. -/
theorem uniform01ElementStep : Obligations.Uniform01ElementStep :=
  fun _ _ _ hc hbusy hcmd hlt hout hcap => exec_elementStep_window (i := .distUniform01) hc hbusy hcmd hlt hout hcap

/-- Settles O11: the transform converts the first word's top 53 bits, read as signed. -/
theorem uniform11ElementStep : Obligations.Uniform11ElementStep :=
  fun _ _ _ hc hbusy hcmd hlt hout hcap => exec_elementStep_window (i := .distUniform11) hc hbusy hcmd hlt hout hcap

/-- Settles O12: the transform takes the top 53 bits of both words to NORMAL_FN. -/
theorem normalElementStep : Obligations.NormalElementStep :=
  fun _ _ _ hc hbusy hcmd hlt hout hcap => exec_elementStep_window (i := .distNormal) hc hbusy hcmd hlt hout hcap

/-- Settles O20: with CCTR = CTR1 + INDEX both steps mix the same block. -/
theorem elementsAreAddressable : Obligations.ElementsAreAddressable := by
  intro i s s' t t' c c' a a' hc hc' hok hok' hbusy hbusy' hcmd hcmd' hkey0 hkey1 hctr0 hindex hctr1 hlt hlt' haddr
    haddr' hexec hexec'
  have hcctr : c'.cctr = c.cctr := by
    rw [hok'.cctr_eq hbusy', hok.cctr_eq hbusy, hindex, hctr1, BitVec.add_zero]
  have hblock : c'.block = c.block := by
    simp only [CoreState.block, hkey0, hkey1, hctr0, hcctr]
  rw [readElement?_of_elementStep hc hbusy hcmd hlt haddr hexec,
    readElement?_of_elementStep hc' hbusy' hcmd' hlt' (by rwa [hindex]) hexec', hblock]

/-! ## The completion (42_driver.md R98) -/

/-- Settles O13: it is the shared completion, whatever the transform. -/
theorem commandCompletes : Obligations.CommandCompletes := by
  intro i s c hc hbusy hcmd hend
  rw [exec_eq_runCommand]
  exact runCommand_complete i _ s c hc hbusy hcmd hend

/-! ## What a phase leaves unchanged (42_driver.md R108, R109) -/

/-- What a phase of command `i` at core `c` of `s` makes of that core and of the memory. -/
inductive PhaseChange (i : Instr) (s : State) (c : CoreState) : CoreState → Memory → Prop where
  /-- The start. -/
  | start (hbusy : c.busy = false) : PhaseChange i s c (c.started (encode i)) s.mem
  /-- An element step. -/
  | element (a : Nat) (v : W64) (hbusy : c.busy = true) (hlt : c.index.toNat < c.size.val.toNat)
      (haddr : outAddress? c.out c.index.toNat = some a) :
      PhaseChange i s c c.advanced (s.mem.writeElement s.byteOrder a v)
  /-- The completion. -/
  | complete (hbusy : c.busy = true) (hend : c.index = c.size.val) : PhaseChange i s c c.completed s.mem

/-- A command that answers a next state changes at most its own core and the memory, by one of its phases. -/
theorem exec_phaseChange {i : Instr} {s t : State} {c : CoreState} (hc : s.current? = some c)
    (h : exec i s = .next t) : ∃ d m, PhaseChange i s c d m ∧ t = (s.withMem m).setCurrent d := by
  rw [exec_eq_runCommand] at h
  obtain ⟨c', hc', hphase⟩ := runCommand_cases i _ s t h
  obtain rfl : c' = c := Option.some.inj (hc'.symm.trans hc)
  obtain ⟨hbusy, -, -, rfl⟩ | ⟨hbusy, -, hlt, a, haddr, rfl⟩ | ⟨hbusy, -, hend, rfl⟩ := hphase
  · exact ⟨_, _, .start hbusy, rfl⟩
  · exact ⟨_, _, .element a _ hbusy hlt haddr, rfl⟩
  · exact ⟨_, _, .complete hbusy hend, rfl⟩

section
variable {i : Instr} {s : State} {c d : CoreState} {m : Memory}

/-- No phase writes an operand register or the binding. -/
theorem PhaseChange.operands (h : PhaseChange i s c d m) :
    d.size = c.size ∧ d.key0 = c.key0 ∧ d.key1 = c.key1 ∧ d.ctr0 = c.ctr0 ∧ d.ctr1 = c.ctr1 ∧ d.out = c.out := by
  cases h <;> simp

/-- CMD is written by the start only, a flag by no element step, and INDEX and CCTR by no completion. -/
theorem PhaseChange.sequencing (h : PhaseChange i s c d m) :
    (c.busy = true → d.cmd = c.cmd) ∧
      (c.index.toNat < c.size.val.toNat → c.busy = true → d.busy = c.busy ∧ d.done = c.done) ∧
      (c.busy = true → c.index = c.size.val → d.index = c.index ∧ d.cctr = c.cctr) := by
  cases h with
  | start hbusy => simp [hbusy]
  | element a v hbusy hlt haddr =>
    exact ⟨fun _ => rfl, fun _ _ => ⟨rfl, rfl⟩, fun _ hend => absurd (hend ▸ hlt) (lt_irrefl _)⟩
  | complete hbusy hend =>
    exact ⟨fun _ => rfl, fun hlt => absurd (hend ▸ hlt) (lt_irrefl _), fun _ _ => ⟨rfl, rfl⟩⟩

/-- An element step writes the eight bytes of element INDEX, if any. -/
theorem PhaseChange.sameOutside (h : PhaseChange i s c d m) {a : Nat}
    (haddr : outAddress? c.out c.index.toNat = some a) : Memory.SameOutside s.mem m a 8 := by
  cases h with
  | start | complete => exact fun _ _ => rfl
  | element b v _ _ hb =>
    obtain rfl : b = a := Option.some.inj (hb.symm.trans haddr)
    exact Memory.read?_writeElement_outside _ _ _ _

/-- The start and the completion write no byte. -/
theorem PhaseChange.mem_eq (h : PhaseChange i s c d m) (hphase : c.busy = false ∨ c.index = c.size.val) :
    m = s.mem := by
  cases h with
  | start | complete => rfl
  | element a v hbusy hlt _ =>
    obtain hidle | hend := hphase
    · simp [hbusy] at hidle
    · exact absurd (hend ▸ hlt) (lt_irrefl _)

end

/-- Settles O14, by what the three phases make of the core and of the memory. -/
theorem commandFrame : Obligations.CommandFrame := by
  intro i s t c hc hexec
  obtain ⟨d, m, hphase, rfl⟩ := exec_phaseChange hc hexec
  have hcurrent : ((s.withMem m).setCurrent d).current? = some d := State.setCurrent_current? _ d c hc
  obtain ⟨hsize, hkey0, hkey1, hctr0, hctr1, hout⟩ := hphase.operands
  obtain ⟨hcmd, hflags, hcounters⟩ := hphase.sequencing
  refine ⟨⟨d, hcurrent, hsize, hkey0, hkey1, hctr0, hctr1, hout, hcmd, hflags, hcounters⟩,
    State.setCurrent_other _ d, List.length_set, rfl, rfl, rfl, rfl, rfl, fun a _ _ => hphase.sameOutside,
    fun hquiet x => ?_⟩
  rw [State.setCurrent_mem, State.withMem_mem, hphase.mem_eq hquiet]

/-! ## A BUSY driver has a step (42_driver.md R110) -/

/-- The CMD of a BUSY core holds a command's word (10_state.md R14). -/
theorem CoreState.Ok.exists_command {c : CoreState} (h : c.Ok) (hbusy : c.busy = true) :
    ∃ i, c.cmd.val = encode i := by
  obtain ⟨-, hword, hheld, -⟩ := h
  exact exists_eq_encode (eq_of_beq (hword (hheld (.inl hbusy))))

/-- Of a BUSY core the element step or the completion step is enabled. -/
theorem turnOutcome_drive_proceeds {s : State} {c : CoreState} (hc : s.current? = some c) (hok : c.Ok)
    (hbusy : c.busy = true) : ∃ t, turnOutcome .drive c s = .next t := by
  obtain ⟨i, hi⟩ := hok.exists_command hbusy
  obtain ⟨-, -, -, hrun⟩ := hok
  obtain ⟨-, hindex, -, w, hout, hcap⟩ := hrun hbusy
  rw [turnOutcome_drive hbusy (hi ▸ decode_encode i)]
  obtain hlt | hend := hindex.lt_or_eq
  · exact ⟨_, exec_elementStep_window hc hbusy hi hlt hout (hlt.trans_le hcap)⟩
  · exact ⟨_, commandCompletes i s c hc hbusy hi (BitVec.eq_of_toNat_eq hend)⟩

/-- With nothing queued the turn that comes next is the driver's of a BUSY core. -/
theorem TurnOf.busy_driver {s s' : State} {u : Turn} (h : TurnOf s u s') (hinbox : s.inbox = []) :
    u.act = .drive ∧ s.IsBusy u.core := by
  cases h with
  | host t ts h => simp [hinbox] at h
  | driver k _ hk => exact ⟨rfl, (mem_busyCores _ _).mp (hk ▸ List.mem_singleton_self k)⟩
  | free j k ks _ hk hj => exact ⟨rfl, (mem_busyCores _ _).mp (hk ▸ hj)⟩

/-- Settles O49: the machine waits, or a BUSY core's driver takes its enabled step. -/
theorem driverAlwaysProceeds : Obligations.DriverAlwaysProceeds := by
  intro s hinv hinbox
  cases hturn : nextTurn? s with
  | none =>
    obtain ⟨-, hidle⟩ := (nextTurn?_none s).mp hturn
    exact ⟨s, step_of_idle s hinbox hidle⟩
  | some next =>
    obtain ⟨u, s'⟩ := next
    obtain ⟨hcores, hof⟩ := nextTurn?_some s s' u hturn
    obtain ⟨hact, c, hc, hbusy⟩ := hof.busy_driver hinbox
    obtain ⟨-, hok, -⟩ := hinv
    have hcurrent : (s'.withSel u.core).current? = some c := by
      rwa [State.current?_eq, State.withSel_cores, hcores]
    rw [step_of_nextTurn s s' u c hturn hc, hact]
    exact turnOutcome_drive_proceeds hcurrent (hok _ c hc) hbusy

end Sys2Proof.Machine
end

section
/-! PROOF. The host's accesses (42_driver.md R92, R94, R95): what a write of an operand register, a read of a register,
and a read and a write of an element of OUT answer. -/

namespace Sys2Proof.Machine

/-! ## Registers (42_driver.md R92, R94) -/

/-- A register that can be written refuses it while the core is BUSY (42_driver.md R92). -/
theorem CoreState.writeRegister_busy {c : CoreState} (hbusy : c.busy = true) {r : BitVec 4} (hr : r.toNat ≤ 4)
    (v : W64) : c.writeRegister r v = .error .writeWhileBusy := by
  have hnumber : ∀ n : BitVec 4, 4 ≤ n.toNat → ¬n < r := fun n hn => BitVec.not_lt.mpr (BitVec.le_def.mpr (hr.trans hn))
  unfold CoreState.writeRegister
  rw [if_neg (hnumber 8#4 (by decide)), if_neg (hnumber 5#4 (by decide)), if_pos hbusy]

/-- A host write of an operand register, field by field. -/
theorem CoreState.setOperand_eq (c : CoreState) (r : BitVec 4) (v : W64) :
    c.setOperand r v =
      { c with
        size := if r = 0#4 then ⟨v, true⟩ else c.size
        key0 := if r = 1#4 then ⟨v, true⟩ else c.key0
        key1 := if r = 2#4 then ⟨v, true⟩ else c.key1
        ctr0 := if r = 3#4 then ⟨v, true⟩ else c.ctr0
        ctr1 := if r = 4#4 then ⟨v, true⟩ else c.ctr1 } := by
  unfold CoreState.setOperand
  split_ifs <;> simp_all [Reg.of]

/-- Settles O36, at a BUSY core and at one that is not. -/
theorem operandWrite : Obligations.OperandWrite := by
  intro s ts k c r v hinbox hc hr
  have hcmd : r ≠ 5#4 := by
    rintro rfl
    exact absurd hr (by decide)
  by_cases hbusy : c.busy = true
  · rw [if_pos hbusy, step_of_turn s _ ts c hinbox hc, turnOutcome_wr hcmd, writeRegisterAt,
      c.writeRegister_busy hbusy hr]
    rfl
  · rw [if_neg hbusy, step_operandWrite hinbox hc (by simpa using hbusy) (by omega), CoreState.setOperand_eq]

/-- What a host read answers. -/
def State.answer (s : State) (v : Except Refusal W64) : Host.Outcome State Fault Refusal :=
  outcomeOf (v.map s.withReply)

theorem turnOutcome_rd_eq_answer (r : BitVec 4) (c : CoreState) (s : State) :
    turnOutcome (.rd r) c s = s.answer (c.readRegister r) := by
  rw [turnOutcome_rd, readRegisterAt, State.answer]
  cases c.readRegister r <;> rfl

theorem State.answer_ok (s : State) (v : W64) : s.answer (.ok v) = .next (s.withReply v) := rfl

theorem State.answer_error (s : State) (e : Refusal) : s.answer (.error e) = .refused e := rfl

/-- A register that may hold no value (10_state.md R23). -/
theorem State.answer_read (s : State) (x : Reg) :
    s.answer x.read = if x.held = true then .next (s.withReply x.val) else .refused .readUnwritten := by
  unfold Reg.read
  split <;> rfl

/-- Settles O37, by the table of register numbers. -/
theorem registerRead : Obligations.RegisterRead := by
  intro s ts k c r hinbox hc
  rw [step_of_turn s _ ts c hinbox hc, turnOutcome_rd_eq_answer, ← statusWord_eq_or]
  have hnumber : ∀ n : BitVec 4, r = n ↔ r.toNat = n.toNat := fun n => BitVec.toNat_inj.symm
  simp only [CoreState.readRegister, hnumber, apply_ite (State.answer _), State.answer_read, State.answer_ok,
    State.answer_error]
  rfl

/-! ## Elements of OUT (42_driver.md R95) -/

theorem outAddress?_of_ge {w : Window} {i : Nat} (h : w.cap.toNat ≤ i) : outAddress? (some w) i = none :=
  if_neg h.not_gt

theorem outAddress?_of_lt {w : Window} {i : Nat} (h : i < w.cap.toNat) : outAddress? (some w) i = some (w.address i) :=
  if_pos h

theorem turnOutcome_rdOut (i : Nat) (c : CoreState) (s : State) :
    turnOutcome (.rdOut i) c s = outcomeOf (readOutAt c i s) := rfl

theorem turnOutcome_wrOut (i : Nat) (v : W64) (c : CoreState) (s : State) :
    turnOutcome (.wrOut i v) c s = outcomeOf (writeOut c i v s) := rfl

/-- Settles O41: no element without a window, none from OUT_CAP on, and elsewhere what the element reads as. -/
theorem hostReadOfOut : Obligations.HostReadOfOut := by
  intro s ts k c i hinbox hc
  rw [step_of_turn s _ ts c hinbox hc, turnOutcome_rdOut, readOutAt]
  cases c.out with
  | none => rfl
  | some w =>
    by_cases hcap : w.cap.toNat ≤ i
    · rw [outAddress?_of_ge hcap]
      simp only [if_pos hcap]
      rfl
    · rw [outAddress?_of_lt (not_le.mp hcap)]
      simp only [if_neg hcap]
      exact apply_ite Host.Outcome.next _ _ _

/-- Settles O43: the refusals in order, then the element store. -/
theorem hostWriteOfOut : Obligations.HostWriteOfOut := by
  intro s ts k c i v hinbox hc
  rw [step_of_turn s _ ts c hinbox hc, turnOutcome_wrOut, writeOut]
  by_cases hbusy : c.busy = true
  · rw [if_pos hbusy, if_pos hbusy]
    rfl
  rw [if_neg hbusy, if_neg hbusy]
  cases c.out with
  | none => rfl
  | some w =>
    by_cases hcap : w.cap.toNat ≤ i
    · rw [outAddress?_of_ge hcap]
      simp only [if_pos hcap]
      rfl
    · rw [outAddress?_of_lt (not_le.mp hcap)]
      simp only [if_neg hcap]
      exact apply_ite outcomeOf _ _ _

end Sys2Proof.Machine
end

section
/-! PROOF. The whole command (42_driver.md R99, R100): from the CMD write to the completion with nothing else queued,
and what follows for a request of no elements (R99), for a split request (R106) and for a repeated one (R107). -/

namespace Sys2Proof.Machine

/-! ## One command, alone (42_driver.md R100) -/

section
variable {i : Instr} {c : CoreState} {w : Window} {m : Memory} {k n : Nat} {s : State}

/-- The CMD write runs the start of the command. -/
theorem State.ReadyFor.step_eq_exec (h : s.ReadyFor k i c w) : step s = exec i ((s.withInbox []).withSel k) := by
  obtain ⟨hinbox, hc, hidle, -⟩ := h
  exact stepRunsWrittenCommand s [] k c _ i hinbox hc (hidle k c hc) (decode_encode i)

/-- With nothing queued a step is the next phase of the running command. -/
theorem Filling.step_lone (h : Filling i c w m k n s) (hinbox : s.inbox = []) : step s = exec i (s.withSel k) :=
  stepRunsLoneDriver s k _ i hinbox h.lone h.running (decode_encode i)

/-- A phase of a command leaves the other cores alone. -/
theorem exec_cores_of_ne {t : State} (hc : s.current? = some c) (h : exec i s = .next t) {j : Nat} (hj : j ≠ s.sel) :
    t.cores[j]? = s.cores[j]? := by
  obtain ⟨-, hothers, -⟩ := commandFrame i s t c hc h
  exact hothers j hj

/-- The CMD write leaves the command running, with nothing queued. -/
theorem State.ReadyFor.step_start (h : s.ReadyFor k i c w) :
    ∃ t, step s = .next t ∧ t.inbox = [] ∧ Filling i c w s.mem k 0 t ∧ ∀ j, j ≠ k → t.cores[j]? = s.cores[j]? := by
  have hstep := h.step_eq_exec
  obtain ⟨-, hc, hidle, hheld, hout, hcap⟩ := h
  have hcurrent : ((s.withInbox []).withSel k).current? = some c := hc
  obtain ⟨t, hexec, htin, ht⟩ := exec_start i _ hcurrent hidle hheld hout hcap
  exact ⟨t, hstep.trans hexec, htin, ht, fun j hj => exec_cores_of_ne hcurrent hexec hj⟩

/-- From the start on, `n` steps with nothing queued write the first `n` elements. -/
theorem Filling.run_lone (h : Filling i c w m k 0 s) (hinbox : s.inbox = []) (hout : c.out = some w)
    (hcap : c.size.val.toNat ≤ w.cap.toNat) (hn : n ≤ c.size.val.toNat) :
    ∃ t, Host.Core.run core n s = .next t ∧ t.inbox = [] ∧ Filling i c w m k n t ∧
      ∀ j, j ≠ k → t.cores[j]? = s.cores[j]? := by
  induction n with
  | zero => exact ⟨s, rfl, hinbox, h, fun _ _ => rfl⟩
  | succ n ih =>
    obtain ⟨p, hprun, hpin, hp, hpcores⟩ := ih (Nat.le_of_succ_le hn)
    have hturn : Filling i c w m k n (p.withSel k) := hp.congr rfl rfl rfl
    obtain ⟨t, hexec, htin, ht⟩ := hturn.exec_element rfl hout hcap hn
    refine ⟨t, run_trans hprun (run_one ((hp.step_lone hpin).trans hexec)), htin.trans hpin, ht, fun j hj => ?_⟩
    exact (exec_cores_of_ne hturn.running hexec hj).trans (hpcores j hj)

/-- The whole command: SIZE + 2 steps leave the core completed, its elements filled in, and all else alone. -/
theorem State.ReadyFor.run_command (h : s.ReadyFor k i c w) :
    ∃ t, Host.Core.run core (c.size.val.toNat + 2) s = .next t ∧
      t.cores[k]? = some (c.runningAt i c.size.val.toNat).completed ∧
      (∀ j, j < c.size.val.toNat →
        Memory.readElement? t.mem t.byteOrder (w.address j) = some (c.elementAt i j)) ∧
      Memory.SameOutside s.mem t.mem (w.address 0) (8 * c.size.val.toNat) ∧
      ∀ j, j ≠ k → t.cores[j]? = s.cores[j]? := by
  obtain ⟨p, hstart, hpin, hp, hpcores⟩ := h.step_start
  obtain ⟨-, -, -, -, hout, hcap⟩ := h
  obtain ⟨q, hqrun, hqin, hq, hqcores⟩ := hp.run_lone hpin hout hcap le_rfl
  have hturn : Filling i c w s.mem k c.size.val.toNat (q.withSel k) := hq.congr rfl rfl rfl
  have hcomplete := (hq.step_lone hqin).trans (hturn.exec_complete rfl)
  have hrun := run_trans (run_one hstart) (run_trans hqrun (run_one hcomplete))
  rw [show 1 + (c.size.val.toNat + 1) = c.size.val.toNat + 2 by omega] at hrun
  refine ⟨_, hrun, State.setCurrent_current? _ _ _ hturn.running, hq.filled, hq.outside, fun j hj => ?_⟩
  calc _ = q.cores[j]? := State.setCurrent_other (q.withSel k) _ j hj
    _ = p.cores[j]? := hqcores j hj
    _ = s.cores[j]? := hpcores j hj

/-- The elements that a whole command leaves. -/
theorem State.ReadyFor.readElement?_of_run {t : State} (h : s.ReadyFor k i c w)
    (hrun : Host.Core.run core (c.size.val.toNat + 2) s = .next t) {j : Nat} (hj : j < c.size.val.toNat) :
    Memory.readElement? t.mem t.byteOrder (w.address j) = some (c.elementAt i j) := by
  obtain ⟨t', hrun', -, hfilled, -⟩ := h.run_command
  obtain rfl := Host.Outcome.next.inj (hrun'.symm.trans hrun)
  exact hfilled j hj

end

/-- Settles O16: the CMD write, an element step for each element, and the completion. -/
theorem wholeCommandFillsOut : Obligations.WholeCommandFillsOut := by
  intro i s k c w h
  obtain ⟨t, hrun, hcore, hfilled, houtside, hothers⟩ := h.run_command
  have hindex : (c.runningAt i c.size.val.toNat).index = c.size.val := by simp [CoreState.runningAt]
  exact ⟨t, _, hrun, hcore, hfilled, houtside, hindex, rfl, rfl, rfl, rfl, rfl, rfl, rfl, rfl, hothers⟩

/-! ## Which elements two commands share -/

/-- An element is a function of the command, the key, counter word 0 and counter word 1 + j (42_driver.md R105). -/
theorem CoreState.elementAt_congr (i : Instr) {c d : CoreState} {j n : Nat} (hkey0 : d.key0.val = c.key0.val)
    (hkey1 : d.key1.val = c.key1.val) (hctr0 : d.ctr0.val = c.ctr0.val)
    (hctr1 : d.ctr1.val + BitVec.ofNat 64 j = c.ctr1.val + BitVec.ofNat 64 n) : d.elementAt i j = c.elementAt i n := by
  simp only [CoreState.elementAt, hkey0, hkey1, hctr0, hctr1]

/-- Settles O17: element j of the first part is at counter c1 + j, element j of the second at c1 + N + j, modulo 2^64. -/
theorem splittingLaw : Obligations.SplittingLaw := by
  intro i s₁ s₂ s₃ t₁ t₂ t₃ k₁ k₂ k₃ c₁ c₂ c₃ w₁ w₂ w₃ h₁ h₂ h₃ hsize hkey0₂ hkey1₂ hctr0₂ hctr1₂ hkey0₃ hkey1₃
    hctr0₃ hctr1₃ hrun₁ hrun₂ hrun₃
  refine ⟨fun j hj => ?_, fun j hj => ?_⟩
  · rw [h₁.readElement?_of_run hrun₁ (by omega), h₂.readElement?_of_run hrun₂ hj,
      CoreState.elementAt_congr i hkey0₂ hkey1₂ hctr0₂ (by rw [hctr1₂])]
  · have hcounter : c₃.ctr1.val + BitVec.ofNat 64 j = c₁.ctr1.val + BitVec.ofNat 64 (c₂.size.val.toNat + j) := by
      rw [hctr1₃, BitVec.ofNat_add, BitVec.ofNat_toNat, BitVec.setWidth_eq, BitVec.add_assoc]
    rw [h₁.readElement?_of_run hrun₁ (by omega), h₃.readElement?_of_run hrun₃ hj,
      CoreState.elementAt_congr i hkey0₃ hkey1₃ hctr0₃ hcounter]

/-- Settles O18: the elements are a function of the command and the five operand values. -/
theorem repeatedCommandsAgree : Obligations.RepeatedCommandsAgree := by
  intro i s s' t t' k k' c c' w w' h h' hsize hkey0 hkey1 hctr0 hctr1 hrun hrun' j hj
  rw [← hsize] at hrun'
  rw [h.readElement?_of_run hrun hj, h'.readElement?_of_run hrun' (hsize ▸ hj),
    CoreState.elementAt_congr i hkey0 hkey1 hctr0 (by rw [hctr1])]

/-! ## A request of no elements (42_driver.md R99) -/

theorem State.setCurrent_setCurrent (s : State) (c d : CoreState) : (s.setCurrent c).setCurrent d = s.setCurrent d := by
  simp [State.setCurrent]

/-- Settles O15: with SIZE = 0 the start leaves INDEX = SIZE, so the completion comes next. -/
theorem emptyRequestWritesNothing : Obligations.EmptyRequestWritesNothing := by
  intro i s k c w h hzero
  have hstep := h.step_eq_exec
  obtain ⟨-, hc, hidle, hheld, hout, hcap⟩ := h
  have hcurrent : ((s.withInbox []).withSel k).current? = some c := hc
  have hfree := anyOtherCore_busyOver_of_idle k w hidle
  have hstart := runCommand_start i (transformOf i) _ c w hcurrent (hidle k c hc) hheld hout hcap hfree
  rw [← exec_eq_runCommand] at hstart
  have honly := State.setCurrent_onlyBusy (s := (s.withInbox []).withSel k) (d := c.started (encode i)) rfl
    fun j e _ => hidle j e
  have hrunning := State.setCurrent_current? _ (c.started (encode i)) c hcurrent
  have hturn := stepRunsLoneDriver _ k _ i rfl honly hrunning (decode_encode i)
  have hend := commandCompletes i _ (c.started (encode i)) hrunning rfl rfl hzero.symm
  rw [State.setCurrent_setCurrent] at hend
  exact run_trans (run_one (hstep.trans hstart)) (run_one (hturn.trans hend))

end Sys2Proof.Machine
end

section
/-! PROOF. Refusals, and the agents of a step (60_exceptions.md): the reasons for which a turn of each action is refused
(R116), the idle machine (R127), and the driver steps of two BUSY cores in either order (R125). -/

namespace Sys2Proof.Machine

/-! ## Why a turn is refused (60_exceptions.md R116, R118) -/

/-- The reasons for which a turn with the action can be refused. A poll of WAIT, a RESET and, where the invariant holds, a
driver's turn have none. -/
def Action.refusals : Action → List Refusal
  | .wr r _ =>
    if r = 5#4 then [.writeWhileBusy, .reservedCommand, .operandUnwritten, .bufferTooSmall, .overlappingBuffers]
    else [.reservedRegister, .writeReadOnly, .writeWhileBusy]
  | .rd _ => [.readUnwritten, .reservedRegister]
  | .rdOut _ => [.outOfRange]
  | .wrOut _ _ => [.bufferTouchedWhileBusy, .outOfRange]
  | .bind _ => [.bufferTouchedWhileBusy]
  | .wait | .reset | .drive => []

/-- None of them is a reason of the model's own. -/
theorem Action.own_notMem_refusals (act : Action) :
    .noEnabledStep ∉ act.refusals ∧ .storeNotAdmitted ∉ act.refusals ∧ ∀ m, .notModelled m ∉ act.refusals := by
  cases act with
  | wr r v => by_cases hr : r = 5#4 <;> simp [Action.refusals, hr]
  | rd | rdOut | wrOut | bind | wait | reset | drive => simp [Action.refusals]

theorem outcomeOf_eq_refused {x : Except Refusal State} {e : Refusal} (h : outcomeOf x = .refused e) :
    x = .error e := by
  cases x <;> cases h
  rfl

theorem Reg.eq_readUnwritten_of_read {x : Reg} {e : Refusal} (h : x.read = .error e) : e = .readUnwritten := by
  unfold Reg.read at h
  split at h <;> cases h
  rfl

theorem CoreState.mem_refusals_of_readRegister {c : CoreState} {r : BitVec 4} {e : Refusal}
    (h : c.readRegister r = .error e) : e ∈ (Action.rd r).refusals := by
  have hread : ∀ x : Reg, x.read = .error e → e ∈ (Action.rd r).refusals := fun x hx => by
    simp [Action.refusals, Reg.eq_readUnwritten_of_read hx]
  unfold CoreState.readRegister at h
  split_ifs at h
  any_goals exact hread _ h
  all_goals cases h
  simp [Action.refusals]

theorem CoreState.mem_refusals_of_writeRegister {c : CoreState} {r : BitVec 4} {v : W64} {e : Refusal} (hr : r ≠ 5#4)
    (h : c.writeRegister r v = .error e) : e ∈ (Action.wr r v).refusals := by
  unfold CoreState.writeRegister at h
  split_ifs at h <;> cases h <;> simp [Action.refusals, hr]

/-- The start of a command checks its preconditions (3), (4) and (5) (42_driver.md R93). -/
theorem mem_refusals_of_startCommand {w : W64} {c : CoreState} {s : State} {e : Refusal}
    (h : startCommand w c s = .refused e) : e ∈ (Action.wr 5#4 w).refusals := by
  unfold startCommand at h
  split at h
  · cases h
    simp [Action.refusals]
  · cases hout : c.out with
    | none =>
      simp only [hout] at h
      cases h
      simp [Action.refusals]
    | some w =>
      simp only [hout] at h
      split_ifs at h <;> cases h <;> simp [Action.refusals]

/-- A write of CMD checks preconditions (1) and (2), and the start it runs the others. -/
theorem mem_refusals_of_commandWrite {w : W64} {c : CoreState} {s : State} {e : Refusal} (hc : s.current? = some c)
    (h : turnOutcome (.wr 5#4 w) c s = .refused e) : e ∈ (Action.wr 5#4 w).refusals := by
  by_cases hbusy : c.busy = true
  · obtain rfl := Host.Outcome.refused.inj ((turnOutcome_commandWrite_busy hbusy w s).symm.trans h)
    simp [Action.refusals]
  rw [Bool.not_eq_true] at hbusy
  by_cases hw : reservedField w = 0#62
  · obtain ⟨i, rfl⟩ := exists_eq_encode hw
    rw [turnOutcome_commandWrite hbusy, exec_of_not_busy i hc hbusy] at h
    exact mem_refusals_of_startCommand h
  · obtain rfl := Host.Outcome.refused.inj ((turnOutcome_commandWrite_reserved hbusy hw s).symm.trans h)
    simp [Action.refusals]

theorem mem_refusals_of_readOutAt {c : CoreState} {i : Nat} {s : State} {e : Refusal}
    (h : readOutAt c i s = .error e) : e ∈ (Action.rdOut i).refusals := by
  unfold readOutAt at h
  cases ha : outAddress? c.out i with
  | none =>
    simp only [ha] at h
    cases h
    simp [Action.refusals]
  | some a => simp [ha] at h

theorem mem_refusals_of_writeOut {c : CoreState} {i : Nat} {v : W64} {s : State} {e : Refusal}
    (h : writeOut c i v s = .error e) : e ∈ (Action.wrOut i v).refusals := by
  unfold writeOut at h
  split at h
  · cases h
    simp [Action.refusals]
  · cases ha : outAddress? c.out i with
    | none =>
      simp only [ha] at h
      cases h
      simp [Action.refusals]
    | some a =>
      simp only [ha] at h
      split_ifs at h
      cases h
      simp [Action.refusals]

theorem mem_refusals_of_bindOut {c : CoreState} {w : Window} {s : State} {e : Refusal}
    (h : bindOut c w s = .error e) : e ∈ (Action.bind w).refusals := by
  unfold bindOut at h
  split_ifs at h
  cases h
  simp [Action.refusals]

/-- With no enabled step a driver's turn changes nothing (60_exceptions.md R127). -/
theorem turnOutcome_drive_idle {c : CoreState} (hbusy : c.busy = false) (s : State) :
    turnOutcome .drive c s = .next s := by
  have hfetch : fetchAction .drive c s = .done (.next s) := if_pos hbusy
  rw [turnOutcome, hfetch]

/-- A driver's turn is never refused: a BUSY core has an enabled step, and any other driver does nothing. -/
theorem turnOutcome_drive_ne_refused {s : State} {c : CoreState} (hc : s.current? = some c) (hok : c.Ok) (e : Refusal) :
    turnOutcome .drive c s ≠ .refused e := by
  by_cases hbusy : c.busy = true
  · obtain ⟨t, ht⟩ := turnOutcome_drive_proceeds hc hok hbusy
    simp [ht]
  · simp [turnOutcome_drive_idle (Bool.not_eq_true _ ▸ hbusy) s]

/-- A turn at a core with the invariant is refused for the reasons of its action only. -/
theorem mem_refusals_of_turnOutcome {act : Action} {c : CoreState} {s : State} {e : Refusal} (hc : s.current? = some c)
    (hok : c.Ok) (h : turnOutcome act c s = .refused e) : e ∈ act.refusals := by
  cases act with
  | wr r v =>
    by_cases hr : r = 5#4
    · subst hr
      exact mem_refusals_of_commandWrite hc h
    · rw [turnOutcome_wr hr] at h
      replace h := outcomeOf_eq_refused h
      unfold writeRegisterAt at h
      cases hw : c.writeRegister r v <;> rw [hw] at h <;> cases h
      exact CoreState.mem_refusals_of_writeRegister hr hw
  | rd r =>
    rw [turnOutcome_rd_eq_answer] at h
    cases hr : c.readRegister r <;> rw [hr] at h <;> cases h
    exact CoreState.mem_refusals_of_readRegister hr
  | rdOut i => exact mem_refusals_of_readOutAt (outcomeOf_eq_refused h)
  | wrOut i v => exact mem_refusals_of_writeOut (outcomeOf_eq_refused h)
  | bind w => exact mem_refusals_of_bindOut (outcomeOf_eq_refused h)
  | wait | reset => cases h
  | drive => exact absurd h (turnOutcome_drive_ne_refused hc hok e)

/-- A refused step took a turn of no core of the system, or a turn that its core refused. -/
theorem step_refused_cases {s : State} {e : Refusal} (h : step s = .refused e) :
    e = .noSuchCore ∨ ∃ (u : Turn) (s' : State) (c : CoreState), TurnOf s u s' ∧ s'.current? = some c ∧
      turnOutcome u.act c s' = .refused e := by
  cases hturn : nextTurn? s with
  | none =>
    obtain ⟨hinbox, hidle⟩ := (nextTurn?_none s).mp hturn
    rw [step_of_idle s hinbox hidle] at h
    cases h
  | some next =>
    obtain ⟨u, s'⟩ := next
    obtain ⟨hcores, hof⟩ := nextTurn?_some s s' u hturn
    cases hc : s.cores[u.core]? with
    | none =>
      have hfetch : fetch s = .done (.refused .noSuchCore) := by
        unfold fetch
        rw [hturn]
        exact fetchTurn_none u s' (hcores ▸ hc)
      rw [step, hfetch] at h
      exact .inl (Host.Outcome.refused.inj h).symm
    | some c =>
      have hcurrent : (s'.withSel u.core).current? = some c := by
        rwa [State.current?_eq, State.withSel_cores, hcores]
      exact .inr ⟨u, _, c, hof, hcurrent, step_of_nextTurn s s' u c hturn hc ▸ h⟩

/-- Settles O50: there is no fault, and a turn is refused for the reasons of its action, where it has a core at all. -/
theorem onlyListedRefusals : Obligations.OnlyListedRefusals := by
  intro s hinv
  refine ⟨nofun, fun r h => ?_⟩
  obtain rfl | ⟨u, s', c, hof, hc, hout⟩ := step_refused_cases h
  · simp
  · obtain ⟨hcores, hmem, -, -⟩ := hof.same
    have hr := mem_refusals_of_turnOutcome hc ((hinv.congr hcores hmem).current_ok hc) hout
    obtain ⟨hstep, hstore, hmodelled⟩ := u.act.own_notMem_refusals
    exact ⟨ne_of_mem_of_not_mem hr hstep, ne_of_mem_of_not_mem hr hstore,
      fun m => ne_of_mem_of_not_mem hr (hmodelled m)⟩

/-! ## The idle machine (60_exceptions.md R127) -/

/-- Settles O6: with no core BUSY no driver has a step, and waiting for the host is a step to the same state (log 12). -/
theorem idleMachineWaits : Obligations.IdleMachineWaits := fun s hinbox hidle =>
  step_of_idle s hinbox (busyCores_of_idle fun j ⟨c, hc, hbusy⟩ => by simp [hidle j c hc] at hbusy)

/-! ## Two drivers in either order (60_exceptions.md R125, 20_memory.md R41) -/

/-- Two element stores that share no byte commute. -/
theorem Memory.writeElement_comm {m : Memory} (hm : Memory.wf m = true) (o : ByteOrder) {a b : Nat} (x y : W64)
    (hapart : a + 8 ≤ b ∨ b + 8 ≤ a) :
    (m.writeElement o a x).writeElement o b y = (m.writeElement o b y).writeElement o a x := by
  refine Memory.ext_of_wf _ _ (Memory.wf_writeElement _ o b y (Memory.wf_writeElement m o a x hm))
    (Memory.wf_writeElement _ o a x (Memory.wf_writeElement m o b y hm)) fun n => ?_
  simp only [Memory.writeElement, Memory.read?_writeBytes, elementBytes_length]
  by_cases ha : a ≤ n ∧ n < a + 8
  · have hb : ¬(b ≤ n ∧ n < b + 8) := by omega
    simp only [if_pos ha, if_neg hb]
  · simp only [if_neg ha]

/-- What the driver's turn of a BUSY core `c` makes of that core and of the memory, in byte order `o`. -/
inductive DriverChange (o : ByteOrder) (c : CoreState) : CoreState → (Memory → Memory) → Prop where
  /-- An element step, which stores element INDEX of the core's own window. -/
  | element (w : Window) (x : W64) (hout : c.out = some w) (hcap : c.index.toNat < w.cap.toNat) :
      DriverChange o c c.advanced fun m => m.writeElement o (w.address c.index.toNat) x
  /-- The completion. -/
  | complete : DriverChange o c c.completed id

/-- The memory changes of two drivers whose windows do not overlap commute. -/
theorem DriverChange.mem_comm {o : ByteOrder} {c c' d d' : CoreState} {f g : Memory → Memory}
    (hf : DriverChange o c c' f) (hg : DriverChange o d d' g)
    (hwindows : ∀ v w, c.out = some v → d.out = some w → v.overlaps w = false) {m : Memory}
    (hm : Memory.wf m = true) : g (f m) = f (g m) := by
  cases hf with
  | complete => rfl
  | element v x hv hvcap =>
    cases hg with
    | complete => rfl
    | element w y hw hwcap =>
      exact Memory.writeElement_comm hm o x y (v.address_disjoint w (hwindows v w hv hw) _ _ hvcap hwcap)

/-- In every state the driver's turn of the BUSY core `c` leaves the core `c'` and the memory changed by `f`. -/
def CoreState.DrivesTo (o : ByteOrder) (c c' : CoreState) (f : Memory → Memory) : Prop :=
  ∀ s : State, s.byteOrder = o → s.current? = some c →
    turnOutcome .drive c s = .next ((s.withMem (f s.mem)).setCurrent c')

/-- The driver's turn of a BUSY core looks at that core only, and makes one of those changes. -/
theorem CoreState.Ok.exists_drivesTo {c : CoreState} (hok : c.Ok) (hbusy : c.busy = true) (o : ByteOrder) :
    ∃ c' f, DriverChange o c c' f ∧ CoreState.DrivesTo o c c' f := by
  obtain ⟨i, hi⟩ := hok.exists_command hbusy
  obtain ⟨-, -, -, hrun⟩ := hok
  obtain ⟨-, hindex, -, w, hout, hcap⟩ := hrun hbusy
  have hturn : ∀ s, turnOutcome .drive c s = exec i s := turnOutcome_drive hbusy (hi ▸ decode_encode i)
  obtain hlt | hend := hindex.lt_or_eq
  · refine ⟨_, _, .element w (transformOf i c.block.1 c.block.2) hout (hlt.trans_le hcap), fun s ho hc => ?_⟩
    rw [hturn, ← ho]
    exact exec_elementStep_window hc hbusy hi hlt hout (hlt.trans_le hcap)
  · refine ⟨_, _, .complete, fun s _ hc => ?_⟩
    rw [hturn]
    exact commandCompletes i s c hc hbusy hi (BitVec.eq_of_toNat_eq hend)

/-- The step of a queued driver's turn. -/
theorem CoreState.DrivesTo.step {s : State} {k : Nat} {ts : List Turn} {c c' : CoreState} {f : Memory → Memory}
    (h : CoreState.DrivesTo s.byteOrder c c' f) (hinbox : s.inbox = ⟨k, .drive⟩ :: ts) (hc : s.cores[k]? = some c) :
    ∃ t, step s = .next t ∧ t.inbox = ts ∧ t.byteOrder = s.byteOrder ∧ t.cores = s.cores.set k c' ∧
      t.mem = f s.mem :=
  ⟨_, (step_of_turn s _ ts c hinbox hc).trans (h _ rfl hc), rfl, rfl, rfl, rfl⟩

/-- Two queued turns of drivers of different cores run one after the other. -/
theorem run_two_drives {s : State} {j k : Nat} {c d c' d' : CoreState} {f g : Memory → Memory} (hjk : j ≠ k)
    (hc : s.cores[j]? = some c) (hd : s.cores[k]? = some d) (hf : CoreState.DrivesTo s.byteOrder c c' f)
    (hg : CoreState.DrivesTo s.byteOrder d d' g) :
    ∃ t, Host.Core.run core 2 (s.withInbox [⟨j, .drive⟩, ⟨k, .drive⟩]) = .next t ∧
      t.cores = (s.cores.set j c').set k d' ∧ t.mem = g (f s.mem) := by
  obtain ⟨p, hp, hpinbox, hporder, hpcores, hpmem⟩ :=
    hf.step (s := s.withInbox [⟨j, .drive⟩, ⟨k, .drive⟩]) rfl hc
  have hpd : p.cores[k]? = some d := by
    rw [hpcores, List.getElem?_set_ne hjk]
    exact hd
  obtain ⟨t, ht, -, -, htcores, htmem⟩ := CoreState.DrivesTo.step (hporder ▸ hg) hpinbox hpd
  refine ⟨t, run_trans (run_one hp) (run_one ht), ?_, ?_⟩
  · rw [htcores, hpcores, State.withInbox_cores]
  · rw [htmem, hpmem, State.withInbox_mem]

/-- Settles O56: each driver changes its own core and its own window, whichever goes first. -/
theorem driversCommute : Obligations.DriversCommute := by
  intro s j k c d ⟨hmem, hcores, hwindows⟩ hjk hc hd hcbusy hdbusy
  obtain ⟨c', f, hf, hcdrives⟩ := (hcores j c hc).exists_drivesTo hcbusy s.byteOrder
  obtain ⟨d', g, hg, hddrives⟩ := (hcores k d hd).exists_drivesTo hdbusy s.byteOrder
  obtain ⟨t, hrun, htcores, htmem⟩ := run_two_drives hjk hc hd hcdrives hddrives
  obtain ⟨t', hrun', htcores', htmem'⟩ := run_two_drives hjk.symm hd hc hddrives hcdrives
  refine ⟨t, t', hrun, hrun', ?_, ?_⟩
  · rw [htcores, htcores', List.set_comm _ _ hjk]
  · rw [htmem, htmem']
    exact hf.mem_comm hg (fun v w => hwindows j k c d v w hjk hc hd hcbusy hdbusy) hmem

end Sys2Proof.Machine
end

section
/-! PROOF. RESET and fairness (70_reset_and_hazards.md): what RESET leaves (R129, R130), the end of a running command
under the fairness premise (R142), and why the premise holds of itself where one core alone is ever BUSY (logs 3, 12). -/

namespace Sys2Proof.Machine

/-! ## RESET of a core (70_reset_and_hazards.md R129, R130) -/

theorem turnOutcome_reset (c : CoreState) (s : State) :
    turnOutcome .reset c s = .next (s.setCurrent c.afterReset) := rfl

theorem CoreState.readRegister_status (c : CoreState) : c.readRegister 6#4 = .ok (statusWord c.busy c.done) := by
  simp [CoreState.readRegister]

theorem CoreState.readRegister_version (c : CoreState) : c.readRegister 8#4 = .ok 1#64 := by
  simp [CoreState.readRegister, Config.algVersion]

/-- Settles O39: the turn puts back `c.afterReset`, whatever the core was doing. -/
theorem resetOfCore : Obligations.ResetOfCore := by
  intro s ts k c hinbox hc
  have hstep := step_of_turn s _ ts c hinbox hc
  rw [turnOutcome_reset] at hstep
  have hcore := ((s.withInbox ts).withSel k).setCurrent_current? c.afterReset c hc
  have hstatus : c.afterReset.readRegister 6#4 = .ok 0#64 := by
    simp [CoreState.readRegister_status, statusWord_eq_or]
  exact ⟨_, c.afterReset, hstep, hcore, rfl, rfl, rfl, rfl, rfl, rfl, rfl, rfl, rfl, rfl, hstatus,
    c.afterReset.readRegister_version, rfl, rfl, rfl, ((s.withInbox ts).withSel k).setCurrent_other c.afterReset⟩

/-! ## A BUSY core in one step (70_reset_and_hazards.md R142) -/

/-- Turns other than its driver's and its RESET leave a BUSY core as it is. -/
theorem CoreChange.eq_of_busy {act : Action} {c d : CoreState} (h : CoreChange act c d) (hbusy : c.busy = true)
    (hdrive : act ≠ .drive) (hreset : act ≠ .reset) : d = c := by
  cases h with
  | same => rfl
  | wroteOperand _ r v hidle | bound _ w hidle | started _ w i hidle => simp [hbusy] at hidle
  | reset => exact absurd rfl hreset
  | advanced | completed => exact absurd rfl hdrive

/-- A step that takes neither the driver's turn nor a RESET of a BUSY core leaves it as it is. -/
theorem step_busyCore_kept {s t : State} {k : Nat} {c : CoreState} (hstep : step s = .next t)
    (hc : s.cores[k]? = some c) (hbusy : c.busy = true) (hdrive : s.turn? ≠ some ⟨k, .drive⟩)
    (hreset : s.turn? ≠ some ⟨k, .reset⟩) : t.cores[k]? = some c := by
  obtain ⟨-, rfl⟩ | ⟨⟨j, act⟩, s', c', hturn, hof, hc', -, hout⟩ := step_cases s t hstep
  · exact hc
  obtain ⟨hcores, -, -, hsel⟩ := hof.same
  obtain ⟨d, hchange, htcores, -, -⟩ := (turnOutcome_cases act c' s' t hc' hout).coreChange hc'
  rw [State.current?_eq, hcores, hsel] at hc'
  rw [htcores, hcores, hsel]
  by_cases hjk : j = k
  · subst hjk
    obtain rfl : c' = c := Option.some.inj (hc'.symm.trans hc)
    have hact : ∀ a : Action, s.turn? ≠ some ⟨j, a⟩ → act ≠ a := fun a ha he => ha (he ▸ hturn)
    obtain rfl := hchange.eq_of_busy hbusy (hact _ hdrive) (hact _ hreset)
    exact List.getElem?_set_self (List.getElem?_eq_some_iff.mp hc).1
  · rw [List.getElem?_set_ne hjk, hc]

/-- What the turn of its driver makes of a BUSY core (42_driver.md R97, R98). -/
inductive DriverPhase (c : CoreState) : CoreState → Prop where
  /-- An element step. -/
  | element (hlt : c.index.toNat < c.size.val.toNat) : DriverPhase c c.advanced
  /-- The completion step. -/
  | completion (hend : c.index = c.size.val) : DriverPhase c c.completed

theorem TurnEffect.driverPhase {c : CoreState} {s t : State} (h : TurnEffect .drive c s t) (hbusy : c.busy = true) :
    ∃ d, DriverPhase c d ∧ t.cores = s.cores.set s.sel d := by
  cases h with
  | quiet _ _ _ _ hidle => simp [hbusy] at hidle
  | stored i a _ _ _ hlt _ heq => exact ⟨_, .element hlt, heq ▸ rfl⟩
  | completed i _ _ _ hend heq => exact ⟨_, .completion hend, heq ▸ rfl⟩
  | wroteOut _ _ _ hact | wroteOperand _ _ hact | bound _ hact | reset hact | started _ _ _ hact => cases hact

/-- A step that takes the turn of a BUSY core's driver is one of its phases. -/
theorem step_busyCore_driven {s t : State} {k : Nat} {c : CoreState} (hstep : step s = .next t)
    (hc : s.cores[k]? = some c) (hbusy : c.busy = true) (hdrive : s.turn? = some ⟨k, .drive⟩) :
    ∃ d, DriverPhase c d ∧ t.cores[k]? = some d := by
  obtain ⟨hnone, -⟩ | ⟨u, s', c', hturn, hof, hc', -, hout⟩ := step_cases s t hstep
  · rw [hdrive] at hnone
    cases hnone
  obtain rfl : u = ⟨k, .drive⟩ := Option.some.inj (hturn.symm.trans hdrive)
  obtain ⟨hcores, -, -, hsel⟩ := hof.same
  have heffect := turnOutcome_cases _ c' s' t hc' hout
  rw [State.current?_eq, hcores, hsel] at hc'
  obtain rfl : c' = c := Option.some.inj (hc'.symm.trans hc)
  obtain ⟨d, hphase, htcores⟩ := heffect.driverPhase hbusy
  refine ⟨d, hphase, ?_⟩
  rw [htcores, hcores, hsel, List.getElem?_set_self (List.getElem?_eq_some_iff.mp hc).1]

/-! ## Fair runs (70_reset_and_hazards.md R142) -/

theorem driverTurns_succ (run : Nat → State) (k n : Nat) :
    driverTurns run k (n + 1) = driverTurns run k n + if (run n).turn? = some ⟨k, .drive⟩ then 1 else 0 := by
  simp [driverTurns, List.range_succ, List.countP_singleton]

/-- `d` is what the command that core `c` runs leaves of that core at its end. -/
structure CoreState.EndsAs (c d : CoreState) : Prop where
  busy : d.busy = false
  done : d.done = true
  index : d.index = c.size.val
  size : d.size = c.size
  cmd : d.cmd = c.cmd

/-- An element step does not change what the command ends as. -/
theorem CoreState.EndsAs.of_advanced {c d : CoreState} (h : c.advanced.EndsAs d) : c.EndsAs d :=
  ⟨h.busy, h.done, h.index, h.size, h.cmd⟩

section
variable {run : Nat → State} {k n : Nat} {c : CoreState}
variable (hrun : IsRun run) (hreset : ∀ m, (run m).turn? ≠ some ⟨k, .reset⟩)
include hrun hreset

/-- If after `r` steps the turn is the driver's or the core is no longer BUSY, then the driver's turn comes, and up to
the first such turn the core stays as it is. -/
theorem exists_driverTurn_of_served {r : Nat} (hc : (run n).cores[k]? = some c) (hbusy : c.busy = true)
    (hserved : (run (n + r)).turn? = some ⟨k, .drive⟩ ∨ ¬(run (n + r)).IsBusy k) :
    ∃ m, n ≤ m ∧ (run m).turn? = some ⟨k, .drive⟩ ∧ driverTurns run k m = driverTurns run k n ∧
      ∀ j, n ≤ j → j ≤ m → (run j).cores[k]? = some c := by
  induction r generalizing n with
  | zero =>
    have hturn := hserved.resolve_right (not_not.mpr ⟨c, hc, hbusy⟩)
    exact ⟨n, le_rfl, hturn, rfl, fun j hnj hjn => le_antisymm hnj hjn ▸ hc⟩
  | succ r ih =>
    by_cases hturn : (run n).turn? = some ⟨k, .drive⟩
    · exact ⟨n, le_rfl, hturn, rfl, fun j hnj hjn => le_antisymm hnj hjn ▸ hc⟩
    have hnext := step_busyCore_kept (hrun n) hc hbusy hturn (hreset n)
    rw [← Nat.succ_add_eq_add_succ] at hserved
    obtain ⟨m, hnm, hm, hcount, hkept⟩ := ih hnext hserved
    rw [driverTurns_succ, if_neg hturn] at hcount
    refine ⟨m, Nat.le_of_succ_le hnm, hm, hcount, fun j hnj hjm => ?_⟩
    obtain rfl | hlt := hnj.eq_or_lt
    · exact hc
    · exact hkept j hlt hjm

/-- Fairness gives a BUSY core its driver's next turn, which is one of the phases of its command. -/
theorem WeaklyFair.exists_driverPhase (hfair : WeaklyFair run k) (hc : (run n).cores[k]? = some c)
    (hbusy : c.busy = true) :
    ∃ m d, n < m ∧ DriverPhase c d ∧ (run m).cores[k]? = some d ∧
      driverTurns run k m = driverTurns run k n + 1 ∧ ∀ j, n ≤ j → j < m → (run j).IsBusy k := by
  obtain ⟨p, hnp, hserved⟩ := hfair n ⟨c, hc, hbusy⟩
  obtain ⟨r, rfl⟩ := Nat.exists_eq_add_of_le hnp
  obtain ⟨m, hnm, hturn, hcount, hkept⟩ := exists_driverTurn_of_served hrun hreset hc hbusy hserved
  obtain ⟨d, hphase, hd⟩ := step_busyCore_driven (hrun m) (hkept m hnm le_rfl) hbusy hturn
  refine ⟨m + 1, d, Nat.lt_succ_of_le hnm, hphase, hd, ?_, fun j hnj hjm => ?_⟩
  · rw [driverTurns_succ, if_pos hturn, hcount]
  · exact ⟨c, hkept j hnj (Nat.le_of_lt_succ hjm), hbusy⟩

/-- With `r` elements left the command ends after `r + 1` more turns of the driver, by induction on `r`. -/
theorem WeaklyFair.exists_end (hfair : WeaklyFair run k) {r : Nat} (hc : (run n).cores[k]? = some c)
    (hbusy : c.busy = true) (hleft : c.index.toNat + r = c.size.val.toNat) :
    ∃ m d, n ≤ m ∧ (run m).cores[k]? = some d ∧ c.EndsAs d ∧ (∀ j, n ≤ j → j < m → (run j).IsBusy k) ∧
      driverTurns run k m = driverTurns run k n + (r + 1) := by
  induction r generalizing n c with
  | zero =>
    obtain ⟨m, d, hnm, hphase, hd, hcount, hrunning⟩ := hfair.exists_driverPhase hrun hreset hc hbusy
    cases hphase with
    | element hlt => omega
    | completion hend => exact ⟨m, _, hnm.le, hd, ⟨rfl, rfl, hend, rfl, rfl⟩, hrunning, hcount⟩
  | succ r ih =>
    obtain ⟨p, e, hnp, hphase, he, hcount, hrunning⟩ := hfair.exists_driverPhase hrun hreset hc hbusy
    cases hphase with
    | completion hend =>
      rw [hend] at hleft
      omega
    | element hlt =>
      have hleft' : c.advanced.index.toNat + r = c.advanced.size.val.toNat := by
        rw [c.advanced_index_toNat hlt, CoreState.advanced_size]
        omega
      obtain ⟨m, d, hpm, hd, hends, hlater, hcount'⟩ := ih he hbusy hleft'
      refine ⟨m, d, hnp.le.trans hpm, hd, hends.of_advanced, fun j hnj hjm => ?_, by omega⟩
      obtain hjp | hpj := lt_or_ge j p
      · exact hrunning j hnj hjp
      · exact hlater j hpj hjm

end

/-- Settles O57: the invariant gives INDEX <= SIZE at the start, and the SIZE - INDEX elements left bound the rest. -/
theorem fairRunsComplete : Obligations.FairRunsComplete := by
  intro run k c hrun hinv hc hbusy hfair hreset
  obtain ⟨-, hok, -⟩ := hinv
  obtain ⟨-, -, -, hbounds⟩ := hok k c hc
  obtain ⟨-, hindex, -, -⟩ := hbounds hbusy
  obtain ⟨n, d, -, hd, hends, hrunning, hcount⟩ :=
    hfair.exists_end hrun hreset hc hbusy (Nat.add_sub_of_le hindex)
  have hnone : driverTurns run k 0 = 0 := rfl
  exact ⟨n, d, hd, hends.busy, hends.done, hends.index, hends.size, hends.cmd, fun m hm => hrunning m m.zero_le hm,
    by omega⟩

/-! ## Where one core alone is ever BUSY (logs 3 and 12) -/

theorem not_isBusy_of_busyCores_eq_nil {s : State} (h : busyCores s.cores = []) (j : Nat) : ¬s.IsBusy j := fun hj =>
  List.not_mem_nil (h ▸ (mem_busyCores s.cores j).mpr hj)

/-- With nothing queued the turn is the driver's of a BUSY core, if there is one. -/
theorem State.turn?_of_inbox_nil {s : State} (hinbox : s.inbox = []) :
    (∀ j, ¬s.IsBusy j) ∨ ∃ j, s.IsBusy j ∧ s.turn? = some ⟨j, .drive⟩ := by
  cases hnext : nextTurn? s with
  | none =>
    obtain ⟨-, hidle⟩ := (nextTurn?_none s).mp hnext
    exact .inl (not_isBusy_of_busyCores_eq_nil hidle)
  | some next =>
    obtain ⟨⟨j, act⟩, s'⟩ := next
    obtain ⟨-, hof⟩ := nextTurn?_some s s' _ hnext
    obtain ⟨rfl, hbusy⟩ := hof.busy_driver hinbox
    exact .inr ⟨j, hbusy, by rw [State.turn?, hnext, Option.map_some]⟩

/-- A step takes its turn off the queue, or it is a poll of WAIT: then no core is BUSY, or the next turn is the driver's
of a BUSY core. -/
theorem step_dequeues_or_polls {s t : State} {u : Turn} {ts : List Turn} (hinbox : s.inbox = u :: ts)
    (hstep : step s = .next t) :
    t.inbox = ts ∨ (∀ j, ¬s.IsBusy j) ∨ ∃ j, s.IsBusy j ∧ t.turn? = some ⟨j, .drive⟩ := by
  obtain ⟨c, -, hout⟩ := step_cases_of_inbox hinbox hstep
  obtain hqueue | ⟨-, -, ⟨hidle, -⟩ | ⟨j, hj, hqueue⟩⟩ := turnOutcome_inbox _ _ _ _ hout
  · exact .inl hqueue
  · exact .inr (.inl (not_isBusy_of_busyCores_eq_nil hidle))
  · exact .inr (.inr ⟨j, (mem_busyCores s.cores j).mp hj, State.turn?_of_inbox hqueue⟩)

/-- Where no core but `k` is ever BUSY its driver's turn comes, or it is not BUSY, by the time the queue is empty. -/
theorem IsRun.exists_served {run : Nat → State} {k : Nat} (hrun : IsRun run)
    (hlone : ∀ n j, (run n).IsBusy j → j = k) {ts : List Turn} {n : Nat} (hinbox : (run n).inbox = ts) :
    ∃ m, n ≤ m ∧ ((run m).turn? = some ⟨k, .drive⟩ ∨ ¬(run m).IsBusy k) := by
  induction ts generalizing n with
  | nil =>
    obtain hidle | ⟨j, hj, hturn⟩ := State.turn?_of_inbox_nil hinbox
    · exact ⟨n, le_rfl, .inr (hidle k)⟩
    · exact ⟨n, le_rfl, .inl (hlone n j hj ▸ hturn)⟩
  | cons u ts ih =>
    obtain hqueue | hidle | ⟨j, hj, hturn⟩ := step_dequeues_or_polls hinbox (hrun n)
    · obtain ⟨m, hnm, hserved⟩ := ih hqueue
      exact ⟨m, Nat.le_of_succ_le hnm, hserved⟩
    · exact ⟨n, le_rfl, .inr (hidle k)⟩
    · exact ⟨n + 1, Nat.le_succ n, .inl (hlone n j hj ▸ hturn)⟩

/-- Settles O58: the queue is finite, and a poll of WAIT leaves the one BUSY core's driver the next turn. -/
theorem loneDriverIsServed : Obligations.LoneDriverIsServed := fun _ _ hrun hlone _ _ => hrun.exists_served hlone rfl

end Sys2Proof.Machine
end
